-- ==== Sys2Proof/Word.lean ====
section
/-! DEFINITION. The machine's plain word types. -/

namespace Sys2Proof

/-- One byte, the smallest unit of memory (`20_memory.md` R60). -/
abbrev Byte := BitVec 8

/-- A 16-bit quantity: a selector, an error code, a 16-bit operand (R21, R304). -/
abbrev Half := BitVec 16

/-- A 32-bit quantity: an offset, a linear address, a general register (R24, R25, R27, R61). -/
abbrev Word := BitVec 32

/-- A privilege level, 0 the most and 3 the least privileged (R312). Levels are compared as unsigned
numbers (R7). -/
abbrev Level := BitVec 2

/-- `max(a,b)` of two privilege levels (R7; the sources' `MAX (CPL,RPL)`). -/
abbrev maxLevel (a b : Level) : Level := if a ≤ b then b else a

end Sys2Proof
end

