-- ==== Sys2Proof/Config.lean ====
section
/-! DEFINITION. What an implementation fixes (the parameters the spec leaves open, R6 and D30) and the
free values the spec calls `draw(n)` (R8). -/

namespace Sys2Proof

/-- Parameter `ErrCodeForm` (D21, R304): how a selector is recorded as an error code. -/
inductive ErrCodeForm where
  /-- bits 1:0 cleared, `sel and FFFCH`: the spec's choice -/
  | masked
  /-- the selector as it is -/
  | unmasked
  deriving DecidableEq, Repr

/-- What a privileged instruction other than HLT does at CPL 0 (R251, D20; log entry 4). -/
inductive PrivilegedAtZero where
  /-- it has its effect: the one R252, R254 and R256 to R258 add in parentheses, and for R255 and R259 to R261 the
  one their names say (PRESUMED, log entry 4) -/
  | effect
  /-- it is refused, the reading decision D20 takes -/
  | refused
  deriving DecidableEq, Repr

/-- What a segment-override prefix does (R92, D5; log entry 6). -/
inductive SegmentOverride where
  /-- it replaces the segment register of the memory operand, as R92 says -/
  | executed
  /-- it is refused, the reading decision D5 takes -/
  | refused
  deriving DecidableEq, Repr

/-- The parameters the model takes as arguments (R6, D30). They stand in `State`, so that a claim can
quantify over them; no instruction changes them. -/
structure Params where
  /-- `SetsAccessed` (D14): a load of a segment register sets the accessed bit of the descriptor. -/
  setsAccessed : Bool
  /-- `ErrCodeForm` (D21) -/
  errCodeForm : ErrCodeForm
  /-- the model's own switch between the two readings of R251 (log entry 4) -/
  privilegedAtZero : PrivilegedAtZero
  /-- the model's own switch between R92 and D5 for segment overrides (log entry 6) -/
  segmentOverride : SegmentOverride
  deriving DecidableEq, Repr

/-- The parameters of the reset state, under which the model follows every decision of the spec: the accessed bit is set (D14), error
codes are masked (D21), and every case of R306's list is refused, privileged effects at CPL 0 (D20) and segment
overrides (D5) among them. -/
def Params.asDecided : Params :=
  { setsAccessed := true, errCodeForm := .masked, privilegedAtZero := .refused, segmentOverride := .refused }

/-- The parameters under which privileged instructions have their effect at CPL 0 and segment overrides are executed,
where D20 and D5 refuse both (log entries 4 and 6); a claim about those effects takes them. -/
def Params.executing : Params :=
  { Params.asDecided with privilegedAtZero := .effect, segmentOverride := .executed }

/-- `draw(4)`: the four undefined bits of LAR's result (R271, U1). A free value: no body. -/
opaque Config.drawNibble : Nat → BitVec 4

/-- `draw(16)`: the high half of a pushed selector (D15, U7) and the error code of Table 6-3 row 9
(U6). A free value: no body. -/
opaque Config.drawHalf : Nat → BitVec 16

end Sys2Proof
end

