-- ==== Sys2Proof/Syntax.lean ====
section
/-! DEFINITION. The instructions of `opcode_table.json` as abstract terms with decoded operands (R90, R98).
A memory operand keeps which of the encodings of R93 and R94 names it, so that its byte length is
determined by the term (R90). -/

namespace Sys2Proof

/-- The eight general registers in their numbering order (R27). -/
inductive Reg where
  | eax | ecx | edx | ebx | esp | ebp | esi | edi
  deriving DecidableEq, Repr

/-- The six segment registers in their numbering order (R20, R95). -/
inductive SReg where
  | es | cs | ss | ds | fs | gs
  deriving DecidableEq, Repr

/-- The scale of an index register (R94): `index << scale`. -/
inductive Scale where
  | x1 | x2 | x4 | x8
  deriving DecidableEq, Repr

/-- The displacement after a ModRM or SIB byte: mod 00, 01, 10 (R93). -/
inductive Disp where
  | none
  | d8 (d : Byte)
  | d32 (d : Word)
  deriving DecidableEq, Repr

/-- The index part of a SIB byte (R94). `reg = none` is index 100, "no index". -/
structure Index where
  reg : Option Reg
  scale : Scale
  deriving DecidableEq, Repr

/-- The offset part of a memory operand, one constructor per shape of R93 and R94. -/
inductive Addr where
  /-- [base] + displacement, no SIB byte -/
  | base (b : Reg) (d : Disp)
  /-- disp32 alone (mod 00, rm 101) -/
  | abs (d : Word)
  /-- SIB byte with a base register -/
  | sib (b : Reg) (x : Index) (d : Disp)
  /-- SIB byte with no base and a disp32 (mod 00, base 101) -/
  | sibAbs (x : Index) (d : Word)
  deriving DecidableEq, Repr

/-- A memory operand: an offset, and the segment register a segment-override byte names (R92). -/
structure Mem where
  ovr : Option SReg
  addr : Addr
  deriving DecidableEq, Repr

/-- An `r/m` operand (R93): a general register (mod 11) or memory. -/
inductive RM where
  | reg (r : Reg)
  | mem (m : Mem)
  deriving DecidableEq, Repr

/-- One constructor per row of `opcode_table.json`. -/
inductive Instr where
  /-- JMP rel8 (R161) -/
  | jmpRel8 (rel : Byte)
  /-- JMP rel32 (R161) -/
  | jmpRel32 (rel : Word)
  /-- JMP r/m32 (R161) -/
  | jmpRm32 (rm : RM)
  /-- JMP ptr16:32 (R167, R194) -/
  | jmpPtr (off : Word) (sel : Half)
  /-- JMP m16:32 (R167, R194) -/
  | jmpMem (m : Mem)
  /-- CALL rel32 (R162) -/
  | callRel32 (rel : Word)
  /-- CALL r/m32 (R162) -/
  | callRm32 (rm : RM)
  /-- CALL ptr16:32 (R165, R195, R197) -/
  | callPtr (off : Word) (sel : Half)
  /-- CALL m16:32 (R165, R195, R197) -/
  | callMem (m : Mem)
  /-- RET (R220) -/
  | ret
  /-- RET imm16 (R221) -/
  | retImm (n : Half)
  /-- RETF (R223) -/
  | retf
  /-- RETF imm16 (R223) -/
  | retfImm (n : Half)
  /-- MOV Sreg, r/m16 (R129) -/
  | movSreg (dst : SReg) (rm : RM)
  /-- POP DS (R130) -/
  | popDs
  /-- POP ES (R130) -/
  | popEs
  /-- POP SS (R130) -/
  | popSs
  /-- POP FS (R130) -/
  | popFs
  /-- POP GS (R130) -/
  | popGs
  /-- LDS r32, m16:32 (R131) -/
  | lds (dst : Reg) (m : Mem)
  /-- LES r32, m16:32 (R131) -/
  | les (dst : Reg) (m : Mem)
  /-- LSS r32, m16:32 (R131) -/
  | lss (dst : Reg) (m : Mem)
  /-- LFS r32, m16:32 (R131) -/
  | lfs (dst : Reg) (m : Mem)
  /-- LGS r32, m16:32 (R131) -/
  | lgs (dst : Reg) (m : Mem)
  /-- CLTS (R252) -/
  | clts
  /-- HLT (R253) -/
  | hlt
  /-- LGDT m16&32 (R254) -/
  | lgdt (m : Mem)
  /-- LIDT m16&32 (R255) -/
  | lidt (m : Mem)
  /-- LLDT r/m16 (R256) -/
  | lldt (rm : RM)
  /-- LMSW r/m16 (R257) -/
  | lmsw (rm : RM)
  /-- LTR r/m16 (R258) -/
  | ltr (rm : RM)
  /-- MOV r32, CRn (R259); `n` is the register number (R95) -/
  | movFromCr (dst : Reg) (n : BitVec 3)
  /-- MOV CRn, r32 (R259) -/
  | movToCr (n : BitVec 3) (src : Reg)
  /-- MOV r32, DRn (R260) -/
  | movFromDr (dst : Reg) (n : BitVec 3)
  /-- MOV DRn, r32 (R260) -/
  | movToDr (n : BitVec 3) (src : Reg)
  /-- MOV r32, TRn (R261) -/
  | movFromTr (dst : Reg) (n : BitVec 3)
  /-- MOV TRn, r32 (R261) -/
  | movToTr (n : BitVec 3) (src : Reg)
  /-- LAR r32, r/m32 (R271) -/
  | lar (dst : Reg) (rm : RM)
  /-- LSL r32, r/m32 (R272) -/
  | lsl (dst : Reg) (rm : RM)
  /-- VERR r/m16 (R273) -/
  | verr (rm : RM)
  /-- VERW r/m16 (R274) -/
  | verw (rm : RM)
  /-- ARPL r/m16, r16 (R275) -/
  | arpl (rm : RM) (src : Reg)
  /-- INT 3 (R170) -/
  | int3
  /-- INT imm8 (R170) -/
  | intImm (n : Byte)
  /-- INTO (R170) -/
  | into
  /-- IRET (R170) -/
  | iret
  deriving DecidableEq, Repr

/-- The memory operand of an `r/m` operand, if it is one. -/
def RM.mem? : RM → Option Mem
  | .reg _ => Option.none
  | .mem m => some m

/-- The memory operand an instruction names, if any. -/
def Instr.mem? : Instr → Option Mem
  | .jmpRm32 rm | .callRm32 rm | .movSreg _ rm | .lldt rm | .lmsw rm | .ltr rm | .lar _ rm
  | .lsl _ rm | .verr rm | .verw rm | .arpl rm _ => rm.mem?
  | .jmpMem m | .callMem m | .lds _ m | .les _ m | .lss _ m | .lfs _ m | .lgs _ m | .lgdt m
  | .lidt m => some m
  | .jmpRel8 _ | .jmpRel32 _ | .jmpPtr _ _ | .callRel32 _ | .callPtr _ _ | .ret | .retImm _ | .retf
  | .retfImm _ | .popDs | .popEs | .popSs | .popFs | .popGs | .clts | .hlt | .movFromCr _ _
  | .movToCr _ _ | .movFromDr _ _ | .movToDr _ _ | .movFromTr _ _ | .movToTr _ _ | .int3
  | .intImm _ | .into | .iret => Option.none

end Sys2Proof
end

