-- ==== Sys2Proof/WellFormed.lean ====
section
/-! DEFINITION. Which terms the encoding of R93 and R94 can express. -/

namespace Sys2Proof

/-- R94: index 100 means "no index", so ESP is never an index register. -/
def Index.wf (x : Index) : Bool := x.reg != some Reg.esp

/-- R93, R94: with mod 00 the base number 101 (EBP) means a bare disp32 instead. -/
def baseDispWf (b : Reg) (d : Disp) : Bool := !(b == Reg.ebp && d == Disp.none)

/-- R93, R94: which shapes of an offset the ModRM and SIB bytes can name. -/
def Addr.wf : Addr → Bool
  | .base b d => b != Reg.esp && baseDispWf b d
  | .abs _ => true
  | .sib b x d => x.wf && baseDispWf b d
  | .sibAbs x _ => x.wf

/-- A memory operand is well formed iff its offset is; every override is expressible (R92). -/
def Mem.wf (m : Mem) : Bool := m.addr.wf

/-- An instruction is well formed iff its memory operand, if it has one, is. -/
def Instr.wf (i : Instr) : Bool :=
  match i.mem? with
  | some m => m.wf
  | Option.none => true

end Sys2Proof
end

