-- ==== Sys2Proof/Decode.lean ====
section
/-! DEFINITION. Decoding of instruction bytes, total on any bytes and refusing by name, and the encoder
beside it (`30_encoding.md` R91 to R97; every byte value there is general knowledge, log entry 5). -/

namespace Sys2Proof

/-- Why the decoder refuses a byte sequence (R97, D19). Each is a stop of the model where the spec gives
no meaning; every one of them is safe. -/
inductive DecodeRefusal where
  /-- the bytes end before the instruction does; the fetch turns this into GP(0) (R80) -/
  | truncated
  /-- the first opcode byte starts no row of the table (R97) -/
  | unknownOpcode (b : Byte)
  /-- 0FH followed by a byte that makes no row of the table (R97) -/
  | unknownTwoByte (b : Byte)
  /-- the opcode extension in the ModRM byte makes no row of the table (R97) -/
  | unknownExtension (opcode : Byte) (ext : BitVec 3)
  /-- an operand-size, address-size, LOCK or repeat prefix (R92, D5); raised by the fetch also for a segment
  override, under the parameter that follows D5 -/
  | refusedPrefix (b : Byte)
  /-- a second segment override: no rule gives it a meaning -/
  | repeatedOverride
  /-- a segment override on an instruction with no memory operand: R92 gives it no meaning there -/
  | overrideWithoutMemory
  /-- mod = 11 where the row takes a memory operand only (R96, the table's constraint) -/
  | registerForm
  /-- Sreg number 6 or 7, "undefined" (R95) -/
  | undefinedSreg (n : BitVec 3)
  deriving DecidableEq, Repr

/-- The result of decoding a part: what was read and the bytes after it, or a refusal. -/
abbrev Parse := Except DecodeRefusal

/-- A decoded part and the bytes that follow it. -/
abbrev Read (α : Type) := α × List Byte

/-! ### Byte order (R62) and bit fields -/

/-- A word of two bytes, the first byte low (R62). -/
def half16 (b0 b1 : Byte) : Half := b1 ++ b0

/-- A doubleword of four bytes, the first byte low (R62). -/
def word32 (b0 b1 b2 b3 : Byte) : Word := b3 ++ b2 ++ b1 ++ b0

/-- The bytes of a word, low byte first (R62). -/
def bytes16 (v : Half) : List Byte := [v.extractLsb' 0 8, v.extractLsb' 8 8]

/-- The bytes of a doubleword, low byte first (R62). -/
def bytes32 (v : Word) : List Byte :=
  [v.extractLsb' 0 8, v.extractLsb' 8 8, v.extractLsb' 16 8, v.extractLsb' 24 8]

/-- Bits 7:6 of a ModRM or SIB byte (R93, R94). -/
def modField (b : Byte) : BitVec 2 := b.extractLsb' 6 2

/-- Bits 5:3 of a ModRM or SIB byte (R93, R94). -/
def regField (b : Byte) : BitVec 3 := b.extractLsb' 3 3

/-- Bits 2:0 of a ModRM or SIB byte (R93, R94). -/
def rmField (b : Byte) : BitVec 3 := b.extractLsb' 0 3

/-- A ModRM or SIB byte of its three fields (R93, R94). -/
def modrm (m : BitVec 2) (r : BitVec 3) (rm : BitVec 3) : Byte := m ++ r ++ rm

/-- The general register of a number (R27). -/
def regOf (n : BitVec 3) : Reg :=
  match n.toNat with
  | 0 => .eax
  | 1 => .ecx
  | 2 => .edx
  | 3 => .ebx
  | 4 => .esp
  | 5 => .ebp
  | 6 => .esi
  | _ => .edi

/-- The number of a general register (R27). -/
def regNum : Reg → BitVec 3
  | .eax => 0
  | .ecx => 1
  | .edx => 2
  | .ebx => 3
  | .esp => 4
  | .ebp => 5
  | .esi => 6
  | .edi => 7

/-- The segment register of a number; 6 and 7 are undefined (R95). -/
def sregOf (n : BitVec 3) : Option SReg :=
  match n.toNat with
  | 0 => some .es
  | 1 => some .cs
  | 2 => some .ss
  | 3 => some .ds
  | 4 => some .fs
  | 5 => some .gs
  | _ => none

/-- The number of a segment register (R95). -/
def sregNum : SReg → BitVec 3
  | .es => 0
  | .cs => 1
  | .ss => 2
  | .ds => 3
  | .fs => 4
  | .gs => 5

/-- The scale of a field value (R94). -/
def scaleOf (n : BitVec 2) : Scale :=
  match n.toNat with
  | 0 => .x1
  | 1 => .x2
  | 2 => .x4
  | _ => .x8

/-- The field value of a scale (R94). -/
def scaleNum : Scale → BitVec 2
  | .x1 => 0
  | .x2 => 1
  | .x4 => 2
  | .x8 => 3

/-! ### Prefixes (R92) -/

/-- The segment register a segment-override byte names (R92). -/
def overrideOf (b : Byte) : Option SReg :=
  match b.toNat with
  | 0x2E => some .cs
  | 0x36 => some .ss
  | 0x3E => some .ds
  | 0x26 => some .es
  | 0x64 => some .fs
  | 0x65 => some .gs
  | _ => none

/-- The segment-override byte of a segment register (R92). -/
def overrideByte : SReg → Byte
  | .cs => 0x2E
  | .ss => 0x36
  | .ds => 0x3E
  | .es => 0x26
  | .fs => 0x64
  | .gs => 0x65

/-- The prefix bytes the spec refuses: 66H, 67H, LOCK, REP (R92, D5). -/
def isRefusedPrefix (b : Byte) : Bool :=
  match b.toNat with
  | 0x66 | 0x67 | 0xF0 | 0xF2 | 0xF3 => true
  | _ => false

/-! ### Decoding of parts -/

/-- One byte. -/
def take1 : List Byte → Parse (Read Byte)
  | b :: t => .ok (b, t)
  | [] => .error .truncated

/-- A 2-byte little-endian value (R91). -/
def take2 : List Byte → Parse (Read Half)
  | b0 :: b1 :: t => .ok (half16 b0 b1, t)
  | _ => .error .truncated

/-- A 4-byte little-endian value (R91). -/
def take4 : List Byte → Parse (Read Word)
  | b0 :: b1 :: b2 :: b3 :: t => .ok (word32 b0 b1 b2 b3, t)
  | _ => .error .truncated

/-- The displacement that mod 00, 01 or 10 asks for (R93). -/
def parseDisp (m : BitVec 2) (t : List Byte) : Parse (Read Disp) :=
  match m.toNat with
  | 0 => .ok (.none, t)
  | 1 => do
    let (d, t) ← take1 t
    .ok (.d8 d, t)
  | _ => do
    let (d, t) ← take4 t
    .ok (.d32 d, t)

/-- The index part of a SIB byte; index 100 means none (R94). -/
def indexOf (sib : Byte) : Index :=
  { reg := if regField sib = 4 then none else some (regOf (regField sib))
    scale := scaleOf (modField sib) }

/-- The offset a memory form of ModRM names, with its SIB byte and displacement (R93, R94). -/
def parseAddr (m : BitVec 2) (rm : BitVec 3) (t : List Byte) : Parse (Read Addr) :=
  if rm = 4 then do
    let (sib, t) ← take1 t
    if m = 0 ∧ rmField sib = 5 then do
      let (d, t) ← take4 t
      .ok (.sibAbs (indexOf sib) d, t)
    else do
      let (d, t) ← parseDisp m t
      .ok (.sib (regOf (rmField sib)) (indexOf sib) d, t)
  else if m = 0 ∧ rm = 5 then do
    let (d, t) ← take4 t
    .ok (.abs d, t)
  else do
    let (d, t) ← parseDisp m t
    .ok (.base (regOf rm) d, t)

/-- The `r/m` operand of a ModRM byte (R93). -/
def parseRM (ovr : Option SReg) (b : Byte) (t : List Byte) : Parse (Read RM) :=
  if modField b = 3 then .ok (.reg (regOf (rmField b)), t)
  else do
    let (a, t) ← parseAddr (modField b) (rmField b) t
    .ok (.mem { ovr := ovr, addr := a }, t)

/-- The operand of a row that takes memory only; mod = 11 is refused (R96). -/
def parseMem (ovr : Option SReg) (b : Byte) (t : List Byte) : Parse (Read Mem) :=
  if modField b = 3 then .error .registerForm
  else do
    let (a, t) ← parseAddr (modField b) (rmField b) t
    .ok ({ ovr := ovr, addr := a }, t)

/-- A ModRM byte and its `r/m` operand, given to a constructor that takes the `reg` field as a register. -/
def parseRegRM (ovr : Option SReg) (k : Reg → RM → Instr) (t : List Byte) : Parse (Read Instr) := do
  let (b, t) ← take1 t
  let (rm, t) ← parseRM ovr b t
  .ok (k (regOf (regField b)) rm, t)

/-- As `parseRegRM`, for rows that take memory only. -/
def parseRegMem (ovr : Option SReg) (k : Reg → Mem → Instr) (t : List Byte) : Parse (Read Instr) := do
  let (b, t) ← take1 t
  let (m, t) ← parseMem ovr b t
  .ok (k (regOf (regField b)) m, t)

/-- An `r/m` operand after its ModRM byte, given to a constructor. -/
def parseOpRM (ovr : Option SReg) (k : RM → Instr) (b : Byte) (t : List Byte) : Parse (Read Instr) := do
  let (rm, t) ← parseRM ovr b t
  .ok (k rm, t)

/-- A memory operand after its ModRM byte, given to a constructor. -/
def parseOpMem (ovr : Option SReg) (k : Mem → Instr) (b : Byte) (t : List Byte) : Parse (Read Instr) := do
  let (m, t) ← parseMem ovr b t
  .ok (k m, t)

/-- The ModRM byte of a MOV to or from CRn, DRn or TRn: `reg` = n, `rm` = the general register, `mod`
taken as 11 whatever it is (R95). -/
def parseSysMov (k : BitVec 3 → Reg → Instr) (t : List Byte) : Parse (Read Instr) := do
  let (b, t) ← take1 t
  .ok (k (regField b) (regOf (rmField b)), t)

/-- A far pointer in the instruction: offset, then selector (R95). -/
def parsePtr (k : Word → Half → Instr) (t : List Byte) : Parse (Read Instr) := do
  let (off, t) ← take4 t
  let (sel, t) ← take2 t
  .ok (k off sel, t)

/-! ### Decoding of rows (R96) -/

/-- Rows 0F 00 /d: LLDT, LTR, VERR, VERW. -/
def decodeGroup6 (ovr : Option SReg) (t : List Byte) : Parse (Read Instr) := do
  let (b, t) ← take1 t
  match (regField b).toNat with
  | 2 => parseOpRM ovr .lldt b t
  | 3 => parseOpRM ovr .ltr b t
  | 4 => parseOpRM ovr .verr b t
  | 5 => parseOpRM ovr .verw b t
  | _ => .error (.unknownExtension 0x00 (regField b))

/-- Rows 0F 01 /d: LGDT, LIDT, LMSW. -/
def decodeGroup7 (ovr : Option SReg) (t : List Byte) : Parse (Read Instr) := do
  let (b, t) ← take1 t
  match (regField b).toNat with
  | 2 => parseOpMem ovr .lgdt b t
  | 3 => parseOpMem ovr .lidt b t
  | 6 => parseOpRM ovr .lmsw b t
  | _ => .error (.unknownExtension 0x01 (regField b))

/-- Rows whose first byte is 0FH, after that byte. -/
def decodeTwoByte (ovr : Option SReg) (t : List Byte) : Parse (Read Instr) := do
  let (b, t) ← take1 t
  match b.toNat with
  | 0x00 => decodeGroup6 ovr t
  | 0x01 => decodeGroup7 ovr t
  | 0x02 => parseRegRM ovr .lar t
  | 0x03 => parseRegRM ovr .lsl t
  | 0x06 => .ok (.clts, t)
  | 0x20 => parseSysMov (fun n r => .movFromCr r n) t
  | 0x21 => parseSysMov (fun n r => .movFromDr r n) t
  | 0x22 => parseSysMov .movToCr t
  | 0x23 => parseSysMov .movToDr t
  | 0x24 => parseSysMov (fun n r => .movFromTr r n) t
  | 0x26 => parseSysMov .movToTr t
  | 0xA1 => .ok (.popFs, t)
  | 0xA9 => .ok (.popGs, t)
  | 0xB2 => parseRegMem ovr .lss t
  | 0xB4 => parseRegMem ovr .lfs t
  | 0xB5 => parseRegMem ovr .lgs t
  | _ => .error (.unknownTwoByte b)

/-- Rows FF /d: the indirect near and far CALL and JMP. -/
def decodeGroup5 (ovr : Option SReg) (t : List Byte) : Parse (Read Instr) := do
  let (b, t) ← take1 t
  match (regField b).toNat with
  | 2 => parseOpRM ovr .callRm32 b t
  | 3 => parseOpMem ovr .callMem b t
  | 4 => parseOpRM ovr .jmpRm32 b t
  | 5 => parseOpMem ovr .jmpMem b t
  | _ => .error (.unknownExtension 0xFF (regField b))

/-- Row 8E /r: the `reg` field is a segment register (R95). -/
def decodeMovSreg (ovr : Option SReg) (t : List Byte) : Parse (Read Instr) := do
  let (b, t) ← take1 t
  match sregOf (regField b) with
  | some sr => parseOpRM ovr (.movSreg sr) b t
  | none => .error (.undefinedSreg (regField b))

/-- An instruction after its prefix: the row its first opcode byte names (R96). A second prefix byte is
refused here. -/
def decodeOpcode (ovr : Option SReg) (bs : List Byte) : Parse (Read Instr) := do
  let (b, t) ← take1 bs
  match b.toNat with
  | 0x07 => .ok (.popEs, t)
  | 0x0F => decodeTwoByte ovr t
  | 0x17 => .ok (.popSs, t)
  | 0x1F => .ok (.popDs, t)
  | 0x63 => parseRegRM ovr (fun r rm => .arpl rm r) t
  | 0x8E => decodeMovSreg ovr t
  | 0x9A => parsePtr .callPtr t
  | 0xC2 => do
    let (n, t) ← take2 t
    .ok (.retImm n, t)
  | 0xC3 => .ok (.ret, t)
  | 0xC4 => parseRegMem ovr .les t
  | 0xC5 => parseRegMem ovr .lds t
  | 0xCA => do
    let (n, t) ← take2 t
    .ok (.retfImm n, t)
  | 0xCB => .ok (.retf, t)
  | 0xCC => .ok (.int3, t)
  | 0xCD => do
    let (n, t) ← take1 t
    .ok (.intImm n, t)
  | 0xCE => .ok (.into, t)
  | 0xCF => .ok (.iret, t)
  | 0xE8 => do
    let (d, t) ← take4 t
    .ok (.callRel32 d, t)
  | 0xE9 => do
    let (d, t) ← take4 t
    .ok (.jmpRel32 d, t)
  | 0xEA => parsePtr .jmpPtr t
  | 0xEB => do
    let (d, t) ← take1 t
    .ok (.jmpRel8 d, t)
  | 0xF4 => .ok (.hlt, t)
  | 0xFF => decodeGroup5 ovr t
  | _ =>
    if isRefusedPrefix b then .error (.refusedPrefix b)
    else if (overrideOf b).isSome then .error .repeatedOverride
    else .error (.unknownOpcode b)

/-- A segment override replaces the default segment of a memory operand; on an instruction that has none
it is refused (R92, log entry 6). -/
def requireMem (p : Read Instr) : Parse (Read Instr) :=
  if p.1.mem?.isSome then .ok p else .error .overrideWithoutMemory

/-- The decoder: the instruction a byte sequence starts with and the bytes after it, or a refusal by name
(R91, R92, R96, R97). -/
def decode : List Byte → Parse (Read Instr)
  | [] => .error .truncated
  | b :: t =>
    match overrideOf b with
    | some sr => decodeOpcode (some sr) t >>= requireMem
    | none => decodeOpcode none (b :: t)

/-! ### The encoder -/

/-- The bytes of a displacement (R93). -/
def encodeDisp : Disp → List Byte
  | .none => []
  | .d8 d => [d]
  | .d32 d => bytes32 d

/-- The mod field a displacement asks for (R93). -/
def dispMod : Disp → BitVec 2
  | .none => 0
  | .d8 _ => 1
  | .d32 _ => 2

/-- The index number of a SIB byte; 100 for none (R94). -/
def indexNum (x : Index) : BitVec 3 :=
  match x.reg with
  | some r => regNum r
  | none => 4

/-- The ModRM byte of a memory operand with `reg` field `r`, its SIB byte and displacement (R93, R94). -/
def encodeAddr (r : BitVec 3) : Addr → List Byte
  | .base b d => modrm (dispMod d) r (regNum b) :: encodeDisp d
  | .abs d => modrm 0 r 5 :: bytes32 d
  | .sib b x d =>
    modrm (dispMod d) r 4 :: modrm (scaleNum x.scale) (indexNum x) (regNum b) :: encodeDisp d
  | .sibAbs x d => modrm 0 r 4 :: modrm (scaleNum x.scale) (indexNum x) 5 :: bytes32 d

/-- The ModRM byte of an `r/m` operand and what follows it (R93). -/
def encodeRM (r : BitVec 3) : RM → List Byte
  | .reg g => [modrm 3 r (regNum g)]
  | .mem m => encodeAddr r m.addr

/-- The segment-override byte an instruction's memory operand asks for, if any (R92). -/
def encodeOver (i : Instr) : List Byte :=
  match i.mem? with
  | some m =>
    match m.ovr with
    | some sr => [overrideByte sr]
    | none => []
  | none => []

/-- The opcode and operand bytes of an instruction (R95, R96). -/
def encodeBody : Instr → List Byte
  | .jmpRel8 d => [0xEB, d]
  | .jmpRel32 d => 0xE9 :: bytes32 d
  | .jmpRm32 rm => 0xFF :: encodeRM 4 rm
  | .jmpPtr off sel => 0xEA :: (bytes32 off ++ bytes16 sel)
  | .jmpMem m => 0xFF :: encodeAddr 5 m.addr
  | .callRel32 d => 0xE8 :: bytes32 d
  | .callRm32 rm => 0xFF :: encodeRM 2 rm
  | .callPtr off sel => 0x9A :: (bytes32 off ++ bytes16 sel)
  | .callMem m => 0xFF :: encodeAddr 3 m.addr
  | .ret => [0xC3]
  | .retImm n => 0xC2 :: bytes16 n
  | .retf => [0xCB]
  | .retfImm n => 0xCA :: bytes16 n
  | .movSreg sr rm => 0x8E :: encodeRM (sregNum sr) rm
  | .popDs => [0x1F]
  | .popEs => [0x07]
  | .popSs => [0x17]
  | .popFs => [0x0F, 0xA1]
  | .popGs => [0x0F, 0xA9]
  | .lds r m => 0xC5 :: encodeAddr (regNum r) m.addr
  | .les r m => 0xC4 :: encodeAddr (regNum r) m.addr
  | .lss r m => 0x0F :: 0xB2 :: encodeAddr (regNum r) m.addr
  | .lfs r m => 0x0F :: 0xB4 :: encodeAddr (regNum r) m.addr
  | .lgs r m => 0x0F :: 0xB5 :: encodeAddr (regNum r) m.addr
  | .clts => [0x0F, 0x06]
  | .hlt => [0xF4]
  | .lgdt m => 0x0F :: 0x01 :: encodeAddr 2 m.addr
  | .lidt m => 0x0F :: 0x01 :: encodeAddr 3 m.addr
  | .lldt rm => 0x0F :: 0x00 :: encodeRM 2 rm
  | .lmsw rm => 0x0F :: 0x01 :: encodeRM 6 rm
  | .ltr rm => 0x0F :: 0x00 :: encodeRM 3 rm
  | .movFromCr r n => [0x0F, 0x20, modrm 3 n (regNum r)]
  | .movToCr n r => [0x0F, 0x22, modrm 3 n (regNum r)]
  | .movFromDr r n => [0x0F, 0x21, modrm 3 n (regNum r)]
  | .movToDr n r => [0x0F, 0x23, modrm 3 n (regNum r)]
  | .movFromTr r n => [0x0F, 0x24, modrm 3 n (regNum r)]
  | .movToTr n r => [0x0F, 0x26, modrm 3 n (regNum r)]
  | .lar r rm => 0x0F :: 0x02 :: encodeRM (regNum r) rm
  | .lsl r rm => 0x0F :: 0x03 :: encodeRM (regNum r) rm
  | .verr rm => 0x0F :: 0x00 :: encodeRM 4 rm
  | .verw rm => 0x0F :: 0x00 :: encodeRM 5 rm
  | .arpl rm r => 0x63 :: encodeRM (regNum r) rm
  | .int3 => [0xCC]
  | .intImm n => [0xCD, n]
  | .into => [0xCE]
  | .iret => [0xCF]

/-- The encoder: the bytes of a well-formed instruction in memory order (R91, R95, R96). -/
def encode (i : Instr) : List Byte := encodeOver i ++ encodeBody i

/-- The byte length of an instruction (R90, R91): there is no length field, so it is the length of its
encoding. -/
def Instr.length (i : Instr) : Nat := (encode i).length

/-- The longest an instruction may be (R91). -/
def maxInstrBytes : Nat := 15

/-! ### The host's numbering of the table's bits -/

/-- The bytes of a table word: byte `k` is bits `8k+7:8k` of `w`, every bit from `nbits` on is 0. -/
def tableBytes (nbits w : Nat) : List Byte :=
  (List.range maxInstrBytes).map fun k => BitVec.ofNat 8 (w % 2 ^ nbits / 2 ^ (8 * k))

/-- The instruction the decoder reads from a table word. -/
def decodeTableWord (nbits w : Nat) : Option Instr :=
  match decode (tableBytes nbits w) with
  | .ok (i, _) => some i
  | .error _ => none

end Sys2Proof
end

