-- ==== Sys2Proof/Machine/State.lean ====
section
/-! DEFINITION. The machine's state as plain data (`10_state.md` R41), the reasons a step can stop, and the
state after reset. -/

namespace Sys2Proof.Machine

/-! ### Reasons to stop -/

/-- An exception of the hardware with its 16-bit error code (R300 to R304). The spec makes every raise
terminal: the run ends with this record and every register and byte of memory is as it was before the
instruction (R307, D3). -/
inductive Fault where
  /-- general protection exception (R300): raised by limit, type, null, privilege and selector checks.
  Safe: the model stops where the hardware goes on to a handler no source describes. -/
  | gp (code : Half)
  /-- stack fault (R301): raised by stack accesses outside SS's limit and by bad stack segments. Safe. -/
  | sf (code : Half)
  /-- segment-not-present exception (R302): raised when a descriptor to be used has P = 0. Safe. -/
  | np (code : Half)
  /-- invalid-TSS exception (R303): raised by the stack switch of an interlevel CALL (R198). Safe. -/
  | invalidTss (code : Half)
  deriving DecidableEq, Repr

/-- Why the model has no next state for a case the spec refuses (R306). Every refusal is safe: nothing can
be proved of a run that reaches one. -/
inductive Refusal where
  /-- an instruction whose meaning is not written yet; raised by exec's arm alone -/
  | notModelled (mnemonic : String)
  /-- the bytes fetched are no instruction of the table (R97); raised by step -/
  | undecodable (r : DecodeRefusal)
  /-- a fetch of a byte stored to since launch (R347, D9); raised by step -/
  | fetchOfStoredByte
  /-- CR0.PE = 0: real-address mode is out of scope (R4, D5); raised by step and by MOV CR0 -/
  | realMode
  /-- CR0.PG = 1: paging is out of scope (R4, D4); raised by step and by MOV CR0 -/
  | paging
  /-- a code segment with D = 0 (D5); raised by step, far transfers and far returns -/
  | codeSegment16
  /-- a stack segment with B = 0 (D5, R78); raised by pushes, loads of SS, stack switches, far returns -/
  | stackSegment16
  /-- an 80286 call gate, type 4 (R202, D5); raised by far JMP and CALL -/
  | callGate286
  /-- stack pointers of an 80286 TSS (D5); raised by an interlevel CALL -/
  | tss286
  /-- a far JMP or CALL to a TSS or task gate (R169); raised by far JMP and CALL -/
  | taskSwitch
  /-- MOV to CS (R129) -/
  | movToCs
  /-- LAR on an interrupt or trap gate: source and hardware disagree (R271, D26, conflict C12) -/
  | larInterruptGate
  /-- INT 3, INT n, INTO, IRET: control transfers of Chapter 9, which is in no source (R170) -/
  | interruptTransfer
  /-- a privileged instruction at CPL 0 under `PrivilegedAtZero.refused` (R251, D20) -/
  | privilegedEffect
  /-- a CRn, DRn or TRn number the spec names no register for (R34) -/
  | noSuchRegister (n : BitVec 3)
  deriving DecidableEq, Repr

/-! ### Registers -/

/-- The eight general registers (R27); `esp` is the ESP of R25. -/
structure Regs where
  eax : Word
  ecx : Word
  edx : Word
  ebx : Word
  esp : Word
  ebp : Word
  esi : Word
  edi : Word
  deriving DecidableEq, Repr

/-- The attributes a segment register caches (R20, R22, R35): TYPE, S, DPL, P, G, and B (of a data segment)
or D (of a code segment); `valid = false` marks a register that holds the null selector. -/
structure SegAttr where
  typ : BitVec 4
  s : Bool
  dpl : Level
  p : Bool
  g : Bool
  db : Bool
  valid : Bool
  deriving DecidableEq, Repr

/-- A segment register: its visible part `sel` and its invisible part (R20, R35). -/
structure SegReg where
  sel : Half
  base : Word
  limit : Word
  attr : SegAttr
  deriving DecidableEq, Repr

/-- The six segment registers (R20). -/
structure Segs where
  cs : SegReg
  ss : SegReg
  ds : SegReg
  es : SegReg
  fs : SegReg
  gs : SegReg
  deriving DecidableEq, Repr

/-- GDTR and IDTR: 32-bit linear base, 16-bit limit (R28). -/
structure TableReg where
  base : Word
  limit : Half
  deriving DecidableEq, Repr

/-- LDTR: a selector with the base and limit cached from its descriptor (R28); `valid = false` says that
no LDT is loaded (R73, D6). -/
structure LdtReg where
  sel : Half
  base : Word
  limit : Word
  valid : Bool
  deriving DecidableEq, Repr

/-- TR: a selector with the base and limit cached from its descriptor (R33, R41), and that descriptor's
TYPE, which tells an 80286 TSS from an 80386 one (D5). -/
structure TaskReg where
  sel : Half
  base : Word
  limit : Word
  typ : BitVec 4
  deriving DecidableEq, Repr

/-- The control, debug and test registers R34 names. The Machine Status Word is the low half of CR0. -/
structure SysRegs where
  cr0 : Word
  cr2 : Word
  cr3 : Word
  dr0 : Word
  dr1 : Word
  dr2 : Word
  dr3 : Word
  dr6 : Word
  dr7 : Word
  tr6 : Word
  tr7 : Word
  deriving DecidableEq, Repr

/-- The linear memory of 2^32 bytes (R60, D30): the bytes that differ from what an unlisted address reads
as, addresses strictly rising. -/
structure Memory where
  cells : List Host.Cell
  deriving DecidableEq, Repr

/-- The machine's state (R41), with the model's own fields at the end: `halted` (R253), `stored` (R347),
`draws` (R8) and `params` (R6). -/
structure State where
  regs : Regs
  segs : Segs
  cpl : Level
  eip : Word
  eflags : Word
  gdtr : TableReg
  ldtr : LdtReg
  idtr : TableReg
  tr : TaskReg
  sys : SysRegs
  mem : Memory
  /-- the final state `Halted` of R253 and R343 -/
  halted : Bool
  /-- the linear byte addresses stored to since launch, strictly rising (R347, D9) -/
  stored : List Nat
  /-- how many free values have been drawn (R8): the model's own counter, in no source -/
  draws : Nat
  /-- the parameters of R6 -/
  params : Params
  deriving DecidableEq, Repr

/-! ### Reset -/

/-- The code segment of the reset state: flat, level 0, readable, D = 1 (log entry 1). -/
def resetCode : SegReg :=
  { sel := 0x0008, base := 0, limit := 0xFFFFFFFF
    attr := { typ := 0xB, s := true, dpl := 0, p := true, g := true, db := true, valid := true } }

/-- The data and stack segment of the reset state: flat, level 0, writable, B = 1 (log entry 1). -/
def resetData : SegReg :=
  { sel := 0x0010, base := 0, limit := 0xFFFFFFFF
    attr := { typ := 0x3, s := true, dpl := 0, p := true, g := true, db := true, valid := true } }

/-- The state right after reset. No source gives a reset value (R39, R340): this is a launch state that
meets the premises of R341, every field of it the model's choice (log entry 1). Memory lists nothing; the
descriptors that CS, SS, the data-segment registers and TR were loaded from are in the table that GDTR names
(`launchTable` in Memory.lean). The parameters are the spec's decisions (D5, D14, D20, D21; log entry 12). -/
def State.reset : State :=
  { regs := { eax := 0, ecx := 0, edx := 0, ebx := 0, esp := 0, ebp := 0, esi := 0, edi := 0 }
    segs := { cs := resetCode, ss := resetData, ds := resetData, es := resetData, fs := resetData, gs := resetData }
    cpl := 0
    eip := 0
    eflags := 0
    gdtr := { base := 0x1000, limit := 0x1F }
    ldtr := { sel := 0, base := 0, limit := 0, valid := false }
    idtr := { base := 0, limit := 0 }
    tr := { sel := 0x0018, base := 0x2000, limit := 0x67, typ := 0xB }
    sys :=
      { cr0 := 1, cr2 := 0, cr3 := 0, dr0 := 0, dr1 := 0, dr2 := 0, dr3 := 0, dr6 := 0, dr7 := 0
        tr6 := 0, tr7 := 0 }
    mem := { cells := [] }
    halted := false
    stored := []
    draws := 0
    params := Params.asDecided }

end Sys2Proof.Machine
end

