-- ==== Sys2Proof/Machine/Descriptor.lean ====
section
/-! DEFINITION. Selectors, descriptors, gates and the type rules over them (`10_state.md` R21, R22, R29 to
R32; `20_memory.md` R64 to R69). Positions are general knowledge (log entry 7). -/

namespace Sys2Proof.Machine

/-! ### Selectors (R21, R22) -/

/-- `sel.RPL`, bits 1:0 -/
def selRpl (sel : Half) : Level := sel.extractLsb' 0 2

/-- `sel.TI`, bit 2: false names the GDT, true the LDT -/
def selTi (sel : Half) : Bool := sel.getLsbD 2

/-- `sel.INDEX`, bits 15:3 -/
def selIndex (sel : Half) : BitVec 13 := sel.extractLsb' 3 13

/-- `IsNull(sel)`: INDEX = 0 and TI = 0 (R22). -/
def isNull (sel : Half) : Bool := selIndex sel == 0 && !selTi sel

/-- `sel[15:2] ++ p`: the selector with its RPL field replaced (R36, R166, R275). -/
def withRpl (sel : Half) (p : Level) : Half := sel.extractLsb' 2 14 ++ p

/-! ### Code and data attributes (R30, R68, R69)

The predicates read the attributes a segment register caches; a descriptor is asked through
`Descriptor.attr`. -/

/-- An executable segment: S = 1, TYPE bit 3 = 1 (R30). -/
def SegAttr.executable (a : SegAttr) : Bool := a.s && a.typ.getLsbD 3

/-- A data segment: S = 1, TYPE bit 3 = 0 (R30). -/
def SegAttr.data (a : SegAttr) : Bool := a.s && !a.typ.getLsbD 3

/-- A conforming executable segment: C = 1 (R30, R171). -/
def SegAttr.conforming (a : SegAttr) : Bool := a.executable && a.typ.getLsbD 2

/-- An executable segment with R = 1 (R30). -/
def SegAttr.readableCode (a : SegAttr) : Bool := a.executable && a.typ.getLsbD 1

/-- A data segment with W = 1 (R30, R68). -/
def SegAttr.writable (a : SegAttr) : Bool := a.data && a.typ.getLsbD 1

/-- A data segment with E = 1 (R30, R66). -/
def SegAttr.expandDown (a : SegAttr) : Bool := a.data && a.typ.getLsbD 2

/-- The accessed bit, TYPE bit 0 (R30, R133). -/
def SegAttr.accessed (a : SegAttr) : Bool := a.typ.getLsbD 0

/-! ### Descriptors (R29) -/

/-- An 8-byte descriptor as its two doublewords (R29). -/
structure Descriptor where
  dword0 : Word
  dword1 : Word
  deriving DecidableEq, Repr

/-- `d.base` -/
def Descriptor.base (d : Descriptor) : Word :=
  d.dword1.extractLsb' 24 8 ++ d.dword1.extractLsb' 0 8 ++ d.dword0.extractLsb' 16 16

/-- `d.limit20` -/
def Descriptor.limit20 (d : Descriptor) : BitVec 20 :=
  d.dword1.extractLsb' 16 4 ++ d.dword0.extractLsb' 0 16

/-- `d.G`, dword 1 bit 23 -/
def Descriptor.g (d : Descriptor) : Bool := d.dword1.getLsbD 23

/-- The TYPE, S, DPL, P, G and B/D bits (R29), as a segment register caches them (R20). -/
def Descriptor.attr (d : Descriptor) : SegAttr :=
  { typ := d.dword1.extractLsb' 8 4
    s := d.dword1.getLsbD 12
    dpl := d.dword1.extractLsb' 13 2
    p := d.dword1.getLsbD 15
    g := d.g
    db := d.dword1.getLsbD 22
    valid := true }

/-- The access byte, at descriptor address + 5 (R133). -/
def Descriptor.accessByte (d : Descriptor) : Byte := d.dword1.extractLsb' 8 8

/-- `shl(X,12,1)` of the sources: shift left by 12 bits inserting one-bits on the right (R7, R64). -/
def shlOnes (x : BitVec 20) : Word := x ++ (0xFFF : BitVec 12)

/-- `EffLimit(d)` (R64) -/
def Descriptor.effLimit (d : Descriptor) : Word :=
  if d.g then shlOnes d.limit20 else d.limit20.setWidth 32

/-- The segment register a load of descriptor `d` through selector `sel` gives (R122, R123). -/
def Descriptor.segReg (d : Descriptor) (sel : Half) : SegReg :=
  { sel := sel, base := d.base, limit := d.effLimit, attr := d.attr }

/-! ### Call gates (R32) -/

/-- `g.selector` -/
def Descriptor.gateSelector (g : Descriptor) : Half := g.dword0.extractLsb' 16 16

/-- `g.offset` -/
def Descriptor.gateOffset (g : Descriptor) : Word :=
  g.dword1.extractLsb' 16 16 ++ g.dword0.extractLsb' 0 16

/-- `g.count` -/
def Descriptor.gateCount (g : Descriptor) : BitVec 5 := g.dword1.extractLsb' 0 5

/-! ### System descriptor types (R31) -/

/-- Table 6-1: the types of system segments and gates. -/
inductive SysType where
  | reserved
  | availableTss286
  | ldt
  | busyTss286
  | callGate286
  | taskGate
  | interruptGate286
  | trapGate286
  | availableTss386
  | busyTss386
  | callGate386
  | interruptGate386
  | trapGate386
  deriving DecidableEq, Repr

/-- Table 6-1 by code (R31; conflict C1 for the names of 6, 7, E, F). -/
def sysType (t : BitVec 4) : SysType :=
  match t.toNat with
  | 0x1 => .availableTss286
  | 0x2 => .ldt
  | 0x3 => .busyTss286
  | 0x4 => .callGate286
  | 0x5 => .taskGate
  | 0x6 => .interruptGate286
  | 0x7 => .trapGate286
  | 0x9 => .availableTss386
  | 0xB => .busyTss386
  | 0xC => .callGate386
  | 0xE => .interruptGate386
  | 0xF => .trapGate386
  | _ => .reserved

/-- The system type of a descriptor with S = 0. -/
def Descriptor.sysType (d : Descriptor) : SysType := Machine.sysType d.attr.typ

/-- Table 6-4: the system types LSL accepts (R279). -/
def SysType.validForLsl : SysType → Bool
  | .availableTss286 | .ldt | .busyTss286 | .availableTss386 | .busyTss386 => true
  | .reserved | .callGate286 | .taskGate | .interruptGate286 | .trapGate286 | .callGate386
  | .interruptGate386 | .trapGate386 => false

/-- Interrupt and trap gates, types 6, 7, E, F (R271). -/
def SysType.interruptOrTrap : SysType → Bool
  | .interruptGate286 | .trapGate286 | .interruptGate386 | .trapGate386 => true
  | .reserved | .availableTss286 | .ldt | .busyTss286 | .callGate286 | .taskGate | .availableTss386
  | .busyTss386 | .callGate386 => false

/-! ### Limit checks (R65, R66) -/

/-- `InLimitUp(off, n, L)` over the unbounded integers (R65). -/
def inLimitUp (off : Word) (n : Nat) (limit : Word) : Bool := decide (off.toNat + n ≤ limit.toNat + 1)

/-- The upper bound of an expand-down segment by its B bit (R66, conflict C2). -/
def upperBound (b : Bool) : Word := if b then 0xFFFFFFFF else 0x0000FFFF

/-- `InLimitDown(off, n, L, B)` over the unbounded integers (R66). -/
def inLimitDown (off : Word) (n : Nat) (limit : Word) (b : Bool) : Bool :=
  decide (limit < off) && inLimitUp off n (upperBound b)

/-- The limit predicate of a segment with the given attributes and effective limit (R70). -/
def inLimit (a : SegAttr) (limit : Word) (off : Word) (n : Nat) : Bool :=
  if a.expandDown then inLimitDown off n limit a.db else inLimitUp off n limit

end Sys2Proof.Machine
end

