-- ==== Sys2Proof/Machine/Memory.lean ====
section
/-! DEFINITION. The linear memory: one byte read and written, its canonical form, and the little-endian
accesses of several bytes (`20_memory.md` R60 to R62). -/

namespace Sys2Proof.Machine

/-- The descriptor table of the reset state, from linear 1000H on: the null entry, the descriptors that CS,
then SS and the data-segment registers hold, and the busy 386 TSS of TR (R29, R31, R341; log entry 1). -/
def launchTable : List Byte :=
  [0, 0, 0, 0, 0, 0, 0, 0] ++ [0xFF, 0xFF, 0, 0, 0, 0x9B, 0xCF, 0] ++ [0xFF, 0xFF, 0, 0, 0, 0x93, 0xCF, 0] ++
    [0x67, 0, 0, 0x20, 0, 0x8B, 0, 0]

/-- What an address reads as that memory does not list: memory is total (D30) and its contents are the
launch state's (R82); this table with zeros around it is the model's choice (log entries 1 and 2). -/
def unlistedByte (a : Nat) : Byte := if a < 0x1000 then 0 else launchTable.getD (a - 0x1000) 0

/-- The byte at an address. -/
def readCells : List Host.Cell → Nat → Byte
  | [], a => unlistedByte a
  | (k, b) :: t, a => if k = a then b else readCells t a

/-- Put a byte in front of cells that lie above it, unless it is what an unlisted address reads as. -/
def consCell (a : Nat) (v : Byte) (t : List Host.Cell) : List Host.Cell :=
  if v = unlistedByte a then t else (a, v) :: t

/-- Store a byte, keeping the canonical form. -/
def writeCells : List Host.Cell → Nat → Byte → List Host.Cell
  | [], a, v => consCell a v []
  | (k, b) :: t, a, v =>
    if a < k then consCell a v ((k, b) :: t)
    else if a = k then consCell a v t
    else (k, b) :: writeCells t a v

/-- The canonical form: addresses from `lo` on, strictly rising, inside the 2^32 bytes of the address
space, and no cell equal to what an unlisted address reads as. -/
def cellsWf : Nat → List Host.Cell → Bool
  | _, [] => true
  | lo, (k, b) :: t => decide (lo ≤ k) && decide (k < 2 ^ 32) && b != unlistedByte k && cellsWf (k + 1) t

/-- Addresses from `lo` on, strictly rising, inside the address space. -/
def addrsWf : Nat → List Nat → Bool
  | _, [] => true
  | lo, k :: t => decide (lo ≤ k) && decide (k < 2 ^ 32) && addrsWf (k + 1) t

/-- Add an address to a strictly rising list. -/
def insertAddr (a : Nat) : List Nat → List Nat
  | [] => [a]
  | k :: t => if a < k then a :: k :: t else if a = k then k :: t else k :: insertAddr a t

/-- Remove an address from a list. -/
def removeAddr (a : Nat) (l : List Nat) : List Nat := l.filter (fun k => k != a)

/-- The byte at an address (R60). -/
def Memory.read (m : Memory) (a : Nat) : Byte := readCells m.cells a

/-- Store a byte at an address (R60). -/
def Memory.write (m : Memory) (a : Nat) (v : Byte) : Memory := { cells := writeCells m.cells a v }

/-- The memory is in canonical form. -/
def Memory.wf (m : Memory) : Bool := cellsWf 0 m.cells

/-! ### `LinRead` and `LinWrite` (R62): no segment check, little-endian, addresses modulo 2^32 -/

/-- The byte at a linear address. -/
def linRead8 (s : State) (a : Word) : Byte := s.mem.read a.toNat

/-- `LinRead(a, 2)` -/
def linRead16 (s : State) (a : Word) : Half := half16 (linRead8 s a) (linRead8 s (a + 1))

/-- `LinRead(a, 4)` -/
def linRead32 (s : State) (a : Word) : Word :=
  word32 (linRead8 s a) (linRead8 s (a + 1)) (linRead8 s (a + 2)) (linRead8 s (a + 3))

/-- `LinWrite(a, 1, v)`; every byte stored to is remembered for the fetch (R347, D9). -/
def linWrite8 (s : State) (a : Word) (v : Byte) : State :=
  { s with mem := s.mem.write a.toNat v, stored := insertAddr a.toNat s.stored }

/-- Store bytes at rising linear addresses. -/
def linWriteBytes (s : State) (a : Word) : List Byte → State
  | [] => s
  | b :: t => linWriteBytes (linWrite8 s a b) (a + 1) t

/-- `LinWrite(a, 2, v)` -/
def linWrite16 (s : State) (a : Word) (v : Half) : State := linWriteBytes s a (bytes16 v)

/-- `LinWrite(a, 4, v)` -/
def linWrite32 (s : State) (a : Word) (v : Word) : State := linWriteBytes s a (bytes32 v)

end Sys2Proof.Machine
end

