-- ==== Sys2Proof/Machine/Ops.lean ====
section
/-! DEFINITION. The operations every meaning is written over: raising an exception, the access check, the
stack primitives, reading a descriptor, and loading a segment register. -/

namespace Sys2Proof.Machine

/-! ### Outcomes of an operation -/

/-- How an operation ends without a result (R9). -/
inductive Stop where
  | fault (f : Fault)
  | refused (r : Refusal)
  deriving DecidableEq, Repr

/-- The result of an operation, or a stop. -/
abbrev Res := Except Stop

/-- The three outcomes of a step (R9). -/
def finish : Res State → Host.Outcome State Fault Refusal
  | .ok s => .next s
  | .error (.fault f) => .fault f
  | .error (.refused r) => .refused r

/-- One check of a rule's pseudocode: `if c: raise` or `if c: refuse`. -/
def stopIf (c : Prop) [Decidable c] (e : Stop) : Res Unit := if c then .error e else .ok ()

/-- A value, or a stop where there is none. -/
def orStop {α : Type} (o : Option α) (e : Stop) : Res α :=
  match o with
  | some a => .ok a
  | none => .error e

/-! ### Taking an exception (R300 to R304, R307)

The spec's own description: the run ends with a record of the exception's name and error code, and every
register and byte stays as it was before the instruction. No return from one is described (R310): IRET is
refused (R170). -/

/-- The exceptions of R300 to R303. -/
inductive Exception where
  | gp
  | sf
  | np
  | invalidTss
  deriving DecidableEq, Repr

/-- What an error code is made of (R304, U6). -/
inductive ErrorCode where
  /-- error code 0 -/
  | zero
  /-- a selector -/
  | selector (sel : Half)
  /-- unspecified: the next free value (Table 6-3 row 9) -/
  | unspecified
  deriving DecidableEq, Repr

/-- A selector as an error code (R304, D21). -/
def selectorCode (f : ErrCodeForm) (sel : Half) : Half :=
  match f with
  | .masked => sel &&& 0xFFFC
  | .unmasked => sel

/-- The 16-bit error code recorded (R304). -/
def errorCode (s : State) : ErrorCode → Half
  | .zero => 0
  | .selector sel => selectorCode s.params.errCodeForm sel
  | .unspecified => Config.drawHalf s.draws

/-- The fault record of an exception with an error code (R304). -/
def faultRecord (x : Exception) (code : Half) : Fault :=
  match x with
  | .gp => .gp code
  | .sf => .sf code
  | .np => .np code
  | .invalidTss => .invalidTss code

/-- `raise GP(e)`, `raise SF(e)`, `raise NP(e)`, `raise InvalidTSS(e)` (R8, R307). -/
def raise (s : State) (x : Exception) (c : ErrorCode) : Stop := .fault (faultRecord x (errorCode s c))

/-- The vector number of an exception, for the reader only: nothing dispatches through it (R305, D22). -/
def Exception.vector : Exception → Nat
  | .invalidTss => 10
  | .np => 11
  | .sf => 12
  | .gp => 13

/-! ### Registers -/

/-- A general register at 32 bits: `r32[i]` (R8, R27). -/
def Regs.get (g : Regs) : Reg → Word
  | .eax => g.eax
  | .ecx => g.ecx
  | .edx => g.edx
  | .ebx => g.ebx
  | .esp => g.esp
  | .ebp => g.ebp
  | .esi => g.esi
  | .edi => g.edi

/-- `r32[i] <- v` (R8, R27) -/
def Regs.set (g : Regs) (r : Reg) (v : Word) : Regs :=
  match r with
  | .eax => { g with eax := v }
  | .ecx => { g with ecx := v }
  | .edx => { g with edx := v }
  | .ebx => { g with ebx := v }
  | .esp => { g with esp := v }
  | .ebp => { g with ebp := v }
  | .esi => { g with esi := v }
  | .edi => { g with edi := v }

/-- The contents of a segment register (R20). -/
def Segs.get (g : Segs) : SReg → SegReg
  | .es => g.es
  | .cs => g.cs
  | .ss => g.ss
  | .ds => g.ds
  | .fs => g.fs
  | .gs => g.gs

/-- Replace the contents of a segment register (R20). -/
def Segs.set (g : Segs) (r : SReg) (v : SegReg) : Segs :=
  match r with
  | .es => { g with es := v }
  | .cs => { g with cs := v }
  | .ss => { g with ss := v }
  | .ds => { g with ds := v }
  | .fs => { g with fs := v }
  | .gs => { g with gs := v }

/-- Write a general register. -/
def setReg (s : State) (r : Reg) (v : Word) : State := { s with regs := s.regs.set r v }

/-- Write ESP (R25). -/
def setEsp (s : State) (v : Word) : State := { s with regs := { s.regs with esp := v } }

/-- Write EIP (R24). -/
def setEip (s : State) (v : Word) : State := { s with eip := v }

/-- Write a segment register. -/
def setSeg (s : State) (r : SReg) (v : SegReg) : State := { s with segs := s.segs.set r v }

/-- `EIP + length`: the offset of the instruction after this one (R24, D28). -/
def nextEip (s : State) (i : Instr) : Word := s.eip + BitVec.ofNat 32 i.length

/-- `EIP <- EIP + length` (R24, D28). -/
def advance (i : Instr) (s : State) : State := setEip s (nextEip s i)

/-- Use up one free value (R8). -/
def countDraw (s : State) : State := { s with draws := s.draws + 1 }

/-! ### The access check (R70) -/

/-- The kind of an access (R70). -/
inductive Access where
  | read
  | write
  deriving DecidableEq, Repr

/-- The exception of a limit violation through a segment register (R72, conflict C5). -/
def limitException : SReg → Exception
  | .ss => .sf
  | .es | .cs | .ds | .fs | .gs => .gp

/-- A segment register's own limit predicate. -/
def SegReg.inLimit (g : SegReg) (off : Word) (n : Nat) : Bool := Machine.inLimit g.attr g.limit off n

/-- `SegCheck(SREG, off, n, k)` (R70) -/
def segCheck (s : State) (r : SReg) (off : Word) (n : Nat) (k : Access) : Res Unit := do
  let g := s.segs.get r
  stopIf (g.attr.valid = false) (raise s .gp .zero)
  stopIf (k = .write ∧ g.attr.writable = false) (raise s .gp .zero)
  stopIf (k = .read ∧ g.attr.executable = true ∧ g.attr.readableCode = false) (raise s .gp .zero)
  stopIf (g.inLimit off n = false) (raise s (limitException r) .zero)

/-- The linear address of an offset in a segment (R61). -/
def linear (s : State) (r : SReg) (off : Word) : Word := (s.segs.get r).base + off

/-- `MemRead(SREG, off, 2)` (R70) -/
def memRead16 (s : State) (r : SReg) (off : Word) : Res Half := do
  segCheck s r off 2 .read
  .ok (linRead16 s (linear s r off))

/-- `MemRead(SREG, off, 4)` (R70) -/
def memRead32 (s : State) (r : SReg) (off : Word) : Res Word := do
  segCheck s r off 4 .read
  .ok (linRead32 s (linear s r off))

/-! ### Stack primitives (R78, R79) -/

/-- The store and the ESP update of `Push32`, after its checks (R78). -/
def storePush (s : State) (v : Word) : State :=
  setEsp (linWrite32 s (linear s .ss (s.regs.esp - 4)) v) (s.regs.esp - 4)

/-- A push of a selector as a doubleword whose high half is a free value (D15, U7). -/
def storePushSel (s : State) (sel : Half) : State :=
  storePush (countDraw s) (Config.drawHalf s.draws ++ sel)

/-- The checks of a push of `n` bytes: B = 1 (D5) and room below ESP (R78). -/
def pushCheck (s : State) (n : Nat) : Res Unit := do
  stopIf (s.segs.ss.attr.db = false) (.refused .stackSegment16)
  segCheck s .ss (s.regs.esp - BitVec.ofNat 32 n) n .write

/-- `Push32(v)` (R78) -/
def push32 (s : State) (v : Word) : Res State := do
  pushCheck s 4
  .ok (storePush s v)

/-- `Pop32()` (R79) -/
def pop32 (s : State) : Res (Word × State) := do
  let v ← memRead32 s .ss s.regs.esp
  .ok (v, setEsp s (s.regs.esp + 4))

/-! ### Descriptor tables (R73, R74) -/

/-- The linear address of the descriptor a selector names (R62, R73). -/
def descriptorAddr (s : State) (sel : Half) : Word :=
  (if selTi sel then s.ldtr.base else s.gdtr.base) + (selIndex sel).setWidth 32 * 8

/-- All eight bytes of the descriptor lie within the table's limit, and the table is there (R73, R74, D6). -/
def inTable (s : State) (sel : Half) : Bool :=
  if selTi sel then s.ldtr.valid && decide ((selIndex sel).toNat * 8 + 7 ≤ s.ldtr.limit.toNat)
  else decide ((selIndex sel).toNat * 8 + 7 ≤ s.gdtr.limit.toNat)

/-- The descriptor at a linear address. -/
def descriptorAt (s : State) (a : Word) : Descriptor :=
  { dword0 := linRead32 s a, dword1 := linRead32 s (a + 4) }

/-- `ReadDescriptor(sel)`; `none` is `OutOfTable` (R73). -/
def readDescriptor (s : State) (sel : Half) : Option Descriptor :=
  if inTable s sel then some (descriptorAt s (descriptorAddr s sel)) else none

/-- The accessed-bit update of a load (R122 (c), R133, D14). -/
def setAccessed (s : State) (sel : Half) (d : Descriptor) : State :=
  if s.params.setsAccessed = true ∧ d.attr.accessed = false then
    linWrite8 s (descriptorAddr s sel + 5) (d.accessByte ||| 1)
  else s

/-! ### Loads of segment registers -/

/-- Load a register from a descriptor that has passed its checks (R122, R123). -/
def commitSeg (s : State) (r : SReg) (sel : Half) (d : Descriptor) : State :=
  setSeg (setAccessed s sel d) r (d.segReg sel)

/-- The checks of `LoadDataSeg`: DS, ES, FS or GS with a non-null selector (R121, R122). -/
def dataSegChecks (s : State) (sel : Half) : Res Descriptor := do
  let d ← orStop (readDescriptor s sel) (raise s .gp (.selector sel))
  stopIf (d.attr.s = false) (raise s .gp (.selector sel))
  stopIf (d.attr.executable = true ∧ d.attr.readableCode = false) (raise s .gp (.selector sel))
  stopIf (d.attr.conforming = false ∧ d.attr.dpl < maxLevel s.cpl (selRpl sel))
    (raise s .gp (.selector sel))
  stopIf (d.attr.p = false) (raise s .np (.selector sel))
  .ok d

/-- `LoadDataSeg(SREG, sel)` (R122) -/
def loadDataSeg (s : State) (r : SReg) (sel : Half) : Res State := do
  let d ← dataSegChecks s sel
  .ok (commitSeg s r sel d)

/-- A segment register that holds a null selector: unusable (R22, R124). -/
def SegReg.nulled (g : SegReg) (sel : Half) : SegReg :=
  { g with sel := sel, attr := { g.attr with valid := false } }

/-- Load of DS, ES, FS or GS with a null selector (R124). -/
def loadNull (s : State) (r : SReg) (sel : Half) : State := setSeg s r ((s.segs.get r).nulled sel)

/-- The checks of `LoadSS` (R123) -/
def ssChecks (s : State) (sel : Half) : Res Descriptor := do
  stopIf (isNull sel = true) (raise s .gp (.selector sel))
  let d ← orStop (readDescriptor s sel) (raise s .gp (.selector sel))
  stopIf (selRpl sel ≠ s.cpl) (raise s .gp (.selector sel))
  stopIf (d.attr.writable = false) (raise s .gp (.selector sel))
  stopIf (d.attr.dpl ≠ s.cpl) (raise s .gp (.selector sel))
  stopIf (d.attr.p = false) (raise s .sf (.selector sel))
  stopIf (d.attr.db = false) (.refused .stackSegment16)
  .ok d

/-- `LoadSS(sel)` (R123) -/
def loadSs (s : State) (sel : Half) : Res State := do
  let d ← ssChecks s sel
  .ok (commitSeg s .ss sel d)

/-- Load a data-segment register, null selector or not (R122, R124). -/
def loadData (s : State) (r : SReg) (sel : Half) : Res State :=
  if isNull sel then .ok (loadNull s r sel) else loadDataSeg s r sel

/-- Load a segment register as R129 does: MOV to CS is refused. -/
def loadSreg (s : State) (r : SReg) (sel : Half) : Res State :=
  match r with
  | .cs => .error (.refused .movToCs)
  | .ss => loadSs s sel
  | .es | .ds | .fs | .gs => loadData s r sel

/-- `LoadCS(sel, d, p)` (R36, R166) -/
def loadCs (s : State) (sel : Half) (d : Descriptor) (p : Level) : State :=
  { commitSeg s .cs (withRpl sel p) d with cpl := p }

end Sys2Proof.Machine
end

