-- ==== Sys2Proof/Machine/Operands.lean ====
section
/-! DEFINITION. Every operand form: registers at 32 and 16 bits, effective addresses, `r/m` operands, far
pointers, immediates (`30_encoding.md` R93 to R95; `10_state.md` R27). -/

namespace Sys2Proof.Machine

/-- `r32[i]` (R27) -/
def readReg32 (s : State) (r : Reg) : Word := s.regs.get r

/-- `r16[i]`: the low half of the register (R27). -/
def readReg16 (s : State) (r : Reg) : Half := (s.regs.get r).extractLsb' 0 16

/-- `r16[i] <- v`: the upper 16 bits stay (R27). -/
def writeReg16 (s : State) (r : Reg) (v : Half) : State :=
  setReg s r ((s.regs.get r).extractLsb' 16 16 ++ v)

/-- A displacement as a 32-bit summand (R93). -/
def dispValue : Disp → Word
  | .none => 0
  | .d8 d => d.signExtend 32
  | .d32 d => d

/-- How far an index register is shifted (R94). -/
def scaleShift : Scale → Nat
  | .x1 => 0
  | .x2 => 1
  | .x4 => 2
  | .x8 => 3

/-- The index part of an offset (R94). -/
def indexValue (s : State) (x : Index) : Word :=
  match x.reg with
  | some r => s.regs.get r <<< scaleShift x.scale
  | none => 0

/-- The 32-bit offset of a memory operand, modulo 2^32 (R93, R94). -/
def effectiveAddr (s : State) : Addr → Word
  | .base b d => s.regs.get b + dispValue d
  | .abs d => d
  | .sib b x d => s.regs.get b + indexValue s x + dispValue d
  | .sibAbs x d => indexValue s x + d

/-- SS when the base register is EBP or ESP (R93). -/
def baseSeg : Reg → SReg
  | .esp | .ebp => .ss
  | .eax | .ecx | .edx | .ebx | .esi | .edi => .ds

/-- The default segment register of a memory operand (R93). -/
def defaultSeg : Addr → SReg
  | .base b _ => baseSeg b
  | .abs _ => .ds
  | .sib b _ _ => baseSeg b
  | .sibAbs _ _ => .ds

/-- The segment register of a memory operand: the override's, else the default (R92, R93). -/
def memSeg (m : Mem) : SReg := m.ovr.getD (defaultSeg m.addr)

/-- The offset of a memory operand. -/
def memOff (s : State) (m : Mem) : Word := effectiveAddr s m.addr

/-- An `r/m16` operand (R95, R278). -/
def readRM16 (s : State) : RM → Res Half
  | .reg r => .ok (readReg16 s r)
  | .mem m => memRead16 s (memSeg m) (memOff s m)

/-- An `r/m32` operand (R95). -/
def readRM32 (s : State) : RM → Res Word
  | .reg r => .ok (readReg32 s r)
  | .mem m => memRead32 s (memSeg m) (memOff s m)

/-- A far pointer: selector and offset (R95). -/
structure FarPtr where
  sel : Half
  off : Word
  deriving DecidableEq, Repr

/-- An `m16:32` operand: the offset at the operand's address, the selector four bytes above (R63, R95,
R131). -/
def readFarPtr (s : State) (m : Mem) : Res FarPtr := do
  let off ← memRead32 s (memSeg m) (memOff s m)
  let sel ← memRead16 s (memSeg m) (memOff s m + 4)
  .ok { sel := sel, off := off }

/-- An `m16&32` operand of LGDT and LIDT: the limit at the operand's address, the base two bytes above
(R254). -/
def readTableOperand (s : State) (m : Mem) : Res TableReg := do
  let limit ← memRead16 s (memSeg m) (memOff s m)
  let base ← memRead32 s (memSeg m) (memOff s m + 2)
  .ok { base := base, limit := limit }

/-- The write check ARPL makes on a memory destination, whether or not it writes (R275). -/
def checkRM16Write (s : State) : RM → Res Unit
  | .reg _ => .ok ()
  | .mem m => segCheck s (memSeg m) (memOff s m) 2 .write

/-- Write an `r/m16` destination that has passed its check (R275). -/
def writeRM16 (s : State) (rm : RM) (v : Half) : State :=
  match rm with
  | .reg r => writeReg16 s r v
  | .mem m => linWrite16 s (linear s (memSeg m) (memOff s m)) v

/-- The target of a relative transfer: `(EIP + length + rel) mod 2^32` (R95, R161). -/
def relTarget (s : State) (i : Instr) (rel : Word) : Word := nextEip s i + rel

/-- `N = zext_32(imm16)` of RET N (R95, R221). -/
def releaseBytes (n : Half) : Word := n.setWidth 32

end Sys2Proof.Machine
end

