-- ==== Sys2Proof/Machine/FarTransfer.lean ====
section
/-! DEFINITION. Far JMP and CALL: direct (`41_control_transfer.md` R163 to R172) and through a call gate
with the stack switch (`42_call_gates.md` R190 to R204). -/

namespace Sys2Proof.Machine

/-- Which far transfer it is (R163). -/
inductive FarKind where
  | jmp
  | call
  deriving DecidableEq, Repr

/-! ### Checks -/

/-- `DirectOK(d)` (R164) -/
def directOk (cpl : Level) (a : SegAttr) : Bool := a.dpl == cpl || (a.conforming && decide (a.dpl ≤ cpl))

/-- `RplOK(sel, d)` (R172, D24) -/
def rplOk (cpl : Level) (sel : Half) (a : SegAttr) : Bool := a.conforming || decide (selRpl sel ≤ cpl)

/-- `GateOK(sel, g)` (R192) -/
def gateOk (cpl : Level) (sel : Half) (g : SegAttr) : Bool := decide (maxLevel cpl (selRpl sel) ≤ g.dpl)

/-- `TargetOK(kind, t)` (R192) -/
def targetOk (cpl : Level) (k : FarKind) (t : SegAttr) : Bool :=
  if k = .jmp ∧ t.conforming = false then t.dpl == cpl else decide (t.dpl ≤ cpl)

/-- The checks of a direct far transfer before the stack is looked at (R165, R167). -/
def directChecks (s : State) (sel : Half) (d : Descriptor) : Res Unit := do
  stopIf (directOk s.cpl d.attr = false ∨ rplOk s.cpl sel d.attr = false) (raise s .gp (.selector sel))
  stopIf (d.attr.p = false) (raise s .np (.selector sel))
  stopIf (d.attr.db = false) (.refused .codeSegment16)

/-- The limit check of a far destination (R165, R167, R193, R222, R225). -/
def farTargetCheck (s : State) (d : Descriptor) (off : Word) : Res Unit :=
  stopIf (d.effLimit < off) (raise s .gp .zero)

/-- A gate's target: the selector in the gate and its descriptor (R193). -/
structure GateTarget where
  sel : Half
  desc : Descriptor
  deriving DecidableEq, Repr

/-- `GateChecks(kind, sel, g)` (R192, R193) -/
def gateChecks (s : State) (k : FarKind) (sel : Half) (g : Descriptor) : Res GateTarget := do
  stopIf (gateOk s.cpl sel g.attr = false) (raise s .gp (.selector sel))
  stopIf (g.attr.p = false) (raise s .np (.selector sel))
  let ts := g.gateSelector
  stopIf (isNull ts = true) (raise s .gp .zero)
  let t ← orStop (readDescriptor s ts) (raise s .gp (.selector ts))
  stopIf (t.attr.executable = false) (raise s .gp (.selector ts))
  stopIf (targetOk s.cpl k t.attr = false) (raise s .gp (.selector ts))
  stopIf (t.attr.p = false) (raise s .np (.selector ts))
  stopIf (t.attr.db = false) (.refused .codeSegment16)
  farTargetCheck s t g.gateOffset
  .ok { sel := ts, desc := t }

/-! ### Transfers at the same level -/

/-- Load CS at the present CPL and set EIP (R166). -/
def enterCode (s : State) (sel : Half) (d : Descriptor) (off : Word) : State :=
  setEip (loadCs s sel d s.cpl) off

/-- Push CS and the return offset (R165, R195). -/
def storeReturn (s : State) (ret : Word) : State := storePush (storePushSel s s.segs.cs.sel) ret

/-- JMP far, direct (R167). -/
def farJumpDirect (s : State) (sel : Half) (off : Word) (d : Descriptor) : Res State := do
  directChecks s sel d
  farTargetCheck s d off
  .ok (enterCode s sel d off)

/-- CALL far, direct (R165). -/
def farCallDirect (s : State) (sel : Half) (off ret : Word) (d : Descriptor) : Res State := do
  directChecks s sel d
  pushCheck s 8
  farTargetCheck s d off
  .ok (enterCode (storeReturn s ret) sel d off)

/-- JMP far through a call gate (R194); the instruction's own offset is not used (R191). -/
def farJumpGate (s : State) (sel : Half) (g : Descriptor) : Res State := do
  let t ← gateChecks s .jmp sel g
  .ok (enterCode s t.sel t.desc g.gateOffset)

/-- CALL far through a call gate to the same level (R195). -/
def farCallGateSame (s : State) (g : Descriptor) (ret : Word) (t : GateTarget) : Res State := do
  pushCheck s 8
  .ok (enterCode (storeReturn s ret) t.sel t.desc g.gateOffset)

/-! ### The stack switch of an interlevel CALL -/

/-- A new stack: its selector, initial ESP and descriptor (R198). -/
structure StackPtr where
  sel : Half
  esp : Word
  desc : Descriptor
  deriving DecidableEq, Repr

/-- The linear address of ESPp in the current TSS; SSp is four bytes above (R33). -/
def tssStackAddr (s : State) (p : Level) : Word := s.tr.base + 4 + 8 * p.setWidth 32

/-- The current TSS is an 80286 one (D5). -/
def isTss286 (t : BitVec 4) : Bool :=
  match sysType t with
  | .availableTss286 | .busyTss286 => true
  | .reserved | .ldt | .callGate286 | .taskGate | .interruptGate286 | .trapGate286 | .availableTss386
  | .busyTss386 | .callGate386 | .interruptGate386 | .trapGate386 => false

/-- `NewStack(p)` (R198, D23) -/
def newStack (s : State) (p : Level) : Res StackPtr := do
  stopIf (isTss286 s.tr.typ = true) (.refused .tss286)
  stopIf (s.tr.limit.toNat < 8 * p.toNat + 11) (raise s .invalidTss (.selector s.tr.sel))
  let nesp := linRead32 s (tssStackAddr s p)
  let nss := linRead16 s (tssStackAddr s p + 4)
  stopIf (isNull nss = true) (raise s .invalidTss (.selector nss))
  let sd ← orStop (readDescriptor s nss) (raise s .invalidTss (.selector nss))
  stopIf (selRpl nss ≠ p) (raise s .invalidTss (.selector nss))
  stopIf (sd.attr.dpl ≠ p) (raise s .sf (.selector nss))
  stopIf (sd.attr.writable = false) (raise s .invalidTss (.selector nss))
  stopIf (sd.attr.p = false) (raise s .sf (.selector nss))
  stopIf (sd.attr.db = false) (.refused .stackSegment16)
  .ok { sel := nss, esp := nesp, desc := sd }

/-- The parameters on the caller's stack from index `i`, `n` of them, read through the old SS (R197, R200). -/
def readParams (s : State) (i : Nat) : Nat → Res (List Word)
  | 0 => .ok []
  | n + 1 => do
    let v ← memRead32 s .ss (s.regs.esp + BitVec.ofNat 32 (4 * i))
    let t ← readParams s (i + 1) n
    .ok (v :: t)

/-- Push doublewords, the last of the list first, so that the first lies lowest (R197 step 3). -/
def storeParams (s : State) (l : List Word) : State := l.foldr (fun v t => storePush t v) s

/-- The room an interlevel CALL needs on the new stack (R203, D29). -/
def switchBytes (count : Nat) : Nat := 16 + 4 * count

/-- Steps 2 to 4 of R197 after every check: switch to the new stack and code segment, then push the old
SS:ESP, the parameters and the return pointer. -/
def commitSwitch (s : State) (ns : StackPtr) (t : GateTarget) (params : List Word) (ret off : Word) : State :=
  let s1 := setEsp (commitSeg s .ss ns.sel ns.desc) ns.esp
  let s2 := loadCs s1 t.sel t.desc t.desc.attr.dpl
  let s3 := storePush (storePushSel s2 s.segs.ss.sel) s.regs.esp
  let s4 := storeParams s3 params
  setEip (storePush (storePushSel s4 s.segs.cs.sel) ret) off

/-- CALL far through a call gate to a more privileged level (R197). -/
def farCallGateInter (s : State) (g : Descriptor) (ret : Word) (t : GateTarget) : Res State := do
  let ns ← newStack s t.desc.attr.dpl
  let need := switchBytes g.gateCount.toNat
  stopIf (inLimit ns.desc.attr ns.desc.effLimit (ns.esp - BitVec.ofNat 32 need) need = false)
    (raise s .sf .zero)
  let params ← readParams s 0 g.gateCount.toNat
  .ok (commitSwitch s ns t params ret g.gateOffset)

/-- A gated CALL is interlevel iff its target is nonconforming and more privileged (R196, conflict C6). -/
def isInterlevel (cpl : Level) (t : SegAttr) : Bool := !t.conforming && decide (t.dpl < cpl)

/-- CALL far through a call gate (R195 to R197). -/
def farCallGate (s : State) (sel : Half) (ret : Word) (g : Descriptor) : Res State := do
  let t ← gateChecks s .call sel g
  if isInterlevel s.cpl t.desc.attr then farCallGateInter s g ret t else farCallGateSame s g ret t

/-! ### Dispatch (R163) -/

/-- A far transfer whose selector names an executable segment (R165, R167). -/
def farDirect (s : State) (k : FarKind) (sel : Half) (off ret : Word) (d : Descriptor) : Res State :=
  match k with
  | .jmp => farJumpDirect s sel off d
  | .call => farCallDirect s sel off ret d

/-- A far transfer whose selector names a 386 call gate (R191). -/
def farGate (s : State) (k : FarKind) (sel : Half) (ret : Word) (g : Descriptor) : Res State :=
  match k with
  | .jmp => farJumpGate s sel g
  | .call => farCallGate s sel ret g

/-- A far transfer whose selector names a descriptor with S = 0 (R163, R169, R202). -/
def farSystem (s : State) (k : FarKind) (sel : Half) (ret : Word) (d : Descriptor) : Res State :=
  match d.sysType with
  | .callGate386 => farGate s k sel ret d
  | .availableTss286 | .busyTss286 | .taskGate | .availableTss386 | .busyTss386 =>
    .error (.refused .taskSwitch)
  | .callGate286 => .error (.refused .callGate286)
  | .reserved | .ldt | .interruptGate286 | .trapGate286 | .interruptGate386 | .trapGate386 =>
    .error (raise s .gp (.selector sel))

/-- `FarTransfer(kind, sel, off)` with the return offset `ret` (R163). -/
def farTransfer (s : State) (k : FarKind) (p : FarPtr) (ret : Word) : Res State := do
  stopIf (isNull p.sel = true) (raise s .gp .zero)
  let d ← orStop (readDescriptor s p.sel) (raise s .gp (.selector p.sel))
  if d.attr.executable then farDirect s k p.sel p.off ret d
  else if d.attr.data then .error (raise s .gp (.selector p.sel))
  else farSystem s k p.sel ret d

/-! ### The instructions -/

/-- JMP ptr16:32 (R163, R167, R194) -/
def execJmpPtr (off : Word) (sel : Half) (s : State) : Host.Outcome State Fault Refusal :=
  finish (farTransfer s .jmp { sel := sel, off := off } (nextEip s (.jmpPtr off sel)))

/-- JMP m16:32 (R163, R167, R194) -/
def execJmpMem (m : Mem) (s : State) : Host.Outcome State Fault Refusal :=
  finish (do
    let p ← readFarPtr s m
    farTransfer s .jmp p (nextEip s (.jmpMem m)))

/-- CALL ptr16:32 (R163, R165, R195, R197) -/
def execCallPtr (off : Word) (sel : Half) (s : State) : Host.Outcome State Fault Refusal :=
  finish (farTransfer s .call { sel := sel, off := off } (nextEip s (.callPtr off sel)))

/-- CALL m16:32 (R163, R165, R195, R197) -/
def execCallMem (m : Mem) (s : State) : Host.Outcome State Fault Refusal :=
  finish (do
    let p ← readFarPtr s m
    farTransfer s .call p (nextEip s (.callMem m)))

end Sys2Proof.Machine
end

