-- ==== Sys2Proof/Machine/FarReturn.lean ====
section
/-! DEFINITION. Far RET (`43_return.md` R222 to R230, Table 6-3). -/

namespace Sys2Proof.Machine

/-- The return pointer popped: the selector in the low half of its doubleword, and the offset (R223). -/
def readReturnPtr (s : State) : Res FarPtr := do
  segCheck s .ss s.regs.esp 8 .read
  .ok { sel := (linRead32 s (linear s .ss s.regs.esp + 4)).extractLsb' 0 16
        off := linRead32 s (linear s .ss s.regs.esp) }

/-- Rows 4 to 8 of Table 6-3, the checks on the return CS at level `rsel.RPL` (R222, R225). -/
def returnCsChecks (s : State) (rsel : Half) : Res Descriptor := do
  stopIf (isNull rsel = true) (raise s .gp (.selector rsel))
  let d ← orStop (readDescriptor s rsel) (raise s .gp (.selector rsel))
  stopIf (d.attr.executable = false) (raise s .gp (.selector rsel))
  stopIf (d.attr.p = false) (raise s .np (.selector rsel))
  stopIf (d.attr.conforming = false ∧ d.attr.dpl ≠ selRpl rsel) (raise s .gp (.selector rsel))
  stopIf (d.attr.conforming = true ∧ selRpl rsel < d.attr.dpl) (raise s .gp (.selector rsel))
  .ok d

/-- Far RET to the same privilege level (R222). -/
def farReturnSame (s : State) (r : FarPtr) (n : Word) : Res State := do
  let d ← returnCsChecks s r.sel
  stopIf (d.attr.db = false) (.refused .codeSegment16)
  farTargetCheck s d r.off
  .ok (setEip (setEsp (loadCs s r.sel d s.cpl) (s.regs.esp + 8 + n)) r.off)

/-- The saved SS:ESP, found `n` bytes above the return pointer (R225 row 9). -/
def readSavedStack (s : State) (n : Word) : Res FarPtr := do
  stopIf (s.segs.ss.inLimit (s.regs.esp + n + 8) 8 = false) (raise s .sf .unspecified)
  .ok { sel := (linRead32 s (linear s .ss (s.regs.esp + n + 12))).extractLsb' 0 16
        off := linRead32 s (linear s .ss (s.regs.esp + n + 8)) }

/-- Rows 10 to 15 of Table 6-3, the checks on the return SS for the new level `p` (R225). -/
def returnSsChecks (s : State) (rss : Half) (p : Level) : Res Descriptor := do
  stopIf (isNull rss = true) (raise s .gp (.selector rss))
  let sd ← orStop (readDescriptor s rss) (raise s .gp (.selector rss))
  stopIf (sd.attr.writable = false) (raise s .gp (.selector rss))
  stopIf (sd.attr.p = false) (raise s .sf (.selector rss))
  stopIf (sd.attr.dpl ≠ p) (raise s .gp (.selector rss))
  stopIf (selRpl rss ≠ sd.attr.dpl) (raise s .gp (.selector rss))
  .ok sd

/-- Step 3 of an interlevel return for one register: it is nulled when it holds a segment more privileged
than the new CPL that is not conforming code (R227, D13, conflict C3). -/
def clearIfPrivileged (cpl : Level) (g : SegReg) : SegReg :=
  if g.attr.valid = true ∧ g.attr.conforming = false ∧ g.attr.dpl < cpl then g.nulled 0 else g

/-- Step 3 of an interlevel return: DS, ES, FS and GS (R227). -/
def clearDataSegs (s : State) : State :=
  { s with
    segs :=
      { s.segs with
        ds := clearIfPrivileged s.cpl s.segs.ds
        es := clearIfPrivileged s.cpl s.segs.es
        fs := clearIfPrivileged s.cpl s.segs.fs
        gs := clearIfPrivileged s.cpl s.segs.gs } }

/-- The loads of an interlevel return, then its step 3 (R226, R227). -/
def commitReturn (s : State) (r st : FarPtr) (d sd : Descriptor) (n : Word) : State :=
  let s1 := setEip (loadCs s r.sel d (selRpl r.sel)) r.off
  let s2 := setEsp (commitSeg s1 .ss st.sel sd) (st.off + n)
  clearDataSegs s2

/-- Far RET to a less privileged level (R225 to R227). -/
def farReturnInter (s : State) (r : FarPtr) (n : Word) : Res State := do
  let d ← returnCsChecks s r.sel
  let st ← readSavedStack s n
  let sd ← returnSsChecks s st.sel (selRpl r.sel)
  stopIf (d.attr.db = false) (.refused .codeSegment16)
  stopIf (sd.attr.db = false) (.refused .stackSegment16)
  farTargetCheck s d r.off
  .ok (commitReturn s r st d sd n)

/-- Far RET releasing `n` bytes (R223). -/
def farReturn (s : State) (n : Word) : Res State := do
  let r ← readReturnPtr s
  stopIf (selRpl r.sel < s.cpl) (raise s .gp (.selector r.sel))
  if selRpl r.sel = s.cpl then farReturnSame s r n else farReturnInter s r n

/-- RETF (R223) -/
def execRetf (s : State) : Host.Outcome State Fault Refusal := finish (farReturn s 0)

/-- RETF imm16 (R223) -/
def execRetfImm (n : Half) (s : State) : Host.Outcome State Fault Refusal :=
  finish (farReturn s (releaseBytes n))

end Sys2Proof.Machine
end

