-- ==== Sys2Proof/Machine/Interrupt.lean ====
section
/-! DEFINITION. INT 3, INT n, INTO and IRET: named by the sources, deferred to Chapter 9, refused by name
(`41_control_transfer.md` R170; `00_scope.md` R4; log entry 8). -/

namespace Sys2Proof.Machine

/-- A transfer of Chapter 9: no rule gives it any effect (R170, R306). -/
def interruptStop : Res State := .error (.refused .interruptTransfer)

/-- INT 3 (R170) -/
def execInt3 (_s : State) : Host.Outcome State Fault Refusal := finish interruptStop

/-- INT imm8 (R170) -/
def execIntImm (_n : Byte) (_s : State) : Host.Outcome State Fault Refusal := finish interruptStop

/-- INTO (R170) -/
def execInto (_s : State) : Host.Outcome State Fault Refusal := finish interruptStop

/-- IRET (R170) -/
def execIret (_s : State) : Host.Outcome State Fault Refusal := finish interruptStop

end Sys2Proof.Machine
end

