-- ==== Sys2Proof/Machine/NearTransfer.lean ====
section
/-! DEFINITION. Near JMP, CALL and RET (`41_control_transfer.md` R161, R162; `43_return.md` R220, R221). -/

namespace Sys2Proof.Machine

/-- The limit check of a near destination: a target equal to the limit passes (R80, R161). -/
def nearTargetCheck (s : State) (t : Word) : Res Unit :=
  stopIf (s.segs.cs.limit < t) (raise s .gp .zero)

/-- JMP near to a target (R161). -/
def nearJump (s : State) (t : Word) : Res State := do
  nearTargetCheck s t
  .ok (setEip s t)

/-- CALL near to a target with a return offset (R162). -/
def nearCall (s : State) (t ret : Word) : Res State := do
  segCheck s .ss (s.regs.esp - 4) 4 .write
  nearTargetCheck s t
  let s' ← push32 s ret
  .ok (setEip s' t)

/-- RET near, releasing `n` bytes above the return offset (R220, R221). -/
def nearReturn (s : State) (n : Word) : Res State := do
  let t ← memRead32 s .ss s.regs.esp
  nearTargetCheck s t
  .ok (setEip (setEsp s (s.regs.esp + 4 + n)) t)

/-- JMP rel8 (R161) -/
def execJmpRel8 (rel : Byte) (s : State) : Host.Outcome State Fault Refusal :=
  finish (nearJump s (relTarget s (.jmpRel8 rel) (rel.signExtend 32)))

/-- JMP rel32 (R161) -/
def execJmpRel32 (rel : Word) (s : State) : Host.Outcome State Fault Refusal :=
  finish (nearJump s (relTarget s (.jmpRel32 rel) rel))

/-- JMP r/m32 (R161) -/
def execJmpRm32 (rm : RM) (s : State) : Host.Outcome State Fault Refusal :=
  finish (do
    let t ← readRM32 s rm
    nearJump s t)

/-- CALL rel32 (R162) -/
def execCallRel32 (rel : Word) (s : State) : Host.Outcome State Fault Refusal :=
  finish (nearCall s (relTarget s (.callRel32 rel) rel) (nextEip s (.callRel32 rel)))

/-- CALL r/m32 (R162): the operand is read before the push. -/
def execCallRm32 (rm : RM) (s : State) : Host.Outcome State Fault Refusal :=
  finish (do
    let t ← readRM32 s rm
    nearCall s t (nextEip s (.callRm32 rm)))

/-- RET (R220) -/
def execRet (s : State) : Host.Outcome State Fault Refusal := finish (nearReturn s 0)

/-- RET imm16 (R221) -/
def execRetImm (n : Half) (s : State) : Host.Outcome State Fault Refusal :=
  finish (nearReturn s (releaseBytes n))

end Sys2Proof.Machine
end

