-- ==== Sys2Proof/Machine/Privileged.lean ====
section
/-! DEFINITION. The privileged instructions (`44_privileged.md` R250 to R261). The check at CPL != 0 is the
sources'; the effects at CPL 0 are what R252, R254 and R256 to R258 add from general knowledge, and for R255 and R259
to R261, which add none, what the instruction's name says (PRESUMED, log entry 4). -/

namespace Sys2Proof.Machine

/-- `PrivCheck()` (R251) -/
def privCheck (s : State) : Res Unit := stopIf (s.cpl ≠ 0) (raise s .gp .zero)

/-- A privileged instruction with an effect: `PrivCheck()` comes before any operand is read, then the
parameter chooses between the effect and decision D20's refusal (R251, log entry 4). -/
def privileged (s : State) (effect : Res State) : Res State := do
  privCheck s
  stopIf (s.params.privilegedAtZero = .refused) (.refused .privilegedEffect)
  effect

/-! ### Control, debug and test registers (R34) -/

/-- PE, CR0 bit 0 (R34): protected mode. -/
def peBit (cr0 : Word) : Bool := cr0.getLsbD 0

/-- PG, CR0 bit 31 (R34): paging. -/
def pgBit (cr0 : Word) : Bool := cr0.getLsbD 31

/-- CR0 with TS, bit 3, cleared (R34, R252). -/
def clearTs (cr0 : Word) : Word := cr0 &&& 0xFFFFFFF7

/-- CR0 after LMSW: the low four bits are loaded, and PE cannot be cleared (R257). -/
def loadMsw (cr0 : Word) (msw : Half) : Word :=
  (cr0 &&& 0xFFFFFFF1) ||| (msw.setWidth 32 &&& 0xF)

/-- CRn, for the numbers R34 names. -/
def readCr (g : SysRegs) (n : BitVec 3) : Option Word :=
  match n.toNat with
  | 0 => some g.cr0
  | 2 => some g.cr2
  | 3 => some g.cr3
  | _ => none

/-- `CRn <- v`, for the numbers R34 names. -/
def writeCr (g : SysRegs) (n : BitVec 3) (v : Word) : Option SysRegs :=
  match n.toNat with
  | 0 => some { g with cr0 := v }
  | 2 => some { g with cr2 := v }
  | 3 => some { g with cr3 := v }
  | _ => none

/-- DRn, for the numbers R34 names. -/
def readDr (g : SysRegs) (n : BitVec 3) : Option Word :=
  match n.toNat with
  | 0 => some g.dr0
  | 1 => some g.dr1
  | 2 => some g.dr2
  | 3 => some g.dr3
  | 6 => some g.dr6
  | 7 => some g.dr7
  | _ => none

/-- `DRn <- v`, for the numbers R34 names. -/
def writeDr (g : SysRegs) (n : BitVec 3) (v : Word) : Option SysRegs :=
  match n.toNat with
  | 0 => some { g with dr0 := v }
  | 1 => some { g with dr1 := v }
  | 2 => some { g with dr2 := v }
  | 3 => some { g with dr3 := v }
  | 6 => some { g with dr6 := v }
  | 7 => some { g with dr7 := v }
  | _ => none

/-- TRn, for the numbers R34 names. -/
def readTr (g : SysRegs) (n : BitVec 3) : Option Word :=
  match n.toNat with
  | 6 => some g.tr6
  | 7 => some g.tr7
  | _ => none

/-- `TRn <- v`, for the numbers R34 names. -/
def writeTr (g : SysRegs) (n : BitVec 3) (v : Word) : Option SysRegs :=
  match n.toNat with
  | 6 => some { g with tr6 := v }
  | 7 => some { g with tr7 := v }
  | _ => none

/-- A value read from a system register goes to a general register; a number no register has is refused
(R34). -/
def movFromSys (s : State) (v : Option Word) (n : BitVec 3) (dst : Reg) (i : Instr) : Res State :=
  privileged s (do
    let x ← orStop v (.refused (.noSuchRegister n))
    .ok (advance i (setReg s dst x)))

/-- The system registers after a write; a number no register has is refused (R34). -/
def movToSys (s : State) (g : Option SysRegs) (n : BitVec 3) (i : Instr) : Res State :=
  privileged s (do
    let x ← orStop g (.refused (.noSuchRegister n))
    stopIf (peBit x.cr0 = false) (.refused .realMode)
    stopIf (pgBit x.cr0 = true) (.refused .paging)
    .ok (advance i { s with sys := x }))

/-! ### Loading LDTR and TR (R256, R258) -/

/-- The checks common to LLDT and LTR on a non-null selector: in the GDT, within its limit, of a type the
instruction takes, present (log entry 4). -/
def systemSegChecks (s : State) (sel : Half) (accepts : SysType → Bool) : Res Descriptor := do
  stopIf (selTi sel = true) (raise s .gp (.selector sel))
  let d ← orStop (readDescriptor s sel) (raise s .gp (.selector sel))
  stopIf (d.attr.s = true ∨ accepts d.sysType = false) (raise s .gp (.selector sel))
  stopIf (d.attr.p = false) (raise s .np (.selector sel))
  .ok d

/-- The type LLDT takes (R256). -/
def SysType.isLdt (t : SysType) : Bool := t == .ldt

/-- The types LTR takes: an available TSS (R258). -/
def SysType.isAvailableTss (t : SysType) : Bool := t == .availableTss286 || t == .availableTss386

/-- The TYPE of a TSS marked busy: bit 1 set (R31, R258). -/
def busyType (t : BitVec 4) : BitVec 4 := t ||| 2

/-- LLDT with a selector (R256): a null selector marks the LDT unusable. -/
def loadLdtr (s : State) (sel : Half) : Res State :=
  if isNull sel then .ok { s with ldtr := { s.ldtr with sel := sel, valid := false } }
  else do
    let d ← systemSegChecks s sel SysType.isLdt
    .ok { s with ldtr := { sel := sel, base := d.base, limit := d.effLimit, valid := true } }

/-- LTR with a selector (R258): the TSS descriptor is marked busy in memory. -/
def loadTr (s : State) (sel : Half) : Res State := do
  stopIf (isNull sel = true) (raise s .gp (.selector sel))
  let d ← systemSegChecks s sel SysType.isAvailableTss
  .ok { linWrite8 s (descriptorAddr s sel + 5) (d.accessByte ||| 2) with
        tr := { sel := sel, base := d.base, limit := d.effLimit, typ := busyType d.attr.typ } }

/-! ### The instructions -/

/-- CLTS (R252) -/
def execClts (s : State) : Host.Outcome State Fault Refusal :=
  finish (privileged s (.ok (advance .clts { s with sys := { s.sys with cr0 := clearTs s.sys.cr0 } })))

/-- HLT (R253): the final state `Halted`, with EIP at the HLT. -/
def execHlt (s : State) : Host.Outcome State Fault Refusal :=
  finish (do
    privCheck s
    .ok { s with halted := true })

/-- LGDT m16&32 (R254) -/
def execLgdt (m : Mem) (s : State) : Host.Outcome State Fault Refusal :=
  finish (privileged s (do
    let t ← readTableOperand s m
    .ok (advance (.lgdt m) { s with gdtr := t })))

/-- LIDT m16&32 (R255) -/
def execLidt (m : Mem) (s : State) : Host.Outcome State Fault Refusal :=
  finish (privileged s (do
    let t ← readTableOperand s m
    .ok (advance (.lidt m) { s with idtr := t })))

/-- LLDT r/m16 (R256) -/
def execLldt (rm : RM) (s : State) : Host.Outcome State Fault Refusal :=
  finish (privileged s (do
    let sel ← readRM16 s rm
    let s' ← loadLdtr s sel
    .ok (advance (.lldt rm) s')))

/-- LMSW r/m16 (R257) -/
def execLmsw (rm : RM) (s : State) : Host.Outcome State Fault Refusal :=
  finish (privileged s (do
    let v ← readRM16 s rm
    .ok (advance (.lmsw rm) { s with sys := { s.sys with cr0 := loadMsw s.sys.cr0 v } })))

/-- LTR r/m16 (R258) -/
def execLtr (rm : RM) (s : State) : Host.Outcome State Fault Refusal :=
  finish (privileged s (do
    let sel ← readRM16 s rm
    let s' ← loadTr s sel
    .ok (advance (.ltr rm) s')))

/-- MOV r32, CRn (R259) -/
def execMovFromCr (dst : Reg) (n : BitVec 3) (s : State) : Host.Outcome State Fault Refusal :=
  finish (movFromSys s (readCr s.sys n) n dst (.movFromCr dst n))

/-- MOV CRn, r32 (R259) -/
def execMovToCr (n : BitVec 3) (src : Reg) (s : State) : Host.Outcome State Fault Refusal :=
  finish (movToSys s (writeCr s.sys n (readReg32 s src)) n (.movToCr n src))

/-- MOV r32, DRn (R260) -/
def execMovFromDr (dst : Reg) (n : BitVec 3) (s : State) : Host.Outcome State Fault Refusal :=
  finish (movFromSys s (readDr s.sys n) n dst (.movFromDr dst n))

/-- MOV DRn, r32 (R260) -/
def execMovToDr (n : BitVec 3) (src : Reg) (s : State) : Host.Outcome State Fault Refusal :=
  finish (movToSys s (writeDr s.sys n (readReg32 s src)) n (.movToDr n src))

/-- MOV r32, TRn (R261) -/
def execMovFromTr (dst : Reg) (n : BitVec 3) (s : State) : Host.Outcome State Fault Refusal :=
  finish (movFromSys s (readTr s.sys n) n dst (.movFromTr dst n))

/-- MOV TRn, r32 (R261) -/
def execMovToTr (n : BitVec 3) (src : Reg) (s : State) : Host.Outcome State Fault Refusal :=
  finish (movToSys s (writeTr s.sys n (readReg32 s src)) n (.movToTr n src))

end Sys2Proof.Machine
end

