-- ==== Sys2Proof/Machine/SegmentLoad.lean ====
section
/-! DEFINITION. The instructions that load segment registers (`40_segment_access.md` R129 to R131). -/

namespace Sys2Proof.Machine

/-- POP Sreg (R130): the slot is read through the old SS, and ESP is raised after the load. -/
def popSreg (s : State) (r : SReg) (i : Instr) : Res State := do
  let v ← memRead32 s .ss s.regs.esp
  let s' ← loadSreg s r (v.extractLsb' 0 16)
  .ok (advance i (setEsp s' (s.regs.esp + 4)))

/-- LDS, LES, LFS, LGS, LSS (R131): the register is written after the load. -/
def loadFarPtr (s : State) (r : SReg) (dst : Reg) (m : Mem) (i : Instr) : Res State := do
  let p ← readFarPtr s m
  let s' ← loadSreg s r p.sel
  .ok (advance i (setReg s' dst p.off))

/-- MOV Sreg, r/m16 (R129) -/
def execMovSreg (dst : SReg) (rm : RM) (s : State) : Host.Outcome State Fault Refusal :=
  finish (do
    let sel ← readRM16 s rm
    let s' ← loadSreg s dst sel
    .ok (advance (.movSreg dst rm) s'))

/-- POP DS (R130) -/
def execPopDs (s : State) : Host.Outcome State Fault Refusal := finish (popSreg s .ds .popDs)

/-- POP ES (R130) -/
def execPopEs (s : State) : Host.Outcome State Fault Refusal := finish (popSreg s .es .popEs)

/-- POP SS (R130) -/
def execPopSs (s : State) : Host.Outcome State Fault Refusal := finish (popSreg s .ss .popSs)

/-- POP FS (R130) -/
def execPopFs (s : State) : Host.Outcome State Fault Refusal := finish (popSreg s .fs .popFs)

/-- POP GS (R130) -/
def execPopGs (s : State) : Host.Outcome State Fault Refusal := finish (popSreg s .gs .popGs)

/-- LDS r32, m16:32 (R131) -/
def execLds (dst : Reg) (m : Mem) (s : State) : Host.Outcome State Fault Refusal :=
  finish (loadFarPtr s .ds dst m (.lds dst m))

/-- LES r32, m16:32 (R131) -/
def execLes (dst : Reg) (m : Mem) (s : State) : Host.Outcome State Fault Refusal :=
  finish (loadFarPtr s .es dst m (.les dst m))

/-- LSS r32, m16:32 (R131) -/
def execLss (dst : Reg) (m : Mem) (s : State) : Host.Outcome State Fault Refusal :=
  finish (loadFarPtr s .ss dst m (.lss dst m))

/-- LFS r32, m16:32 (R131) -/
def execLfs (dst : Reg) (m : Mem) (s : State) : Host.Outcome State Fault Refusal :=
  finish (loadFarPtr s .fs dst m (.lfs dst m))

/-- LGS r32, m16:32 (R131) -/
def execLgs (dst : Reg) (m : Mem) (s : State) : Host.Outcome State Fault Refusal :=
  finish (loadFarPtr s .gs dst m (.lgs dst m))

end Sys2Proof.Machine
end

