-- ==== Sys2Proof/Machine/Flags.lean ====
section
/-! DEFINITION. ZF, the one flag the spec computes (`10_state.md` R26). -/

namespace Sys2Proof.Machine

/-- ZF, bit 6 of EFLAGS (R26, log entry 7). -/
def zf (s : State) : Bool := s.eflags.getLsbD 6

/-- Replace bit 6 of EFLAGS and nothing else (R26: every other flag is unchanged). -/
def withZf (f : Word) (z : Bool) : Word :=
  (f &&& 0xFFFFFFBF) ||| (if z then 0x40 else 0)

/-- `ZF <- z` -/
def setZf (s : State) (z : Bool) : State := { s with eflags := withZf s.eflags z }

end Sys2Proof.Machine
end

