-- ==== Sys2Proof/Machine/Validation.lean ====
section
/-! DEFINITION. Pointer validation: LAR, LSL, VERR, VERW, ARPL (`45_pointer_validation.md` R270 to R279). -/

namespace Sys2Proof.Machine

/-- `Probe(sel)`; `none` is `NotFound` (R278, D31). -/
def probe (s : State) (sel : Half) : Option Descriptor :=
  if isNull sel then none else readDescriptor s sel

/-- `Visible(sel, d)` (R276, conflict C8) -/
def visible (cpl : Level) (sel : Half) (a : SegAttr) : Bool :=
  a.conforming || decide (maxLevel cpl (selRpl sel) ≤ a.dpl)

/-- The descriptors LAR accepts: every code or data segment, and the valid system types (R271 (a)). -/
def larValid (d : Descriptor) : Bool := d.attr.s || d.sysType != .reserved

/-- The descriptors LSL accepts (R272, R279, Table 6-4). -/
def lslValid (d : Descriptor) : Bool := d.attr.s || d.sysType.validForLsl

/-- The value LAR loads: dword 1 masked with 00FxFF00H, the four bits `x` undefined (R271, U1). -/
def accessRights (d : Descriptor) (x : BitVec 4) : Word :=
  (d.dword1 &&& 0x00F0FF00) ||| (x.setWidth 32 <<< 16)

/-- LAR with a selector (R271). -/
def loadAccessRights (s : State) (dst : Reg) (sel : Half) : Res State :=
  match probe s sel with
  | none => .ok (setZf s false)
  | some d =>
    if larValid d = false then .ok (setZf s false)
    else do
      stopIf (d.attr.s = false ∧ d.sysType.interruptOrTrap = true) (.refused .larInterruptGate)
      if visible s.cpl sel d.attr then
        .ok (setZf (countDraw (setReg s dst (accessRights d (Config.drawNibble s.draws)))) true)
      else .ok (setZf s false)

/-- LSL with a selector (R272). -/
def loadSegLimit (s : State) (dst : Reg) (sel : Half) : State :=
  match probe s sel with
  | none => setZf s false
  | some d =>
    if lslValid d && visible s.cpl sel d.attr then setZf (setReg s dst d.effLimit) true
    else setZf s false

/-- The DPL is numerically greater than or equal to both the CPL and the selector's RPL (R273, R274). -/
def levelOk (cpl : Level) (sel : Half) (a : SegAttr) : Bool :=
  decide (cpl ≤ a.dpl) && decide (selRpl sel ≤ a.dpl)

/-- Whether VERR's checks pass (R273). -/
def readableAt (s : State) (sel : Half) : Bool :=
  match probe s sel with
  | none => false
  | some d =>
    (d.attr.data || d.attr.readableCode) && (d.attr.conforming || levelOk s.cpl sel d.attr)

/-- Whether VERW's checks pass (R274). -/
def writableAt (s : State) (sel : Half) : Bool :=
  match probe s sel with
  | none => false
  | some d => d.attr.writable && levelOk s.cpl sel d.attr

/-- ARPL on a selector and a register that have been read (R275). -/
def adjustRpl (s : State) (rm : RM) (v r : Half) : State :=
  if selRpl v < selRpl r then setZf (writeRM16 s rm (withRpl v (selRpl r))) true else setZf s false

/-- LAR r32, r/m32 (R271): the low 16 bits of the source are the selector. -/
def execLar (dst : Reg) (rm : RM) (s : State) : Host.Outcome State Fault Refusal :=
  finish (do
    let sel ← readRM16 s rm
    let s' ← loadAccessRights s dst sel
    .ok (advance (.lar dst rm) s'))

/-- LSL r32, r/m32 (R272): the low 16 bits of the source are the selector. -/
def execLsl (dst : Reg) (rm : RM) (s : State) : Host.Outcome State Fault Refusal :=
  finish (do
    let sel ← readRM16 s rm
    .ok (advance (.lsl dst rm) (loadSegLimit s dst sel)))

/-- VERR r/m16 (R273) -/
def execVerr (rm : RM) (s : State) : Host.Outcome State Fault Refusal :=
  finish (do
    let sel ← readRM16 s rm
    .ok (advance (.verr rm) (setZf s (readableAt s sel))))

/-- VERW r/m16 (R274) -/
def execVerw (rm : RM) (s : State) : Host.Outcome State Fault Refusal :=
  finish (do
    let sel ← readRM16 s rm
    .ok (advance (.verw rm) (setZf s (writableAt s sel))))

/-- ARPL r/m16, r16 (R275): a memory destination is write-checked whether or not it is written. -/
def execArpl (rm : RM) (src : Reg) (s : State) : Host.Outcome State Fault Refusal :=
  finish (do
    checkRM16Write s rm
    let v ← readRM16 s rm
    .ok (advance (.arpl rm src) (adjustRpl s rm v (readReg16 s src))))

end Sys2Proof.Machine
end

