-- ==== Sys2Proof/Machine/Dispatch.lean ====
section
/-! DEFINITION. One arm per instruction of the opcode table. -/

namespace Sys2Proof.Machine

/-- The meaning of an instruction, one arm per row of `opcode_table.json`. -/
def exec (i : Instr) (s : State) : Host.Outcome State Fault Refusal :=
  match i with
  | .jmpRel8 rel => Sys2Proof.Machine.execJmpRel8 rel s
  | .jmpRel32 rel => Sys2Proof.Machine.execJmpRel32 rel s
  | .jmpRm32 rm => Sys2Proof.Machine.execJmpRm32 rm s
  | .jmpPtr off sel => Sys2Proof.Machine.execJmpPtr off sel s
  | .jmpMem m => Sys2Proof.Machine.execJmpMem m s
  | .callRel32 rel => Sys2Proof.Machine.execCallRel32 rel s
  | .callRm32 rm => Sys2Proof.Machine.execCallRm32 rm s
  | .callPtr off sel => Sys2Proof.Machine.execCallPtr off sel s
  | .callMem m => Sys2Proof.Machine.execCallMem m s
  | .ret => Sys2Proof.Machine.execRet s
  | .retImm n => Sys2Proof.Machine.execRetImm n s
  | .retf => Sys2Proof.Machine.execRetf s
  | .retfImm n => Sys2Proof.Machine.execRetfImm n s
  | .movSreg dst rm => Sys2Proof.Machine.execMovSreg dst rm s
  | .popDs => Sys2Proof.Machine.execPopDs s
  | .popEs => Sys2Proof.Machine.execPopEs s
  | .popSs => Sys2Proof.Machine.execPopSs s
  | .popFs => Sys2Proof.Machine.execPopFs s
  | .popGs => Sys2Proof.Machine.execPopGs s
  | .lds dst m => Sys2Proof.Machine.execLds dst m s
  | .les dst m => Sys2Proof.Machine.execLes dst m s
  | .lss dst m => Sys2Proof.Machine.execLss dst m s
  | .lfs dst m => Sys2Proof.Machine.execLfs dst m s
  | .lgs dst m => Sys2Proof.Machine.execLgs dst m s
  | .clts => Sys2Proof.Machine.execClts s
  | .hlt => Sys2Proof.Machine.execHlt s
  | .lgdt m => Sys2Proof.Machine.execLgdt m s
  | .lidt m => Sys2Proof.Machine.execLidt m s
  | .lldt rm => Sys2Proof.Machine.execLldt rm s
  | .lmsw rm => Sys2Proof.Machine.execLmsw rm s
  | .ltr rm => Sys2Proof.Machine.execLtr rm s
  | .movFromCr dst n => Sys2Proof.Machine.execMovFromCr dst n s
  | .movToCr n src => Sys2Proof.Machine.execMovToCr n src s
  | .movFromDr dst n => Sys2Proof.Machine.execMovFromDr dst n s
  | .movToDr n src => Sys2Proof.Machine.execMovToDr n src s
  | .movFromTr dst n => Sys2Proof.Machine.execMovFromTr dst n s
  | .movToTr n src => Sys2Proof.Machine.execMovToTr n src s
  | .lar dst rm => Sys2Proof.Machine.execLar dst rm s
  | .lsl dst rm => Sys2Proof.Machine.execLsl dst rm s
  | .verr rm => Sys2Proof.Machine.execVerr rm s
  | .verw rm => Sys2Proof.Machine.execVerw rm s
  | .arpl rm src => Sys2Proof.Machine.execArpl rm src s
  | .int3 => Sys2Proof.Machine.execInt3 s
  | .intImm n => Sys2Proof.Machine.execIntImm n s
  | .into => Sys2Proof.Machine.execInto s
  | .iret => Sys2Proof.Machine.execIret s

end Sys2Proof.Machine
end

