-- ==== Sys2Proof/Machine/Fetch.lean ====
section
/-! DEFINITION. Fetching the instruction at CS:EIP (`20_memory.md` R80; `70_reset_and_hazards.md` R347) and
placing one there. -/

namespace Sys2Proof.Machine

/-- The linear address of the `k`-th byte from CS:EIP on (R61, R80). -/
def fetchAddr (s : State) (k : Nat) : Word := s.segs.cs.base + s.eip + BitVec.ofNat 32 k

/-- How many of the bytes from EIP on, at most the longest instruction, lie within CS's limit (R80, R91):
the sum EIP + k does not wrap (R77). -/
def fetchRoom (s : State) : Nat := min maxInstrBytes (s.segs.cs.limit.toNat + 1 - s.eip.toNat)

/-- The bytes of memory from CS:EIP on that a fetch may read (R80). -/
def fetchBytes (s : State) : List Byte := (List.range (fetchRoom s)).map fun k => linRead8 s (fetchAddr s k)

/-- One of the first `n` bytes from CS:EIP on has been stored to since launch (R347, D9). -/
def fetchTouchesStored (s : State) (n : Nat) : Bool :=
  (List.range n).any fun k => s.stored.contains (fetchAddr s k).toNat

/-- The premises of R341 without which the machine's rules do not apply: protected mode on, paging off, a
32-bit code segment (D4, D5). -/
def modeChecks (s : State) : Res Unit := do
  stopIf (peBit s.sys.cr0 = false) (.refused .realMode)
  stopIf (pgBit s.sys.cr0 = true) (.refused .paging)
  stopIf (s.segs.cs.attr.db = false) (.refused .codeSegment16)

/-- The first byte at CS:EIP, where it is a segment override that the parameter refuses (D5, R306; log entry 6). -/
def refusedOverride (s : State) : Option Byte :=
  if s.params.segmentOverride = .refused then (fetchBytes s).head?.filter fun b => (overrideOf b).isSome else none

/-- The instruction the bytes at CS:EIP make (R80): GP(0) where they run past CS's limit, a refusal where they
make no instruction (R97) or one of them has been stored to (R347). -/
def fetchDecoded (s : State) : Res Instr :=
  match decode (fetchBytes s) with
  | .ok (i, _) => do
    stopIf (fetchTouchesStored s i.length = true) (.refused .fetchOfStoredByte)
    .ok i
  | .error .truncated => do
    stopIf (fetchTouchesStored s (fetchRoom s) = true) (.refused .fetchOfStoredByte)
    .error (raise s .gp .zero)
  | .error r => .error (.refused (.undecodable r))

/-- The instruction at CS:EIP, once no prefix that the parameter refuses stands there (R80, R92, R306). -/
def fetch (s : State) : Res Instr :=
  match refusedOverride s with
  | some b => .error (.refused (.undecodable (.refusedPrefix b)))
  | none => fetchDecoded s

/-- Place one byte of program text: stored from outside the machine, so it does not count as stored by the
program (R82, R347, log entry 3). -/
def placeByte (s : State) (a : Word) (b : Byte) : State :=
  { s with mem := s.mem.write a.toNat b, stored := removeAddr a.toNat s.stored }

/-- Place bytes from the `k`-th byte after CS:EIP on. -/
def placeBytes (s : State) (k : Nat) : List Byte → State
  | [] => s
  | b :: t => placeBytes (placeByte s (fetchAddr s k) b) (k + 1) t

end Sys2Proof.Machine
end

