-- ==== Sys2Proof/Machine/Step.lean ====
section
/-! DEFINITION. One step of the machine (`00_scope.md` R9, R12). -/

namespace Sys2Proof.Machine

/-- One step: in `Halted` nothing executes and nothing changes (R253, log entry 9); else the instruction at
CS:EIP is fetched and executed (R12, R80). -/
def step (s : State) : Host.Outcome State Fault Refusal :=
  if s.halted then .next s
  else
    match modeChecks s >>= fun _ => fetch s with
    | .ok i => exec i s
    | .error e => finish (.error e)

/-- The state with an instruction's bits placed at CS:EIP, from where `step` fetches (log entry 3). -/
def State.withFetchWord (s : State) (nbits w : Nat) : State :=
  placeBytes { s with halted := false } 0 (tableBytes nbits w)

end Sys2Proof.Machine
end

