-- ==== Sys2Proof/Safety.lean ====
section
/-! DEFINITION. What a safe state is, and the terms the claims use: the launch premises (R341) and the part of
them every step keeps, when an access, a load or a transfer is permitted, spelled out as the rules say it, and
which bytes of memory a step stores to or leaves alone. -/

namespace Sys2Proof.Machine

/-! ### The invariant: what of R341, and of R36, R64, R121, R171, R227, holds of every state a run reaches -/

/-- A limit that some descriptor gives: 20 bits with G = 0, twelve low one-bits with G = 1 (R64). -/
abbrev limitOk (g : SegReg) : Prop :=
  if g.attr.g then g.limit.extractLsb' 0 12 = 0xFFF else g.limit.toNat < 2 ^ 20

/-- CS holds, through a non-null selector, a present 32-bit executable segment whose selector's RPL is the CPL, and the CPL equals its DPL
unless it is conforming (R36, R121, R171, R341). -/
abbrev State.CodeOk (s : State) : Prop :=
  isNull s.segs.cs.sel = false ∧ s.segs.cs.attr.valid = true ∧ s.segs.cs.attr.executable = true ∧
    s.segs.cs.attr.p = true ∧ s.segs.cs.attr.db = true ∧ selRpl s.segs.cs.sel = s.cpl ∧ limitOk s.segs.cs ∧
    (s.segs.cs.attr.conforming = false → s.segs.cs.attr.dpl = s.cpl) ∧
    (s.segs.cs.attr.conforming = true → s.segs.cs.attr.dpl ≤ s.cpl)

/-- SS holds, through a non-null selector, a present 32-bit writable data segment whose DPL and selector RPL are the
CPL (R123, R341). -/
abbrev State.StackOk (s : State) : Prop :=
  isNull s.segs.ss.sel = false ∧ s.segs.ss.attr.valid = true ∧ s.segs.ss.attr.writable = true ∧
    s.segs.ss.attr.p = true ∧ s.segs.ss.attr.db = true ∧ s.segs.ss.attr.dpl = s.cpl ∧ selRpl s.segs.ss.sel = s.cpl ∧ limitOk s.segs.ss

/-- A data-segment register is unusable and holds the null selector (R22, R124), or it holds what `LoadDataSeg`
loads at some CPL from some descriptor through its selector: a present data or readable code segment, non-null, and unless it is conforming code of a
DPL no more privileged than the selector's RPL (R121, R122, R341). -/
abbrev dataOk (g : SegReg) : Prop :=
  (g.attr.valid = false → isNull g.sel = true) ∧
    (g.attr.valid = true →
      (g.attr.data = true ∨ g.attr.readableCode = true) ∧ g.attr.p = true ∧ isNull g.sel = false ∧ limitOk g ∧
        (g.attr.conforming = false → selRpl g.sel ≤ g.attr.dpl))

/-- DS, ES, FS and GS each hold the null selector or a segment loadable at some CPL (R341). -/
abbrev State.DataSegsOk (s : State) : Prop :=
  dataOk s.segs.ds ∧ dataOk s.segs.es ∧ dataOk s.segs.fs ∧ dataOk s.segs.gs

/-- Protected mode is on and paging is off (R341, D4, D5). -/
abbrev State.ModeOk (s : State) : Prop := peBit s.sys.cr0 = true ∧ pgBit s.sys.cr0 = false

/-- Memory and the set of stored addresses are in canonical form. -/
abbrev State.MemOk (s : State) : Prop := s.mem.wf = true ∧ addrsWf 0 s.stored = true

/-- The invariant of the machine: those premises of R341 that every step keeps. The rest of them, which a store
or a load of GDTR, LDTR or TR can end, stand in `State.Launch`. -/
abbrev State.Inv (s : State) : Prop :=
  s.CodeOk ∧ s.StackOk ∧ s.DataSegsOk ∧ s.ModeOk ∧ s.MemOk

/-- A usable data-segment register that holds no conforming code holds a segment no more privileged than the
CPL (R122, R227). -/
abbrev dataVisible (cpl : Level) (g : SegReg) : Prop :=
  g.attr.valid = true → g.attr.conforming = false → cpl ≤ g.attr.dpl

/-- No data-segment register gives access to a segment more privileged than the CPL. R341 does not ask this of a
launch state, and every step keeps it. -/
abbrev State.DataVisible (s : State) : Prop :=
  dataVisible s.cpl s.segs.ds ∧ dataVisible s.cpl s.segs.es ∧ dataVisible s.cpl s.segs.fs ∧
    dataVisible s.cpl s.segs.gs

/-! ### Memory seen byte by byte -/

/-- Every byte of memory reads as before. -/
def SameMem (s t : State) : Prop := ∀ a : Word, linRead8 t a = linRead8 s a

/-- Every byte outside the `n` bytes from linear address `b` on reads as before. -/
def SameMemOutside (s t : State) (b : Word) (n : Nat) : Prop :=
  ∀ a : Word, (∀ k : Nat, k < n → a ≠ b + BitVec.ofNat 32 k) → linRead8 t a = linRead8 s a

/-- An address is one of the `n` bytes from linear address `b` on. -/
def inBytes (b : Word) (n : Nat) (a : Word) : Prop := ∃ k : Nat, k < n ∧ a = b + BitVec.ofNat 32 k

/-! ### Flags and instruction classes -/

/-- Every flag but ZF is as before (R26). -/
def FlagsKept (s t : State) : Prop := ∀ k : Nat, k ≠ 6 → t.eflags.getLsbD k = s.eflags.getLsbD k

/-- MOV to and from CRn, DRn and TRn: the rows whose `mod` bits are ignored (R95). -/
def isSystemMove : Instr → Bool
  | .movFromCr _ _ | .movToCr _ _ | .movFromDr _ _ | .movToDr _ _ | .movFromTr _ _ | .movToTr _ _ => true
  | .jmpRel8 _ | .jmpRel32 _ | .jmpRm32 _ | .jmpPtr _ _ | .jmpMem _ | .callRel32 _ | .callRm32 _
  | .callPtr _ _ | .callMem _ | .ret | .retImm _ | .retf | .retfImm _ | .movSreg _ _ | .popDs | .popEs
  | .popSs | .popFs | .popGs | .lds _ _ | .les _ _ | .lss _ _ | .lfs _ _ | .lgs _ _ | .clts | .hlt | .lgdt _
  | .lidt _ | .lldt _ | .lmsw _ | .ltr _ | .lar _ _ | .lsl _ _ | .verr _ | .verw _ | .arpl _ _ | .int3
  | .intImm _ | .into | .iret => false

/-- The privileged instructions (R251 to R261, R263). -/
def isPrivileged : Instr → Bool
  | .clts | .hlt | .lgdt _ | .lidt _ | .lldt _ | .lmsw _ | .ltr _ | .movFromCr _ _ | .movToCr _ _
  | .movFromDr _ _ | .movToDr _ _ | .movFromTr _ _ | .movToTr _ _ => true
  | .jmpRel8 _ | .jmpRel32 _ | .jmpRm32 _ | .jmpPtr _ _ | .jmpMem _ | .callRel32 _ | .callRm32 _
  | .callPtr _ _ | .callMem _ | .ret | .retImm _ | .retf | .retfImm _ | .movSreg _ _ | .popDs | .popEs
  | .popSs | .popFs | .popGs | .lds _ _ | .les _ _ | .lss _ _ | .lfs _ _ | .lgs _ _ | .lar _ _
  | .lsl _ _ | .verr _ | .verw _ | .arpl _ _ | .int3 | .intImm _ | .into | .iret => false

/-! ### Permitted accesses (R65 to R71) -/

/-- A segment register admits accesses of a kind (R68, R69, R71): it is usable, a write goes to writable data, and a
read does not go to unreadable code. -/
def accessTypeOk (s : State) (r : SReg) (k : Access) : Bool :=
  (s.segs.get r).attr.valid &&
    match k with
    | .write => (s.segs.get r).attr.writable
    | .read => !(s.segs.get r).attr.executable || (s.segs.get r).attr.readableCode

/-- An access of `n` bytes at `off` through a segment register is permitted (R70): the register admits the kind, and
the bytes are within its limit. -/
def canAccess (s : State) (r : SReg) (off : Word) (n : Nat) (k : Access) : Bool :=
  accessTypeOk s r k && (s.segs.get r).inLimit off n

/-- A push of `n` bytes is permitted (R78). -/
def canPush (s : State) (n : Nat) : Bool :=
  s.segs.ss.attr.db && canAccess s .ss (s.regs.esp - BitVec.ofNat 32 n) n .write

/-- An `r/m16` operand can be read. -/
def canReadRM16 (s : State) : RM → Bool
  | .reg _ => true
  | .mem m => canAccess s (memSeg m) (memOff s m) 2 .read

/-- The value of an `r/m16` operand. -/
def valueRM16 (s : State) : RM → Half
  | .reg r => (s.regs.get r).extractLsb' 0 16
  | .mem m => linRead16 s ((s.segs.get (memSeg m)).base + memOff s m)

/-- An `r/m32` operand can be read. -/
def canReadRM32 (s : State) : RM → Bool
  | .reg _ => true
  | .mem m => canAccess s (memSeg m) (memOff s m) 4 .read

/-- The value of an `r/m32` operand. -/
def valueRM32 (s : State) : RM → Word
  | .reg r => s.regs.get r
  | .mem m => linRead32 s ((s.segs.get (memSeg m)).base + memOff s m)

/-- An `m16:32` operand can be read: four bytes, then two (R63, R131). -/
def canReadFarPtr (s : State) (m : Mem) : Bool :=
  canAccess s (memSeg m) (memOff s m) 4 .read && canAccess s (memSeg m) (memOff s m + 4) 2 .read

/-- The offset of an `m16:32` operand. -/
def farPtrOff (s : State) (m : Mem) : Word := linRead32 s ((s.segs.get (memSeg m)).base + memOff s m)

/-- The selector of an `m16:32` operand. -/
def farPtrSel (s : State) (m : Mem) : Half :=
  linRead16 s ((s.segs.get (memSeg m)).base + (memOff s m + 4))

/-- An `m16&32` operand can be read: two bytes, then four (R254). -/
def canReadTable (s : State) (m : Mem) : Bool :=
  canAccess s (memSeg m) (memOff s m) 2 .read && canAccess s (memSeg m) (memOff s m + 2) 4 .read

/-- The value of an `m16&32` operand. -/
def tableValue (s : State) (m : Mem) : TableReg :=
  { base := linRead32 s ((s.segs.get (memSeg m)).base + (memOff s m + 2))
    limit := linRead16 s ((s.segs.get (memSeg m)).base + memOff s m) }

/-- The selector POP Sreg takes: the low half of the doubleword at the top of the stack (R130). -/
def stackTopSel (s : State) : Half := (linRead32 s (s.segs.ss.base + s.regs.esp)).extractLsb' 0 16

/-! ### Permitted loads and transfers -/

/-- The descriptor a selector names, whether or not it is within its table. -/
def descOf (s : State) (sel : Half) : Descriptor := descriptorAt s (descriptorAddr s sel)

/-- DS, ES, FS or GS can be loaded with a selector (R121, R122, R124). -/
def canLoadData (s : State) (sel : Half) : Bool :=
  isNull sel ||
    (inTable s sel && ((descOf s sel).attr.data || (descOf s sel).attr.readableCode) &&
      ((descOf s sel).attr.conforming ||
        (decide (s.cpl ≤ (descOf s sel).attr.dpl) && decide (selRpl sel ≤ (descOf s sel).attr.dpl))) &&
      (descOf s sel).attr.p)

/-- SS can be loaded with a selector (R123). -/
def canLoadSs (s : State) (sel : Half) : Bool :=
  !isNull sel && inTable s sel && (selRpl sel == s.cpl) && (descOf s sel).attr.writable &&
    ((descOf s sel).attr.dpl == s.cpl) && (descOf s sel).attr.p && (descOf s sel).attr.db

/-- A program can load a segment register with a selector (R129); CS never. -/
def canLoad (s : State) (r : SReg) (sel : Half) : Bool :=
  match r with
  | .cs => false
  | .ss => canLoadSs s sel
  | .es | .ds | .fs | .gs => canLoadData s sel

/-- What a load leaves in the register: the selector with the descriptor's fields, or, for a null selector,
the selector with the register marked unusable (R122, R124). -/
def loadedSeg (s : State) (r : SReg) (sel : Half) : SegReg :=
  if isNull sel then
    { s.segs.get r with sel := sel, attr := { (s.segs.get r).attr with valid := false } }
  else
    { sel := sel, base := (descOf s sel).base, limit := (descOf s sel).effLimit, attr := (descOf s sel).attr }

/-- A load through a selector writes the descriptor's access byte (R133, D14). -/
def setsAccessedBit (s : State) (sel : Half) : Bool :=
  s.params.setsAccessed && !(descOf s sel).attr.accessed

/-- The linear address of the access byte of the descriptor a selector names (R29, R133). -/
def accessAddr (s : State) (sel : Half) : Word := descriptorAddr s sel + 5

/-- What a load through a selector leaves in the descriptor's access byte: bit 0 set where the load writes it,
else the byte as it was (R133, D14). -/
def accessAfter (s : State) (sel : Half) : Byte :=
  if setsAccessedBit s sel then (descOf s sel).accessByte ||| 1 else linRead8 s (accessAddr s sel)

/-- The memory effect of a load: at most the access byte of the descriptor, with its bit 0 set (R133). -/
def AccessedUpdate (s t : State) (sel : Half) : Prop :=
  SameMemOutside s t (accessAddr s sel) 1 ∧ linRead8 t (accessAddr s sel) = accessAfter s sel

/-- The memory effect of a load of a segment register, null selector or not (R124, R133). -/
def LoadMemory (s t : State) (sel : Half) : Prop :=
  if isNull sel then SameMem s t else AccessedUpdate s t sel

/-- The privilege rules of a direct far JMP or CALL admit the segment a selector names (R164, R172). -/
def directAllowed (s : State) (sel : Half) : Bool :=
  if (descOf s sel).attr.conforming then decide ((descOf s sel).attr.dpl ≤ s.cpl)
  else (descOf s sel).attr.dpl == s.cpl && decide (selRpl sel ≤ s.cpl)

/-- A far JMP or CALL can go directly to the executable segment a selector names (R163 to R165, R172). -/
def canGoDirect (s : State) (sel : Half) (off : Word) : Bool :=
  !isNull sel && inTable s sel && (descOf s sel).attr.executable && directAllowed s sel &&
    (descOf s sel).attr.p && (descOf s sel).attr.db && decide (off ≤ (descOf s sel).effLimit)

/-- A selector names a present 386 call gate that the CPL and the RPL may use (R163, R192, R193). -/
def gateUsable (s : State) (sel : Half) : Bool :=
  !isNull sel && inTable s sel && !(descOf s sel).attr.s && ((descOf s sel).attr.typ == 0xC) &&
    decide (s.cpl ≤ (descOf s sel).attr.dpl) && decide (selRpl sel ≤ (descOf s sel).attr.dpl) &&
    (descOf s sel).attr.p

/-- The selector in the gate a selector names. -/
def gateSel (s : State) (sel : Half) : Half := (descOf s sel).gateSelector

/-- The descriptor of a gate's target. -/
def gateDesc (s : State) (sel : Half) : Descriptor := descOf s (gateSel s sel)

/-- A gate's target can be entered, apart from the privilege rule: non-null, in its table, executable,
present, 32-bit, the entry point within its limit (R193). -/
def gateTargetUsable (s : State) (sel : Half) : Bool :=
  !isNull (gateSel s sel) && inTable s (gateSel s sel) && (gateDesc s sel).attr.executable &&
    (gateDesc s sel).attr.p && (gateDesc s sel).attr.db &&
    decide ((descOf s sel).gateOffset ≤ (gateDesc s sel).effLimit)

/-- The privilege rule for a gate's target: DPL = CPL for a JMP to nonconforming code, else DPL <= CPL (R192). -/
def gateTargetAllowed (s : State) (k : FarKind) (sel : Half) : Bool :=
  match k with
  | .jmp =>
    if (gateDesc s sel).attr.conforming then decide ((gateDesc s sel).attr.dpl ≤ s.cpl)
    else (gateDesc s sel).attr.dpl == s.cpl
  | .call => decide ((gateDesc s sel).attr.dpl ≤ s.cpl)

/-- A CALL through a gate is interlevel: its target is nonconforming and more privileged than the CPL (R196). -/
def entersInner (s : State) (sel : Half) : Bool :=
  !(gateDesc s sel).attr.conforming && decide ((gateDesc s sel).attr.dpl < s.cpl)

/-- CS as a transfer to `sel` at level `p` leaves it (R36, R166). -/
def enteredCode (s : State) (sel : Half) (p : Level) : SegReg :=
  { sel := withRpl sel p, base := (descOf s sel).base, limit := (descOf s sel).effLimit
    attr := (descOf s sel).attr }

/-- ESPp in the current TSS (R33). -/
def tssEsp (s : State) (p : Level) : Word := linRead32 s (s.tr.base + 4 + 8 * p.setWidth 32)

/-- SSp in the current TSS (R33). -/
def tssSs (s : State) (p : Level) : Half := linRead16 s (s.tr.base + 8 + 8 * p.setWidth 32)

/-- The current TSS gives a stack for level `p` that passes the checks of R198. -/
def newStackOk (s : State) (p : Level) : Bool :=
  !isTss286 s.tr.typ && decide (8 * p.toNat + 11 ≤ s.tr.limit.toNat) && !isNull (tssSs s p) &&
    inTable s (tssSs s p) && (selRpl (tssSs s p) == p) && ((descOf s (tssSs s p)).attr.dpl == p) &&
    (descOf s (tssSs s p)).attr.writable && (descOf s (tssSs s p)).attr.p && (descOf s (tssSs s p)).attr.db

/-- The new stack for level `p` has room for `need` bytes (R197 step 1). -/
def newStackRoom (s : State) (p : Level) (need : Nat) : Bool :=
  inLimit (descOf s (tssSs s p)).attr (descOf s (tssSs s p)).effLimit (tssEsp s p - BitVec.ofNat 32 need) need

/-- The new stack for level `p` passes the checks of R198 and has room for `need` bytes (R197 step 1). -/
def newStackUsable (s : State) (p : Level) (need : Nat) : Bool := newStackOk s p && newStackRoom s p need

/-- The parameters of an interlevel CALL can be read from the caller's stack (R197). -/
def paramsReadable (s : State) (n : Nat) : Bool :=
  (List.range n).all fun i => canAccess s .ss (s.regs.esp + BitVec.ofNat 32 (4 * i)) 4 .read

/-! ### Far returns (R222 to R227) -/

/-- The return EIP on the stack. -/
def returnOff (s : State) : Word := linRead32 s (s.segs.ss.base + s.regs.esp)

/-- The return CS on the stack: the low half of its doubleword. -/
def returnSel (s : State) : Half := (linRead32 s (s.segs.ss.base + s.regs.esp + 4)).extractLsb' 0 16

/-- The level rule for the return CS: its DPL is the popped RPL, or for conforming code at most that (Table 6-3
row 8). -/
def returnLevelOk (s : State) : Bool :=
  if (descOf s (returnSel s)).attr.conforming then decide ((descOf s (returnSel s)).attr.dpl ≤ selRpl (returnSel s))
  else (descOf s (returnSel s)).attr.dpl == selRpl (returnSel s)

/-- Rows 4 to 8 of Table 6-3: the return CS selector is non-null and names, within its table, a present
executable segment of a fitting level. -/
def returnCsOk (s : State) : Bool :=
  !isNull (returnSel s) && inTable s (returnSel s) && (descOf s (returnSel s)).attr.executable &&
    (descOf s (returnSel s)).attr.p && returnLevelOk s

/-- Rows 1, 2 and 4 to 8 of Table 6-3, the limit of the return EIP, and a 32-bit code segment. -/
def returnCodeUsable (s : State) : Bool :=
  canAccess s .ss s.regs.esp 8 .read && returnCsOk s &&
    (descOf s (returnSel s)).attr.db && decide (returnOff s ≤ (descOf s (returnSel s)).effLimit)

/-- The saved ESP of an interlevel return releasing `n` bytes (R225). -/
def savedEsp (s : State) (n : Word) : Word := linRead32 s (s.segs.ss.base + (s.regs.esp + n + 8))

/-- The saved SS of an interlevel return releasing `n` bytes: the low half of its doubleword (R225). -/
def savedSs (s : State) (n : Word) : Half :=
  (linRead32 s (s.segs.ss.base + (s.regs.esp + n + 12))).extractLsb' 0 16

/-- Rows 10 to 15 of Table 6-3: the saved SS selector is non-null and names, within its table, a present writable
data segment, and its DPL and RPL are the popped CS's RPL. -/
def savedSsOk (s : State) (n : Word) : Bool :=
  !isNull (savedSs s n) && inTable s (savedSs s n) && (descOf s (savedSs s n)).attr.writable &&
    (descOf s (savedSs s n)).attr.p && ((descOf s (savedSs s n)).attr.dpl == selRpl (returnSel s)) &&
    (selRpl (savedSs s n) == (descOf s (savedSs s n)).attr.dpl)

/-- Rows 9 to 15 of Table 6-3 and a 32-bit stack segment. -/
def returnStackUsable (s : State) (n : Word) : Bool :=
  s.segs.ss.inLimit (s.regs.esp + n + 8) 8 && savedSsOk s n && (descOf s (savedSs s n)).attr.db

/-- What R227 leaves of a data-segment register at the new level `p`. -/
def clearedSeg (p : Level) (g : SegReg) : SegReg :=
  if g.attr.valid && !g.attr.conforming && decide (g.attr.dpl < p) then
    { g with sel := 0, attr := { g.attr with valid := false } }
  else g

/-! ### Forms of one instruction -/

/-- The instruction forms that load segment register `r` with the selector `sel` in a state: MOV Sreg and POP
Sreg with an operand that can be read, and LDS, LES, LSS, LFS, LGS (R129 to R131). -/
def loadsSreg (s : State) (i : Instr) (r : SReg) (sel : Half) : Prop :=
  (∃ rm, i = .movSreg r rm ∧ canReadRM16 s rm = true ∧ sel = valueRM16 s rm) ∨
    ((i, r) ∈ [(Instr.popDs, SReg.ds), (.popEs, .es), (.popSs, .ss), (.popFs, .fs), (.popGs, .gs)] ∧
      canAccess s .ss s.regs.esp 4 .read = true ∧ sel = stackTopSel s) ∨
    ∃ dst m,
      (i, r) ∈
        [(Instr.lds dst m, SReg.ds), (.les dst m, .es), (.lss dst m, .ss), (.lfs dst m, .fs),
          (.lgs dst m, .gs)] ∧
        canReadFarPtr s m = true ∧ sel = farPtrSel s m

/-- The far JMP and CALL forms that reach a selector and offset in a state: the pointer in the instruction, or
an `m16:32` operand that can be read (R163). -/
def reachesFar (s : State) (k : FarKind) (i : Instr) (sel : Half) (off : Word) : Prop :=
  match k with
  | .jmp =>
    i = .jmpPtr off sel ∨
      ∃ m, i = .jmpMem m ∧ canReadFarPtr s m = true ∧ sel = farPtrSel s m ∧ off = farPtrOff s m
  | .call =>
    i = .callPtr off sel ∨
      ∃ m, i = .callMem m ∧ canReadFarPtr s m = true ∧ sel = farPtrSel s m ∧ off = farPtrOff s m

/-- The far RET forms and the bytes each releases (R223). -/
def releases (i : Instr) (n : Word) : Prop := (i = .retf ∧ n = 0) ∨ ∃ k : Half, i = .retfImm k ∧ n = k.setWidth 32

/-- The offset after an instruction (R24, D28). -/
def after (s : State) (i : Instr) : Word := s.eip + BitVec.ofNat 32 i.length

/-! ### The accesses of an instruction's operands and stack slots -/

/-- One access through a segment register: `bytes` bytes at offset `off` (R70). -/
structure SegAccess where
  seg : SReg
  off : Word
  bytes : Nat
  kind : Access
  deriving DecidableEq, Repr

/-- An access is permitted (R70). -/
def permitted (s : State) (x : SegAccess) : Bool := canAccess s x.seg x.off x.bytes x.kind

/-- What an access that is not permitted raises (R68, R69, R71, R72): SF(0) where it only passes the limit of SS, else
GP(0). -/
def accessFault (s : State) (x : SegAccess) : Fault :=
  if x.seg = .ss ∧ accessTypeOk s x.seg x.kind = true then .sf 0 else .gp 0

/-- The read of `n` bytes of an `r/m` operand: none for a register (R95). -/
def rmAccesses (s : State) (n : Nat) : RM → List SegAccess
  | .reg _ => []
  | .mem m => [{ seg := memSeg m, off := memOff s m, bytes := n, kind := .read }]

/-- The reads of an `m16:32` operand: the offset, then the selector (R63, R95, R131). -/
def farPtrAccesses (s : State) (m : Mem) : List SegAccess :=
  [{ seg := memSeg m, off := memOff s m, bytes := 4, kind := .read },
    { seg := memSeg m, off := memOff s m + 4, bytes := 2, kind := .read }]

/-- The reads of an `m16&32` operand: the limit, then the base (R254). -/
def tableAccesses (s : State) (m : Mem) : List SegAccess :=
  [{ seg := memSeg m, off := memOff s m, bytes := 2, kind := .read },
    { seg := memSeg m, off := memOff s m + 2, bytes := 4, kind := .read }]

/-- The accesses of ARPL's destination: a memory one is checked for the write, then read (R275). -/
def arplAccesses (s : State) : RM → List SegAccess
  | .reg _ => []
  | .mem m =>
    [{ seg := memSeg m, off := memOff s m, bytes := 2, kind := .write },
      { seg := memSeg m, off := memOff s m, bytes := 2, kind := .read }]

/-- The read of `n` bytes at the top of the stack (R79, R223). -/
def topAccess (s : State) (n : Nat) : SegAccess := { seg := .ss, off := s.regs.esp, bytes := n, kind := .read }

/-- The write of the slot a near CALL pushes to (R78, R162). -/
def slotAccess (s : State) : SegAccess := { seg := .ss, off := s.regs.esp - 4, bytes := 4, kind := .write }

/-- The accesses an instruction makes through segment registers before anything else decides its outcome, in their
order: its explicit memory operand (R93, R95), and the slot that a POP, a RET or a near CALL uses. -/
def operandAccesses (s : State) : Instr → List SegAccess
  | .jmpRm32 rm => rmAccesses s 4 rm
  | .callRm32 rm => rmAccesses s 4 rm ++ [slotAccess s]
  | .callRel32 _ => [slotAccess s]
  | .jmpMem m | .callMem m | .lds _ m | .les _ m | .lss _ m | .lfs _ m | .lgs _ m => farPtrAccesses s m
  | .ret | .retImm _ | .popDs | .popEs | .popSs | .popFs | .popGs => [topAccess s 4]
  | .retf | .retfImm _ => [topAccess s 8]
  | .movSreg _ rm | .lldt rm | .lmsw rm | .ltr rm | .lar _ rm | .lsl _ rm | .verr rm | .verw rm => rmAccesses s 2 rm
  | .lgdt m | .lidt m => tableAccesses s m
  | .arpl rm _ => arplAccesses s rm
  | .jmpRel8 _ | .jmpRel32 _ | .jmpPtr _ _ | .callPtr _ _ | .clts | .hlt | .movFromCr _ _ | .movToCr _ _
  | .movFromDr _ _ | .movToDr _ _ | .movFromTr _ _ | .movToTr _ _ | .int3 | .intImm _ | .into | .iret => []

/-! ### The bytes an instruction stores to -/

/-- A load through a selector stores to the byte: the access byte of the descriptor, where its bit 0 is to be set
(R133). -/
def loadStores (s : State) (sel : Half) (a : Word) : Prop :=
  isNull sel = false ∧ setsAccessedBit s sel = true ∧ a = accessAddr s sel

/-- The lowest byte of the frame an interlevel CALL through a gate leaves on the new stack (R199). -/
def innerFrame (s : State) (sel : Half) : Word :=
  (descOf s (tssSs s (gateDesc s sel).attr.dpl)).base + tssEsp s (gateDesc s sel).attr.dpl -
    BitVec.ofNat 32 (16 + 4 * (descOf s sel).gateCount.toNat)

/-- A far CALL through a gate stores to the byte: the return pointer on the present stack, or the frame on the new
one with the access byte of its descriptor; and the access byte of the gate's target (R195, R197). -/
def gateCallStores (s : State) (sel : Half) (a : Word) : Prop :=
  loadStores s (gateSel s sel) a ∨
    if entersInner s sel then
      inBytes (innerFrame s sel) (16 + 4 * (descOf s sel).gateCount.toNat) a ∨
        loadStores s (tssSs s (gateDesc s sel).attr.dpl) a
    else inBytes (s.segs.ss.base + (s.regs.esp - 8)) 8 a

/-- A far JMP or CALL through a selector stores to the byte (R165 to R167, R194, R195, R197). -/
def farStores (s : State) (k : FarKind) (sel : Half) (a : Word) : Prop :=
  match k, (descOf s sel).attr.executable with
  | .jmp, true => loadStores s sel a
  | .jmp, false => loadStores s (gateSel s sel) a
  | .call, true => loadStores s sel a ∨ inBytes (s.segs.ss.base + (s.regs.esp - 8)) 8 a
  | .call, false => gateCallStores s sel a

/-- A far RET that releases `n` bytes stores to the byte: the access byte of the descriptor of CS and, outward, of
SS (R222, R226). -/
def returnStores (s : State) (n a : Word) : Prop :=
  loadStores s (returnSel s) a ∨ s.cpl < selRpl (returnSel s) ∧ loadStores s (savedSs s n) a

/-- ARPL stores to the byte: the two bytes of a memory destination whose RPL it raises (R275). -/
def arplStores (s : State) (rm : RM) (src : Reg) (a : Word) : Prop :=
  match rm with
  | .reg _ => False
  | .mem m =>
    selRpl (valueRM16 s (.mem m)) < selRpl ((s.regs.get src).extractLsb' 0 16) ∧
      inBytes ((s.segs.get (memSeg m)).base + memOff s m) 2 a

/-- The bytes of memory an instruction stores to when it answers a next state. -/
def storesTo (s : State) (i : Instr) (a : Word) : Prop :=
  match i with
  | .callRel32 _ | .callRm32 _ => inBytes (s.segs.ss.base + (s.regs.esp - 4)) 4 a
  | .jmpPtr _ sel => farStores s .jmp sel a
  | .jmpMem m => farStores s .jmp (farPtrSel s m) a
  | .callPtr _ sel => farStores s .call sel a
  | .callMem m => farStores s .call (farPtrSel s m) a
  | .retf => returnStores s 0 a
  | .retfImm k => returnStores s (k.setWidth 32) a
  | .movSreg _ rm => loadStores s (valueRM16 s rm) a
  | .popDs | .popEs | .popSs | .popFs | .popGs => loadStores s (stackTopSel s) a
  | .lds _ m | .les _ m | .lss _ m | .lfs _ m | .lgs _ m => loadStores s (farPtrSel s m) a
  | .ltr rm => a = accessAddr s (valueRM16 s rm)
  | .arpl rm src => arplStores s rm src a
  | .jmpRel8 _ | .jmpRel32 _ | .jmpRm32 _ | .ret | .retImm _ | .clts | .hlt | .lgdt _ | .lidt _ | .lldt _
  | .lmsw _ | .movFromCr _ _ | .movToCr _ _ | .movFromDr _ _ | .movToDr _ _ | .movFromTr _ _ | .movToTr _ _
  | .lar _ _ | .lsl _ _ | .verr _ | .verw _ | .int3 | .intImm _ | .into | .iret => False

/-! ### Launch states (R341) -/

/-- A segment register with the accessed bit of its cached TYPE set (R30). -/
def SegReg.asAccessed (r : SegReg) : SegReg :=
  { r with attr := { r.attr with typ := r.attr.typ ||| 1 } }

/-- CS's invisible part is what `LoadCS` would load at the CPL from the descriptor its selector names (R35, R36,
R341), the accessed bit left out of the comparison. Leaving it out is DEDUCED (log entry 24): R341 does not say whether
that bit counts, and after a load that set it in memory CS may still cache it clear (log entry 19), a state from which
vector P4 of 95_test_vectors.md launches. -/
abbrev State.CodeCached (s : State) : Prop :=
  inTable s s.segs.cs.sel = true ∧ s.segs.cs.asAccessed = (enteredCode s s.segs.cs.sel s.cpl).asAccessed

/-- GDTR holds a table in memory, and LDTR names one through a non-null selector of the GDT or is marked not loaded
(R28, R73, R341): no byte of either lies beyond the 2^32 bytes of memory (log entry 24). -/
abbrev State.TablesOk (s : State) : Prop :=
  s.gdtr.base.toNat + s.gdtr.limit.toNat < 2 ^ 32 ∧
    (s.ldtr.valid = true →
      isNull s.ldtr.sel = false ∧ selTi s.ldtr.sel = false ∧ s.ldtr.base.toNat + s.ldtr.limit.toNat < 2 ^ 32)

/-- TR describes a 386 TSS in memory, one that reaches to its last stack pointer (R33, R341; log entry 24). -/
abbrev State.TaskOk (s : State) : Prop :=
  (s.tr.typ = 0x9 ∨ s.tr.typ = 0xB) ∧ 0x1B ≤ s.tr.limit.toNat ∧ s.tr.base.toNat + s.tr.limit.toNat < 2 ^ 32

/-- In this state the instruction is a CALL through a gate to a more privileged level (R196, R197). -/
def interlevelCall (s : State) (i : Instr) : Prop :=
  ∃ sel off, reachesFar s .call i sel off ∧ gateUsable s sel = true ∧ gateTargetUsable s sel = true ∧
    entersInner s sel = true

/-- No step of a run from this state executes an interlevel CALL (R341). -/
def State.NoInterlevelCall (s : State) : Prop :=
  ∀ (n : Nat) (t : State) (i : Instr), Sys2Proof.core.run n s = .next t → fetch t = .ok i → ¬ interlevelCall t i

/-- A launch state: every premise of R341 (D17), with nothing stored to since launch and no HLT executed (R347,
R253). -/
def State.Launch (s : State) : Prop :=
  s.Inv ∧ s.CodeCached ∧ s.TablesOk ∧ (s.TaskOk ∨ s.NoInterlevelCall) ∧ s.stored = [] ∧ s.halted = false

end Sys2Proof.Machine
end

