-- ==== Sys2Proof/Certificates/Slice0/Obligations.lean ====
section
/-! DEFINITION. The statements for the provers. Each says which rules it formalises; a clause that rests on a
choice of the model or of the spec's own decisions says so. -/

open Sys2Proof Sys2Proof.Machine

/-! ### Encoding and decoding -/

/-- R91 to R96: decoding the encoding of a well-formed instruction gives it back, with what follows it. -/
def Obligations.DecodeOfEncode : Prop :=
  ∀ (i : Instr) (rest : List Byte), i.wf = true → decode (encode i ++ rest) = .ok (i, rest)

/-- R90, R91, R95 to R97: what decodes is a well-formed instruction, and the bytes used up are its encoding, as many as
its length says; in MOV to and from CRn, DRn, TRn alone the ModRM byte's `mod` bits, which R95 ignores, may differ from
it. So bytes that begin with no row of the table decode to nothing (D19; row bytes: log entry 5). -/
def Obligations.DecodeUsesLength : Prop :=
  ∀ (bs rest : List Byte) (i : Instr), decode bs = .ok (i, rest) →
    i.wf = true ∧
      ∃ used, bs = used ++ rest ∧ used.length = i.length ∧
        (isSystemMove i = false → used = encode i) ∧
        (isSystemMove i = true →
          ∃ b0 b1 b2 : Byte, used = [b0, b1, b2] ∧ encode i = [b0, b1, b2 ||| 0xC0])

/-- R96, words written out from the table: one of each family. -/
def Obligations.TableWordsDecode : Prop :=
  decode [0xEB, 0x0A] = .ok (.jmpRel8 0x0A, []) ∧
    decode [0xE8, 0x03, 0, 0, 0] = .ok (.callRel32 3, []) ∧
    decode [0x9A, 0, 0, 0, 0, 0x2B, 0] = .ok (.callPtr 0 0x2B, []) ∧
    decode [0xCA, 0x08, 0x00] = .ok (.retfImm 8, []) ∧
    decode [0x8E, 0xD8] = .ok (.movSreg .ds (.reg .eax), []) ∧
    decode [0x0F, 0xA9] = .ok (.popGs, []) ∧
    decode [0xF4] = .ok (.hlt, []) ∧
    decode [0x0F, 0x00, 0xEB] = .ok (.verw (.reg .ebx), []) ∧
    decode [0x63, 0xC3] = .ok (.arpl (.reg .ebx) .eax, []) ∧
    decode [0xCF] = .ok (.iret, [])

/-- R92, R306, D5: the operand-size, address-size, LOCK and repeat prefixes are refused, after a segment override
too; and under the parameter that follows D5 (log entry 6) a step refuses a segment override at CS:EIP, whatever
follows it. -/
def Obligations.SizeAndLockPrefixesRefused : Prop :=
  (∀ (b : Byte) (t : List Byte), b ∈ [(0x66 : Byte), 0x67, 0xF0, 0xF2, 0xF3] →
      decode (b :: t) = .error (.refusedPrefix b) ∧
        ∀ r : SReg, decode (overrideByte r :: b :: t) = .error (.refusedPrefix b)) ∧
    ∀ (s : State) (r : SReg), s.halted = false → s.ModeOk → s.segs.cs.attr.db = true →
      s.params.segmentOverride = .refused → (fetchBytes s).head? = some (overrideByte r) →
      step s = .refused (.undecodable (.refusedPrefix (overrideByte r)))

/-! ### The step -/

/-- R12, R80, R347: where the bytes at CS:EIP within CS's limit decode to an instruction none of whose bytes has
been stored to, and no override that the parameter refuses stands there (log entry 6), one step executes that
instruction. -/
def Obligations.StepRunsDecoded : Prop :=
  ∀ (s : State) (i : Instr) (rest : List Byte), s.halted = false → s.ModeOk → refusedOverride s = none →
    s.segs.cs.attr.db = true → decode (fetchBytes s) = .ok (i, rest) →
    (∀ k : Nat, k < i.length → (fetchAddr s k).toNat ∉ s.stored) → step s = exec i s

/-- R253, log entry 9 (the model's choice): in `Halted` a step changes nothing. -/
def Obligations.HaltedStays : Prop := ∀ s : State, s.halted = true → step s = .next s

/-- R80: where an instruction stands at CS:EIP with its last byte beyond CS's limit, the fetch raises GP(0). -/
def Obligations.FetchPastLimitFaults : Prop :=
  ∀ (s : State) (i : Instr), s.halted = false → s.ModeOk → refusedOverride s = none →
    s.segs.cs.attr.db = true → i.wf = true →
    (∀ k : Nat, k < i.length → (encode i)[k]? = some (linRead8 s (fetchAddr s k))) →
    (∀ k : Nat, k < i.length → (fetchAddr s k).toNat ∉ s.stored) →
    s.segs.cs.limit.toNat < s.eip.toNat + i.length - 1 → step s = .fault (.gp 0)

/-- R347, D9: an instruction one of whose bytes has been stored to since launch is not executed. -/
def Obligations.StoredBytesNotFetched : Prop :=
  ∀ (s : State) (i : Instr) (rest : List Byte) (k : Nat), s.halted = false → s.ModeOk → refusedOverride s = none →
    s.segs.cs.attr.db = true → decode (fetchBytes s) = .ok (i, rest) → k < i.length →
    (fetchAddr s k).toNat ∈ s.stored → step s = .refused .fetchOfStoredByte

/-- R347, D9 (R60): when an instruction answers a next state, a byte of memory that changes is one it stores to, and
the addresses stored to since launch are those from before with those it stores to, and no others: ARPL that
leaves its destination's RPL, a load that finds the accessed bit set and a null load store to none. That the
processor's own writes count as stores, the accessed bit and LTR's busy bit among them, is the model's reading of R347
(log entry 13, DEDUCED), and that LTR writes the busy bit is general knowledge (log entry 4, PRESUMED). -/
def Obligations.StoresAreRemembered : Prop :=
  ∀ (i : Instr) (s t : State), exec i s = .next t →
    (s.mem.wf = true → ∀ a : Word, linRead8 t a ≠ linRead8 s a → storesTo s i a) ∧
      ∀ k : Nat, k ∈ t.stored ↔ k ∈ s.stored ∨ ∃ a : Word, k = a.toNat ∧ storesTo s i a

/-! ### The machine as a whole -/

/-- The part of R341's launch premises that every step keeps (`State.Inv`; R36, R64, R121, R123, R171): CS holds a
present 32-bit executable segment whose RPL is the CPL and whose DPL fits it, SS a present 32-bit writable segment of
the CPL's level, DS, ES, FS, GS each the null selector or what a load at some CPL gives, the limits are limits a descriptor
gives, protected mode is on and paging off, memory is canonical. CS equal to its descriptor in memory and the
premises on GDTR, LDTR and TR are not in it: a store, LGDT, LLDT or LTR can end them. And once no data-segment
register holds a segment more privileged than the CPL, none ever does (R122, R227). -/
def Obligations.StepKeepsInv : Prop :=
  ∀ s t : State, s.Inv → step s = .next t → t.Inv ∧ (s.DataVisible → t.DataVisible)

/-- Log entry 1 (the model's choice): the reset state meets every premise R341 asks of a launch state, CS equal to
the descriptor its selector names but for the accessed bit, and the tables and the TSS in memory among them (read as
log entry 24 says); and its parameters are the spec's decisions D5, D14, D20 and D21 (log entry 12). -/
def Obligations.ResetMeetsInv : Prop :=
  State.reset.Launch ∧ State.reset.DataVisible ∧ State.reset.params = Params.asDecided

/-- R313: only a far CALL makes CPL numerically smaller, and only a far RET makes it greater. -/
def Obligations.CplChangesOnlyByCallOrReturn : Prop :=
  ∀ (i : Instr) (s t : State), exec i s = .next t → t.cpl ≠ s.cpl →
    (t.cpl < s.cpl ∧ ((∃ off sel, i = .callPtr off sel) ∨ ∃ m, i = .callMem m)) ∨
      (s.cpl < t.cpl ∧ (i = .retf ∨ ∃ n, i = .retfImm n))

/-- R250, R251: outside level 0, and by an unprivileged instruction at any level, no descriptor-table register,
task register, control, debug or test register changes, and the processor does not halt. The parameters never
change: SetsAccessed and ErrCodeForm by R6 (decision D30), and privilegedAtZero, which is the model's own (log entry
12). -/
def Obligations.SystemRegistersNeedLevelZero : Prop :=
  ∀ (i : Instr) (s t : State), exec i s = .next t →
    t.params = s.params ∧
      (s.cpl ≠ 0 ∨ isPrivileged i = false →
        t.gdtr = s.gdtr ∧ t.ldtr = s.ldtr ∧ t.idtr = s.idtr ∧ t.tr = s.tr ∧ t.sys = s.sys ∧
          t.halted = s.halted)

/-! ### Memory and access checks -/

/-- R62 (D2): the bytes of a word and of a doubleword lie low byte first, reading one back gives what was
stored, and no other byte changes. -/
def Obligations.StoresAreLittleEndian : Prop :=
  ∀ (s : State) (a : Word), s.mem.wf = true →
    (∀ v : Word,
      (∀ k : Nat, k < 4 → linRead8 (linWrite32 s a v) (a + BitVec.ofNat 32 k) = v.extractLsb' (8 * k) 8) ∧
        linRead32 (linWrite32 s a v) a = v ∧ SameMemOutside s (linWrite32 s a v) a 4) ∧
      ∀ v : Half,
        (∀ k : Nat, k < 2 → linRead8 (linWrite16 s a v) (a + BitVec.ofNat 32 k) = v.extractLsb' (8 * k) 8) ∧
          linRead16 (linWrite16 s a v) a = v ∧ SameMemOutside s (linWrite16 s a v) a 2

/-- R65, R72 (log entry 21): through a usable register that does not hold an expand-down segment, an access of a
permitted kind raises a limit exception exactly when a byte lies at an offset > limit, a word at one >= limit, a
doubleword at one >= limit - 2, and, for any size (the inference R65 draws), when the last byte lies beyond the
limit; else it passes. The exception is general protection, and through SS the stack fault (conflict C5 as R72
resolves it). -/
def Obligations.ExpandUpLimit : Prop :=
  ∀ (s : State) (r : SReg) (off : Word) (k : Access), (s.segs.get r).attr.valid = true →
    (s.segs.get r).attr.expandDown = false →
    (k = .write → (s.segs.get r).attr.writable = true) →
    (k = .read → (s.segs.get r).attr.executable = true → (s.segs.get r).attr.readableCode = true) →
    ((∃ c, segCheck s r off 1 k = .error (.fault (if r = .ss then .sf c else .gp c))) ↔
        (s.segs.get r).limit.toNat < off.toNat) ∧
      ((∃ c, segCheck s r off 2 k = .error (.fault (if r = .ss then .sf c else .gp c))) ↔
        (s.segs.get r).limit.toNat ≤ off.toNat) ∧
      ((∃ c, segCheck s r off 4 k = .error (.fault (if r = .ss then .sf c else .gp c))) ↔
        ((s.segs.get r).limit.toNat : Int) - 2 ≤ off.toNat) ∧
      ∀ n : Nat, 1 ≤ n →
        ((∃ c, segCheck s r off n k = .error (.fault (if r = .ss then .sf c else .gp c))) ↔
            (s.segs.get r).limit.toNat < off.toNat + n - 1) ∧
          (segCheck s r off n k = .ok () ↔ off.toNat + n - 1 ≤ (s.segs.get r).limit.toNat)

/-- R66, R72: through a usable expand-down segment a permitted access passes exactly when its offset is above
the limit and its last byte is at most 64K-1 (B = 0) or 4G-1 (B = 1); else it raises GP(0), or SF(0) through
SS. -/
def Obligations.ExpandDownLimit : Prop :=
  ∀ (s : State) (r : SReg) (off : Word) (n : Nat) (k : Access), 1 ≤ n →
    (s.segs.get r).attr.valid = true → (s.segs.get r).attr.expandDown = true →
    (k = .write → (s.segs.get r).attr.writable = true) →
    segCheck s r off n k =
      if (s.segs.get r).limit.toNat < off.toNat ∧
          off.toNat + n - 1 ≤ (if (s.segs.get r).attr.db then 0xFFFFFFFF else 0xFFFF) then .ok ()
      else if r = .ss then .error (.fault (.sf 0))
      else .error (.fault (.gp 0))

/-- R68, R69, R70, R71, R72: an unusable register faults on any access; a write through anything but writable
data and a read through unreadable code raise GP(0) wherever the offset; else the limit alone decides, with
SF(0) through SS. And every instruction makes this check: the first access of its explicit memory operand (R93, R95), or
of the slot a POP (R130), a RET (R220, R223) or a near CALL (R162) uses, that is not permitted ends it with that fault;
for a privileged instruction, at CPL 0 and where it has its effect (log entry 4). -/
def Obligations.AccessChecks : Prop :=
  (∀ (s : State) (r : SReg) (off : Word) (n : Nat) (k : Access),
    segCheck s r off n k =
      if (s.segs.get r).attr.valid = false then .error (.fault (.gp 0))
      else if k = .write ∧ ((s.segs.get r).attr.executable = true ∨ (s.segs.get r).attr.writable = false) then
        .error (.fault (.gp 0))
      else if k = .read ∧ (s.segs.get r).attr.executable = true ∧ (s.segs.get r).attr.readableCode = false then
        .error (.fault (.gp 0))
      else if (s.segs.get r).inLimit off n = true then .ok ()
      else if r = .ss then .error (.fault (.sf 0))
      else .error (.fault (.gp 0))) ∧
    ∀ (s : State) (i : Instr) (before behind : List SegAccess) (x : SegAccess),
      operandAccesses s i = before ++ x :: behind → (∀ y ∈ before, permitted s y = true) →
      permitted s x = false →
      (isPrivileged i = true → s.cpl = 0 ∧ s.params.privilegedAtZero = .effect) →
      exec i s = .fault (accessFault s x)

/-- R64: with G = 0 the effective limit is the 20-bit field, with G = 1 that field with 12 one-bits appended; a
loaded segment register holds it. -/
def Obligations.EffectiveLimit : Prop :=
  ∀ d : Descriptor,
    (d.g = false → d.effLimit.toNat = d.limit20.toNat ∧ d.effLimit.toNat ≤ 0xFFFFF) ∧
      (d.g = true → d.effLimit.toNat = d.limit20.toNat * 2 ^ 12 + 0xFFF ∧ 0xFFF ≤ d.effLimit.toNat) ∧
      ∀ sel : Half, (d.segReg sel).limit = d.effLimit

/-- R73, R74 (D6): a selector names a descriptor exactly when all eight of its bytes are within the limit of the
table TI names, and of the LDT only when one is loaded. -/
def Obligations.DescriptorTableBounds : Prop :=
  ∀ (s : State) (sel : Half),
    (selTi sel = false →
      readDescriptor s sel =
        if (selIndex sel).toNat * 8 + 7 ≤ s.gdtr.limit.toNat then
          some (descriptorAt s (s.gdtr.base + (selIndex sel).setWidth 32 * 8))
        else none) ∧
      (selTi sel = true →
        readDescriptor s sel =
          if s.ldtr.valid = true ∧ (selIndex sel).toNat * 8 + 7 ≤ s.ldtr.limit.toNat then
            some (descriptorAt s (s.ldtr.base + (selIndex sel).setWidth 32 * 8))
          else none)

/-! ### Loading segment registers -/

/-- R122, R123, R124, R129: MOV Sreg, r/m16 with a permitted selector loads the register, sets at most the
accessed bit of the descriptor, advances EIP and changes nothing else. -/
def Obligations.MovSregLoads : Prop :=
  ∀ (s : State) (r : SReg) (rm : RM) (sel : Half), s.mem.wf = true → canReadRM16 s rm = true →
    sel = valueRM16 s rm → canLoad s r sel = true →
    ∃ t, exec (.movSreg r rm) s = .next t ∧ LoadMemory s t sel ∧
      t = { s with
            segs := s.segs.set r (loadedSeg s r sel)
            eip := after s (.movSreg r rm)
            mem := t.mem
            stored := t.stored }

/-- R122, R123, R124, R130: POP DS, ES, SS, FS, GS with a permitted selector in the low half of the top
doubleword loads the register and raises ESP by 4. -/
def Obligations.PopSregLoads : Prop :=
  ∀ (s : State) (i : Instr) (r : SReg) (sel : Half),
    (i, r) ∈ [(Instr.popDs, SReg.ds), (.popEs, .es), (.popSs, .ss), (.popFs, .fs), (.popGs, .gs)] →
    s.mem.wf = true → canAccess s .ss s.regs.esp 4 .read = true →
    sel = stackTopSel s → canLoad s r sel = true →
    ∃ t, exec i s = .next t ∧ LoadMemory s t sel ∧
      t = { s with
            regs := { s.regs with esp := s.regs.esp + 4 }
            segs := s.segs.set r (loadedSeg s r sel)
            eip := after s i
            mem := t.mem
            stored := t.stored }

/-- R122, R123, R124, R131: LDS, LES, LSS, LFS, LGS with a permitted selector load the segment register and put
the offset into the general register, ESP among them. -/
def Obligations.FarPointerLoads : Prop :=
  ∀ (s : State) (i : Instr) (r : SReg) (dst : Reg) (m : Mem) (sel : Half),
    (i, r) ∈
      [(Instr.lds dst m, SReg.ds), (.les dst m, .es), (.lss dst m, .ss), (.lfs dst m, .fs), (.lgs dst m, .gs)] →
    s.mem.wf = true → canReadFarPtr s m = true → sel = farPtrSel s m → canLoad s r sel = true →
    ∃ t, exec i s = .next t ∧ LoadMemory s t sel ∧
      t = { s with
            regs := s.regs.set dst (farPtrOff s m)
            segs := s.segs.set r (loadedSeg s r sel)
            eip := after s i
            mem := t.mem
            stored := t.stored }

/-- R22, R71, R124 (R129 to R131): a data-segment register loaded with a null selector, by any instruction that
loads one, is no fault: the register holds the selector, and every access through it raises GP(0) afterwards. -/
def Obligations.NullSelectorUnusable : Prop :=
  ∀ (s : State) (i : Instr) (r : SReg) (sel : Half), r ∈ [SReg.ds, .es, .fs, .gs] → loadsSreg s i r sel →
    isNull sel = true →
    ∃ t, exec i s = .next t ∧ (t.segs.get r).sel = sel ∧
      ∀ (off : Word) (n : Nat) (k : Access), segCheck t r off n k = .error (.fault (.gp 0))

/-- R121, R122: every instruction that loads DS, ES, FS or GS with a non-null selector (MOV Sreg, POP, LDS, LES,
LFS, LGS: R129 to R131) raises GP(selector) when the selector is outside its table, names a system descriptor or
execute-only code, or names data or nonconforming code whose DPL is numerically less than the CPL or the selector's
RPL; when all of these pass and P = 0 it raises NP(selector). -/
def Obligations.DataLoadPrivilege : Prop :=
  ∀ (s : State) (i : Instr) (r : SReg) (sel : Half), r ∈ [SReg.ds, .es, .fs, .gs] → loadsSreg s i r sel →
    isNull sel = false →
    (inTable s sel = false ∨ (descOf s sel).attr.s = false ∨
        (descOf s sel).attr.executable = true ∧ (descOf s sel).attr.readableCode = false ∨
        (descOf s sel).attr.conforming = false ∧
          ((descOf s sel).attr.dpl < s.cpl ∨ (descOf s sel).attr.dpl < selRpl sel) →
      exec i s = .fault (.gp (selectorCode s.params.errCodeForm sel))) ∧
      (inTable s sel = true → ((descOf s sel).attr.data = true ∨ (descOf s sel).attr.readableCode = true) →
        ((descOf s sel).attr.conforming = true ∨
          s.cpl ≤ (descOf s sel).attr.dpl ∧ selRpl sel ≤ (descOf s sel).attr.dpl) →
        (descOf s sel).attr.p = false → exec i s = .fault (.np (selectorCode s.params.errCodeForm sel)))

/-- R123 (D12 for the two equalities, log entry 21): every instruction that loads SS (MOV SS, POP SS, LSS: R129 to
R131) raises GP(selector) when its selector is null or outside its table, when its RPL or the descriptor's DPL is not
the CPL, or when the segment is not writable data; when these pass with P = 0 it raises SF(selector), and with P = 1
and B = 0 it is refused (D5). -/
def Obligations.StackSegmentLoadStops : Prop :=
  ∀ (s : State) (i : Instr) (sel : Half), loadsSreg s i .ss sel →
    (isNull sel = true ∨ inTable s sel = false ∨ selRpl sel ≠ s.cpl ∨ (descOf s sel).attr.writable = false ∨
        (descOf s sel).attr.dpl ≠ s.cpl →
      exec i s = .fault (.gp (selectorCode s.params.errCodeForm sel))) ∧
      (isNull sel = false → inTable s sel = true → selRpl sel = s.cpl → (descOf s sel).attr.writable = true →
        (descOf s sel).attr.dpl = s.cpl →
        ((descOf s sel).attr.p = false → exec i s = .fault (.sf (selectorCode s.params.errCodeForm sel))) ∧
          ((descOf s sel).attr.p = true → (descOf s sel).attr.db = false →
            exec i s = .refused .stackSegment16))

/-- R129: MOV to CS is refused once its operand has been read. -/
def Obligations.MovToCsRefused : Prop :=
  ∀ (s : State) (rm : RM), canReadRM16 s rm = true → exec (.movSreg .cs rm) s = .refused .movToCs

/-! ### Near transfers -/

/-- R161: a near JMP goes to its target, a target equal to CS's limit included, and changes EIP alone; a target
beyond the limit raises GP(0). -/
def Obligations.NearJumps : Prop :=
  ∀ (s : State) (i : Instr) (target : Word),
    ((∃ rel : Byte, i = .jmpRel8 rel ∧ target = s.eip + 2 + rel.signExtend 32) ∨
        (∃ rel : Word, i = .jmpRel32 rel ∧ target = s.eip + 5 + rel) ∨
        ∃ rm, i = .jmpRm32 rm ∧ canReadRM32 s rm = true ∧ target = valueRM32 s rm) →
    (target ≤ s.segs.cs.limit → exec i s = .next { s with eip := target }) ∧
      (s.segs.cs.limit < target → exec i s = .fault (.gp 0))

/-- R162, R78: a near CALL pushes the offset of the next instruction, goes to its target and changes ESP, EIP
and the four bytes of the slot alone; without room below ESP it raises SF(0), and then with a target beyond
CS's limit GP(0). -/
def Obligations.NearCalls : Prop :=
  ∀ (s : State) (i : Instr) (target : Word), s.mem.wf = true →
    ((∃ rel : Word, i = .callRel32 rel ∧ target = s.eip + 5 + rel) ∨
        ∃ rm, i = .callRm32 rm ∧ canReadRM32 s rm = true ∧ target = valueRM32 s rm) →
    (canPush s 4 = true → target ≤ s.segs.cs.limit →
      ∃ t, exec i s = .next t ∧ linRead32 t (s.segs.ss.base + (s.regs.esp - 4)) = after s i ∧
        SameMemOutside s t (s.segs.ss.base + (s.regs.esp - 4)) 4 ∧
        t = { s with
              regs := { s.regs with esp := s.regs.esp - 4 }
              eip := target
              mem := t.mem
              stored := t.stored }) ∧
      (s.segs.ss.attr.valid = true → s.segs.ss.attr.writable = true →
        s.segs.ss.inLimit (s.regs.esp - 4) 4 = false → exec i s = .fault (.sf 0)) ∧
      (canPush s 4 = true → s.segs.cs.limit < target → exec i s = .fault (.gp 0))

/-- R220, R221: a near RET takes the offset at the top of the stack, raises ESP by 4 + N and changes ESP and EIP
alone; an offset beyond CS's limit raises GP(0); a slot outside SS's limit raises SF(0) (R72). -/
def Obligations.NearReturns : Prop :=
  ∀ (s : State) (i : Instr) (n : Word),
    ((i = .ret ∧ n = 0) ∨ ∃ k : Half, i = .retImm k ∧ n = k.setWidth 32) →
    (canAccess s .ss s.regs.esp 4 .read = true →
      (linRead32 s (s.segs.ss.base + s.regs.esp) ≤ s.segs.cs.limit →
        exec i s =
          .next { s with
                  regs := { s.regs with esp := s.regs.esp + 4 + n }
                  eip := linRead32 s (s.segs.ss.base + s.regs.esp) }) ∧
        (s.segs.cs.limit < linRead32 s (s.segs.ss.base + s.regs.esp) → exec i s = .fault (.gp 0))) ∧
      (s.segs.ss.attr.valid = true → (s.segs.ss.attr.executable = true → s.segs.ss.attr.readableCode = true) →
        s.segs.ss.inLimit s.regs.esp 4 = false → exec i s = .fault (.sf 0))

/-! ### Far transfers without a gate -/

/-- R164 to R167, R172: a far JMP to an executable segment the privilege rules admit loads CS at the same CPL,
goes to the offset and sets at most the descriptor's accessed bit. -/
def Obligations.FarJumpsDirect : Prop :=
  ∀ (s : State) (i : Instr) (sel : Half) (off : Word), s.mem.wf = true → reachesFar s .jmp i sel off →
    canGoDirect s sel off = true →
    ∃ t, exec i s = .next t ∧ AccessedUpdate s t sel ∧
      t = { s with
            segs := { s.segs with cs := enteredCode s sel s.cpl }
            eip := off
            mem := t.mem
            stored := t.stored }

/-- R165, R166: a direct far CALL pushes CS (low half; the high half is free, D15) and the offset of the next
instruction, then transfers as a far JMP does. The slots hold them unless the accessed-bit write of the load
falls on one. -/
def Obligations.FarCallsDirect : Prop :=
  ∀ (s : State) (i : Instr) (sel : Half) (off : Word), s.mem.wf = true → reachesFar s .call i sel off →
    canGoDirect s sel off = true → canPush s 8 = true →
    ∃ t, exec i s = .next t ∧
      ((setsAccessedBit s sel = true → ¬ inBytes (s.segs.ss.base + (s.regs.esp - 8)) 8 (accessAddr s sel)) →
        linRead32 t (s.segs.ss.base + (s.regs.esp - 8)) = after s i ∧
          (linRead32 t (s.segs.ss.base + (s.regs.esp - 4))).extractLsb' 0 16 = s.segs.cs.sel) ∧
      (setsAccessedBit s sel = true → linRead8 t (accessAddr s sel) = accessAfter s sel) ∧
      (∀ a : Word, ¬ inBytes (s.segs.ss.base + (s.regs.esp - 8)) 8 a →
        linRead8 t a = if a = accessAddr s sel then accessAfter s sel else linRead8 s a) ∧
      t = { s with
            regs := { s.regs with esp := s.regs.esp - 8 }
            segs := { s.segs with cs := enteredCode s sel s.cpl }
            eip := off
            mem := t.mem
            stored := t.stored
            draws := s.draws + 1 }

/-- R164, R165, R167, R172 (D16, D24): a direct far JMP or CALL to a nonconforming segment whose DPL is not the CPL,
or with an RPL above the CPL, and one to a conforming segment whose DPL is above the CPL, raise GP(selector). One
that these rules admit raises NP(selector) when P = 0 and is refused when D = 0 (D5); else an offset beyond the
limit of the segment raises GP(0), for a CALL once its push has room; a CALL without room for eight bytes below ESP
raises SF(0). -/
def Obligations.DirectTransferPrivilege : Prop :=
  ∀ (s : State) (k : FarKind) (i : Instr) (sel : Half) (off : Word), reachesFar s k i sel off →
    isNull sel = false → inTable s sel = true → (descOf s sel).attr.executable = true →
    ((descOf s sel).attr.conforming = false ∧ ((descOf s sel).attr.dpl ≠ s.cpl ∨ s.cpl < selRpl sel) ∨
        (descOf s sel).attr.conforming = true ∧ s.cpl < (descOf s sel).attr.dpl →
      exec i s = .fault (.gp (selectorCode s.params.errCodeForm sel))) ∧
      (directAllowed s sel = true →
        ((descOf s sel).attr.p = false → exec i s = .fault (.np (selectorCode s.params.errCodeForm sel))) ∧
          ((descOf s sel).attr.p = true → (descOf s sel).attr.db = false → exec i s = .refused .codeSegment16) ∧
          ((descOf s sel).attr.p = true → (descOf s sel).attr.db = true →
            ((k = .jmp ∨ canPush s 8 = true) → (descOf s sel).effLimit < off → exec i s = .fault (.gp 0)) ∧
              (k = .call → s.segs.ss.attr.db = true → s.segs.ss.attr.valid = true →
                s.segs.ss.attr.writable = true → s.segs.ss.inLimit (s.regs.esp - 8) 8 = false →
                exec i s = .fault (.sf 0))))

/-- R163: a far JMP or CALL with a null selector raises GP(0); one outside its table, to a data segment or to a
system descriptor that is no TSS, task gate or call gate raises GP(selector). -/
def Obligations.FarTransferFaults : Prop :=
  ∀ (s : State) (k : FarKind) (i : Instr) (sel : Half) (off : Word), reachesFar s k i sel off →
    (isNull sel = true → exec i s = .fault (.gp 0)) ∧
      (isNull sel = false →
        (inTable s sel = false ∨ (descOf s sel).attr.data = true ∨
            (descOf s sel).attr.s = false ∧
              (descOf s sel).attr.typ ∈ [(0x0 : BitVec 4), 0x2, 0x6, 0x7, 0x8, 0xA, 0xD, 0xE, 0xF]) →
          exec i s = .fault (.gp (selectorCode s.params.errCodeForm sel)))

/-- R163, R169, R202: a far JMP or CALL to a TSS or a task gate is refused as a task switch, one to an 80286
call gate as such. -/
def Obligations.TaskAndOldGateTransfersRefused : Prop :=
  ∀ (s : State) (k : FarKind) (i : Instr) (sel : Half) (off : Word), reachesFar s k i sel off →
    isNull sel = false → inTable s sel = true → (descOf s sel).attr.s = false →
    ((descOf s sel).attr.typ ∈ [(0x1 : BitVec 4), 0x3, 0x5, 0x9, 0xB] → exec i s = .refused .taskSwitch) ∧
      ((descOf s sel).attr.typ = 0x4 → exec i s = .refused .callGate286)

/-! ### Call gates -/

/-- R191, R193, R194: a far JMP through a usable gate to a nonconforming segment of the same level, or to a
conforming one no less privileged, goes to the gate's entry point at the same CPL. -/
def Obligations.GatedJumps : Prop :=
  ∀ (s : State) (i : Instr) (sel : Half) (off : Word), s.mem.wf = true → reachesFar s .jmp i sel off →
    gateUsable s sel = true → gateTargetUsable s sel = true →
    ((gateDesc s sel).attr.conforming = false → (gateDesc s sel).attr.dpl = s.cpl) →
    ((gateDesc s sel).attr.conforming = true → (gateDesc s sel).attr.dpl ≤ s.cpl) →
    ∃ t, exec i s = .next t ∧ AccessedUpdate s t (gateSel s sel) ∧
      t = { s with
            segs := { s.segs with cs := enteredCode s (gateSel s sel) s.cpl }
            eip := (descOf s sel).gateOffset
            mem := t.mem
            stored := t.stored }

/-- R195, R196: a far CALL through a usable gate that does not change level pushes the return pointer on the
present stack, copies no parameters and goes to the gate's entry point at the same CPL; of memory it changes the
eight bytes pushed and at most the accessed bit of the target's descriptor, which wins where the two fall on one
byte. -/
def Obligations.GatedCallsSameLevel : Prop :=
  ∀ (s : State) (i : Instr) (sel : Half) (off : Word), s.mem.wf = true → reachesFar s .call i sel off →
    gateUsable s sel = true → gateTargetUsable s sel = true → canPush s 8 = true →
    ((gateDesc s sel).attr.conforming = false → (gateDesc s sel).attr.dpl = s.cpl) →
    ((gateDesc s sel).attr.conforming = true → (gateDesc s sel).attr.dpl ≤ s.cpl) →
    ∃ t, exec i s = .next t ∧
      ((setsAccessedBit s (gateSel s sel) = true →
          ¬ inBytes (s.segs.ss.base + (s.regs.esp - 8)) 8 (accessAddr s (gateSel s sel))) →
        linRead32 t (s.segs.ss.base + (s.regs.esp - 8)) = after s i ∧
          (linRead32 t (s.segs.ss.base + (s.regs.esp - 4))).extractLsb' 0 16 = s.segs.cs.sel) ∧
      (setsAccessedBit s (gateSel s sel) = true →
        linRead8 t (accessAddr s (gateSel s sel)) = accessAfter s (gateSel s sel)) ∧
      (∀ a : Word, ¬ inBytes (s.segs.ss.base + (s.regs.esp - 8)) 8 a →
        linRead8 t a =
          if a = accessAddr s (gateSel s sel) then accessAfter s (gateSel s sel) else linRead8 s a) ∧
      t = { s with
            regs := { s.regs with esp := s.regs.esp - 8 }
            segs := { s.segs with cs := enteredCode s (gateSel s sel) s.cpl }
            eip := (descOf s sel).gateOffset
            mem := t.mem
            stored := t.stored
            draws := s.draws + 1 }

/-- R197 to R199: a far CALL through a usable gate to a more privileged nonconforming segment switches to the
TSS's stack for the new level and leaves on it, from the top down, the old SS, the old ESP, the parameters in
their order, the old CS and the return offset. Outside that frame the access bytes of the new SS and CS descriptors
are as their loads leave them (R133), every other byte is as before, and DS, ES, FS, GS stay. -/
def Obligations.InterlevelCalls : Prop :=
  ∀ (s : State) (i : Instr) (sel : Half) (off : Word) (p : Level) (n : Nat), s.mem.wf = true →
    reachesFar s .call i sel off → gateUsable s sel = true → gateTargetUsable s sel = true →
    entersInner s sel = true → p = (gateDesc s sel).attr.dpl → n = (descOf s sel).gateCount.toNat →
    newStackUsable s p (16 + 4 * n) = true → paramsReadable s n = true →
    ∃ t, exec i s = .next t ∧
      (let top := (descOf s (tssSs s p)).base + tssEsp s p
       let low := top - BitVec.ofNat 32 (16 + 4 * n)
       (linRead32 t (top - 4)).extractLsb' 0 16 = s.segs.ss.sel ∧
         linRead32 t (top - 8) = s.regs.esp ∧
         (∀ k : Nat, k < n →
           linRead32 t (low + 8 + BitVec.ofNat 32 (4 * k)) =
             linRead32 s (s.segs.ss.base + (s.regs.esp + BitVec.ofNat 32 (4 * k)))) ∧
         (linRead32 t (low + 4)).extractLsb' 0 16 = s.segs.cs.sel ∧
         linRead32 t low = after s i ∧
         ∀ a : Word, ¬ inBytes low (16 + 4 * n) a →
           linRead8 t a =
             if a = accessAddr s (tssSs s p) then accessAfter s (tssSs s p)
             else if a = accessAddr s (gateSel s sel) then accessAfter s (gateSel s sel)
             else linRead8 s a) ∧
      t = { s with
            regs := { s.regs with esp := tssEsp s p - BitVec.ofNat 32 (16 + 4 * n) }
            segs :=
              { s.segs with
                cs := enteredCode s (gateSel s sel) p
                ss := (descOf s (tssSs s p)).segReg (tssSs s p) }
            cpl := p
            eip := (descOf s sel).gateOffset
            mem := t.mem
            stored := t.stored
            draws := s.draws + 2 }

/-- R197 step 1, R198 (D5, D23): an interlevel CALL whose gate and target pass is refused on an 80286 TSS; else it
raises InvalidTSS(TR) when the TSS ends before the stack pointer of the new level, and InvalidTSS(new SS) when the
new SS selector is null, outside its table or of an RPL that is not the new CPL; then SF(new SS) when its DPL is not
the new CPL, InvalidTSS(new SS) when it is not writable data, SF(new SS) when P = 0, a refusal when B = 0; then SF(0)
when the new stack is too small for the frame, and SF(0) when a parameter lies outside the caller's stack segment. -/
def Obligations.InterlevelCallStops : Prop :=
  ∀ (s : State) (i : Instr) (sel : Half) (off : Word) (p : Level) (n : Nat),
    reachesFar s .call i sel off → gateUsable s sel = true → gateTargetUsable s sel = true →
    entersInner s sel = true → p = (gateDesc s sel).attr.dpl → n = (descOf s sel).gateCount.toNat →
    let nss := tssSs s p
    let nd := descOf s nss
    (isTss286 s.tr.typ = true → exec i s = .refused .tss286) ∧
      (isTss286 s.tr.typ = false →
        (s.tr.limit.toNat < 8 * p.toNat + 11 →
          exec i s = .fault (.invalidTss (selectorCode s.params.errCodeForm s.tr.sel))) ∧
          (8 * p.toNat + 11 ≤ s.tr.limit.toNat →
            (isNull nss = true ∨ inTable s nss = false ∨ selRpl nss ≠ p →
              exec i s = .fault (.invalidTss (selectorCode s.params.errCodeForm nss))) ∧
              (isNull nss = false → inTable s nss = true → selRpl nss = p →
                (nd.attr.dpl ≠ p → exec i s = .fault (.sf (selectorCode s.params.errCodeForm nss))) ∧
                  (nd.attr.dpl = p → nd.attr.writable = false →
                    exec i s = .fault (.invalidTss (selectorCode s.params.errCodeForm nss))) ∧
                  (nd.attr.dpl = p → nd.attr.writable = true → nd.attr.p = false →
                    exec i s = .fault (.sf (selectorCode s.params.errCodeForm nss))) ∧
                  (nd.attr.dpl = p → nd.attr.writable = true → nd.attr.p = true → nd.attr.db = false →
                    exec i s = .refused .stackSegment16)))) ∧
      (newStackOk s p = true →
        (newStackRoom s p (16 + 4 * n) = false → exec i s = .fault (.sf 0)) ∧
          (newStackRoom s p (16 + 4 * n) = true → s.segs.ss.attr.valid = true →
            (s.segs.ss.attr.executable = true → s.segs.ss.attr.readableCode = true) →
            (∃ k : Nat, k < n ∧ s.segs.ss.inLimit (s.regs.esp + BitVec.ofNat 32 (4 * k)) 4 = false) →
            exec i s = .fault (.sf 0)))

/-- R192, R193, R195 (D16): a far JMP or CALL through a 386 call gate raises GP(gate) unless MAX(CPL,RPL) <= gate DPL,
then NP(gate) when the gate's P = 0. Through a usable gate it raises GP(0) when the target selector is null, GP(target)
when it is outside its table, names no executable segment or breaks the target rule (target DPL = CPL for a JMP to a
nonconforming segment, target DPL <= CPL otherwise), NP(target) when P = 0; it is refused when D = 0 (D5) and raises
GP(0) when the entry point is beyond the target's limit. A CALL that passes all of this at the same level raises SF(0)
when the stack has no room for eight bytes. -/
def Obligations.GatePrivilege : Prop :=
  ∀ (s : State) (k : FarKind) (i : Instr) (sel : Half) (off : Word), reachesFar s k i sel off →
    isNull sel = false → inTable s sel = true → (descOf s sel).attr.s = false →
    (descOf s sel).attr.typ = 0xC →
    let ts := gateSel s sel
    let td := gateDesc s sel
    ((descOf s sel).attr.dpl < s.cpl ∨ (descOf s sel).attr.dpl < selRpl sel →
      exec i s = .fault (.gp (selectorCode s.params.errCodeForm sel))) ∧
      (s.cpl ≤ (descOf s sel).attr.dpl → selRpl sel ≤ (descOf s sel).attr.dpl → (descOf s sel).attr.p = false →
        exec i s = .fault (.np (selectorCode s.params.errCodeForm sel))) ∧
      (gateUsable s sel = true →
        (isNull ts = true → exec i s = .fault (.gp 0)) ∧
          (isNull ts = false →
            (inTable s ts = false ∨ td.attr.executable = false ∨
                k = .jmp ∧ td.attr.conforming = false ∧ td.attr.dpl ≠ s.cpl ∨ s.cpl < td.attr.dpl →
              exec i s = .fault (.gp (selectorCode s.params.errCodeForm ts))) ∧
              (inTable s ts = true → td.attr.executable = true → gateTargetAllowed s k sel = true →
                (td.attr.p = false → exec i s = .fault (.np (selectorCode s.params.errCodeForm ts))) ∧
                  (td.attr.p = true → td.attr.db = false → exec i s = .refused .codeSegment16) ∧
                  (td.attr.p = true → td.attr.db = true → td.effLimit < (descOf s sel).gateOffset →
                    exec i s = .fault (.gp 0)))) ∧
          (k = .call → gateTargetUsable s sel = true → td.attr.dpl ≤ s.cpl → entersInner s sel = false →
            s.segs.ss.attr.db = true → s.segs.ss.attr.valid = true → s.segs.ss.attr.writable = true →
            s.segs.ss.inLimit (s.regs.esp - 8) 8 = false → exec i s = .fault (.sf 0)))

/-- R191: when the selector of a far JMP or CALL names a call gate, a transfer that is made goes to the gate's
selector and offset, and the offset in the instruction is not used: with any other one the outcome is the
same. -/
def Obligations.GateIgnoresOffset : Prop :=
  ∀ (s : State) (sel : Half), isNull sel = false → inTable s sel = true → (descOf s sel).attr.s = false →
    (descOf s sel).attr.typ = 0xC →
    (∀ (k : FarKind) (i : Instr) (off : Word) (t : State), reachesFar s k i sel off → exec i s = .next t →
      t.eip = (descOf s sel).gateOffset ∧
        t.segs.cs.sel.extractLsb' 2 14 = (descOf s sel).gateSelector.extractLsb' 2 14) ∧
      ∀ off off' : Word,
        exec (.jmpPtr off sel) s = exec (.jmpPtr off' sel) s ∧
          exec (.callPtr off sel) s = exec (.callPtr off' sel) s

/-- R171 (with R164, R196): a far JMP or CALL that ends in a conforming segment leaves the CPL as it was, and one
that ends in a nonconforming segment leaves the CPL equal to that segment's DPL. -/
def Obligations.ConformingKeepsCpl : Prop :=
  ∀ (s t : State) (k : FarKind) (i : Instr) (sel : Half) (off : Word), reachesFar s k i sel off →
    exec i s = .next t →
    (t.segs.cs.attr.conforming = true → t.cpl = s.cpl) ∧
      (t.segs.cs.attr.conforming = false → t.cpl = t.segs.cs.attr.dpl)

/-! ### Far returns -/

/-- R222, R223: a far RET whose popped CS has the CPL as its RPL and passes its checks loads CS and EIP at the
same CPL and raises ESP by 8 + N. -/
def Obligations.FarReturnsSameLevel : Prop :=
  ∀ (s : State) (i : Instr) (n : Word), s.mem.wf = true → releases i n → returnCodeUsable s = true →
    selRpl (returnSel s) = s.cpl →
    ∃ t, exec i s = .next t ∧ AccessedUpdate s t (returnSel s) ∧
      t = { s with
            regs := { s.regs with esp := s.regs.esp + 8 + n }
            segs := { s.segs with cs := enteredCode s (returnSel s) s.cpl }
            eip := returnOff s
            mem := t.mem
            stored := t.stored }

/-- R224 to R227 (D13): a far RET to a less privileged level that passes Table 6-3 restores CS:EIP and SS:ESP
from the stack, raises the restored ESP by N, makes the popped RPL the CPL, and nulls each of DS, ES, FS, GS
that holds a segment too privileged for it; of memory, the access bytes of the two descriptors loaded are as their
loads leave them (R133) and every other byte is as before. -/
def Obligations.FarReturnsOutward : Prop :=
  ∀ (s : State) (i : Instr) (n : Word) (p : Level), s.mem.wf = true → releases i n →
    returnCodeUsable s = true → returnStackUsable s n = true → p = selRpl (returnSel s) → s.cpl < p →
    ∃ t, exec i s = .next t ∧
      (∀ a : Word,
        linRead8 t a =
          if a = accessAddr s (returnSel s) then accessAfter s (returnSel s)
          else if a = accessAddr s (savedSs s n) then accessAfter s (savedSs s n)
          else linRead8 s a) ∧
      t = { s with
            regs := { s.regs with esp := savedEsp s n + n }
            segs :=
              { cs := enteredCode s (returnSel s) p
                ss := (descOf s (savedSs s n)).segReg (savedSs s n)
                ds := clearedSeg p s.segs.ds
                es := clearedSeg p s.segs.es
                fs := clearedSeg p s.segs.fs
                gs := clearedSeg p s.segs.gs }
            cpl := p
            eip := returnOff s
            mem := t.mem
            stored := t.stored }

/-- R222 to R225, Table 6-3 row by row: a far RET raises SF(0) when its eight bytes are outside SS's limit (rows 1, 2),
GP(Return CS) when the popped RPL is below the CPL (row 3) or the return CS is null, outside its table, no code
segment or of the wrong level (rows 4 to 6, 8), NP(Return CS) when P = 0 (row 7). To the same level, it is then refused
when D = 0 (D5) and raises GP(0) for an EIP beyond the limit. To an outer level, before those two, it raises SF with a
code the model leaves free when the saved SS:ESP is outside the limit (row 9, U6), GP(Return SS) when the return SS is
null, outside its table, not writable data or of the wrong DPL or RPL (rows 10 to 12, 14, 15), SF(Return SS) when its
P = 0 (row 13); with B = 0 it is refused (D5). -/
def Obligations.FarReturnFaults : Prop :=
  ∀ (s : State) (i : Instr) (n : Word), releases i n → s.segs.ss.attr.valid = true →
    (s.segs.ss.attr.executable = true → s.segs.ss.attr.readableCode = true) →
    let rcs := returnSel s
    let cd := descOf s rcs
    let rss := savedSs s n
    let sd := descOf s rss
    (s.segs.ss.inLimit s.regs.esp 8 = false → exec i s = .fault (.sf 0)) ∧
      (s.segs.ss.inLimit s.regs.esp 8 = true →
        (selRpl rcs < s.cpl ∨ isNull rcs = true ∨ inTable s rcs = false ∨ cd.attr.executable = false →
          exec i s = .fault (.gp (selectorCode s.params.errCodeForm rcs))) ∧
          (s.cpl ≤ selRpl rcs → isNull rcs = false → inTable s rcs = true → cd.attr.executable = true →
            (cd.attr.p = false → exec i s = .fault (.np (selectorCode s.params.errCodeForm rcs))) ∧
              (cd.attr.p = true → returnLevelOk s = false →
                exec i s = .fault (.gp (selectorCode s.params.errCodeForm rcs)))) ∧
          (selRpl rcs = s.cpl → returnCsOk s = true →
            (cd.attr.db = false → exec i s = .refused .codeSegment16) ∧
              (cd.attr.db = true → cd.effLimit < returnOff s → exec i s = .fault (.gp 0))) ∧
          (s.cpl < selRpl rcs → returnCsOk s = true →
            (s.segs.ss.inLimit (s.regs.esp + n + 8) 8 = false → ∃ c, exec i s = .fault (.sf c)) ∧
              (s.segs.ss.inLimit (s.regs.esp + n + 8) 8 = true →
                (isNull rss = true ∨ inTable s rss = false ∨ sd.attr.writable = false →
                  exec i s = .fault (.gp (selectorCode s.params.errCodeForm rss))) ∧
                  (isNull rss = false → inTable s rss = true → sd.attr.writable = true →
                    (sd.attr.p = false → exec i s = .fault (.sf (selectorCode s.params.errCodeForm rss))) ∧
                      (sd.attr.p = true → (sd.attr.dpl ≠ selRpl rcs ∨ selRpl rss ≠ sd.attr.dpl) →
                        exec i s = .fault (.gp (selectorCode s.params.errCodeForm rss)))) ∧
                  (savedSsOk s n = true →
                    (cd.attr.db = false → exec i s = .refused .codeSegment16) ∧
                      (cd.attr.db = true → sd.attr.db = false → exec i s = .refused .stackSegment16) ∧
                      (cd.attr.db = true → sd.attr.db = true → cd.effLimit < returnOff s →
                        exec i s = .fault (.gp 0))))))

/-- R227: after a far RET to a less privileged level, no usable data-segment register holds a segment more
privileged than the new CPL, conforming code excepted. -/
def Obligations.OutwardReturnHidesSegments : Prop :=
  ∀ (s t : State) (i : Instr) (n : Word), releases i n → exec i s = .next t → s.cpl < t.cpl →
    ∀ r : SReg, r ∈ [SReg.ds, .es, .fs, .gs] →
      (t.segs.get r).attr.valid = true → (t.segs.get r).attr.conforming = false →
      t.cpl ≤ (t.segs.get r).attr.dpl

/-! ### Privileged instructions -/

/-- R251: a privileged instruction raises a general protection exception when the CPL is not 0, before any
operand is read; at CPL 0, under the parameter that follows decision D20, every one but HLT is refused. -/
def Obligations.PrivilegedNeedLevelZero : Prop :=
  ∀ (s : State) (i : Instr), isPrivileged i = true →
    (s.cpl ≠ 0 → exec i s = .fault (.gp 0)) ∧
      (s.cpl = 0 → s.params.privilegedAtZero = .refused → i ≠ .hlt →
        exec i s = .refused .privilegedEffect)

/-- R253: HLT at CPL 0 enters the final state `Halted` with EIP at the HLT and changes nothing else. -/
def Obligations.HltHalts : Prop :=
  ∀ s : State, s.cpl = 0 → exec .hlt s = .next { s with halted := true }

/-- R252, R257 (log entry 4, PRESUMED): CLTS clears TS, bit 3 of CR0; LMSW loads CR0's low four bits and
cannot clear PE. -/
def Obligations.MachineStatusWord : Prop :=
  ∀ s : State, s.cpl = 0 → s.params.privilegedAtZero = .effect →
    (∃ c : Word, exec .clts s = .next { s with sys := { s.sys with cr0 := c }, eip := s.eip + 2 } ∧
        ∀ k : Nat, c.getLsbD k = (s.sys.cr0.getLsbD k && decide (k ≠ 3))) ∧
      ∀ rm : RM, canReadRM16 s rm = true →
        ∃ c : Word,
          exec (.lmsw rm) s = .next { s with sys := { s.sys with cr0 := c }, eip := after s (.lmsw rm) } ∧
            c.getLsbD 0 = (s.sys.cr0.getLsbD 0 || (valueRM16 s rm).getLsbD 0) ∧
            (∀ k : Nat, 1 ≤ k → k < 4 → c.getLsbD k = (valueRM16 s rm).getLsbD k) ∧
            ∀ k : Nat, 4 ≤ k → c.getLsbD k = s.sys.cr0.getLsbD k

/-- R254, R255 (log entry 4, PRESUMED): LGDT and LIDT load their register's limit from the word at the operand
and its base from the doubleword two bytes above. -/
def Obligations.TableRegisterLoads : Prop :=
  ∀ (s : State) (m : Mem), s.cpl = 0 → s.params.privilegedAtZero = .effect → canReadTable s m = true →
    exec (.lgdt m) s = .next { s with gdtr := tableValue s m, eip := after s (.lgdt m) } ∧
      exec (.lidt m) s = .next { s with idtr := tableValue s m, eip := after s (.lidt m) }

/-- R256 (log entry 4, PRESUMED): LLDT with a present LDT descriptor of the GDT loads LDTR from it; with a null
selector it marks the LDT unusable; with TI = 1, outside the GDT or of another type it raises GP(selector), and then with
P = 0 NP(selector). -/
def Obligations.LldtLoads : Prop :=
  ∀ (s : State) (rm : RM) (sel : Half), s.cpl = 0 → s.params.privilegedAtZero = .effect →
    canReadRM16 s rm = true → sel = valueRM16 s rm →
    (isNull sel = true →
      exec (.lldt rm) s =
        .next { s with ldtr := { s.ldtr with sel := sel, valid := false }, eip := after s (.lldt rm) }) ∧
      (isNull sel = false →
        (selTi sel = true ∨ inTable s sel = false ∨ (descOf s sel).attr.s = true ∨ (descOf s sel).attr.typ ≠ 0x2 →
          exec (.lldt rm) s = .fault (.gp (selectorCode s.params.errCodeForm sel))) ∧
          (selTi sel = false → inTable s sel = true → (descOf s sel).attr.s = false →
            (descOf s sel).attr.typ = 0x2 →
            ((descOf s sel).attr.p = false →
              exec (.lldt rm) s = .fault (.np (selectorCode s.params.errCodeForm sel))) ∧
              ((descOf s sel).attr.p = true →
                exec (.lldt rm) s =
                  .next { s with
                          ldtr :=
                            { sel := sel, base := (descOf s sel).base, limit := (descOf s sel).effLimit
                              valid := true }
                          eip := after s (.lldt rm) })))

/-- R258 (log entry 4, PRESUMED): LTR with a present available TSS of the GDT loads TR from it and marks the
descriptor busy, one byte of memory; with a null selector, with TI = 1, outside the GDT or of another type it raises
GP(selector), and then with P = 0 NP(selector). -/
def Obligations.LtrLoads : Prop :=
  ∀ (s : State) (rm : RM) (sel : Half), s.cpl = 0 → s.params.privilegedAtZero = .effect →
    canReadRM16 s rm = true → sel = valueRM16 s rm →
    (isNull sel = true ∨ selTi sel = true ∨ inTable s sel = false ∨ (descOf s sel).attr.s = true ∨
        (descOf s sel).attr.typ ∉ [(0x1 : BitVec 4), 0x9] →
      exec (.ltr rm) s = .fault (.gp (selectorCode s.params.errCodeForm sel))) ∧
      (isNull sel = false → selTi sel = false → inTable s sel = true → (descOf s sel).attr.s = false →
        (descOf s sel).attr.typ ∈ [(0x1 : BitVec 4), 0x9] →
        ((descOf s sel).attr.p = false →
          exec (.ltr rm) s = .fault (.np (selectorCode s.params.errCodeForm sel))) ∧
          (s.mem.wf = true → (descOf s sel).attr.p = true →
            ∃ t, exec (.ltr rm) s = .next t ∧
              linRead8 t (accessAddr s sel) = (descOf s sel).accessByte ||| 2 ∧
              SameMemOutside s t (accessAddr s sel) 1 ∧
              t = { s with
                    tr :=
                      { sel := sel, base := (descOf s sel).base, limit := (descOf s sel).effLimit
                        typ := (descOf s sel).attr.typ ||| 2 }
                    eip := after s (.ltr rm)
                    mem := t.mem
                    stored := t.stored }))

/-- R34, R259 to R261 (log entry 4, PRESUMED): MOV from CRn, DRn or TRn copies the register named; a number no
register has is refused. -/
def Obligations.SystemRegisterReads : Prop :=
  ∀ (s : State) (dst : Reg) (n : BitVec 3) (v : Word), s.cpl = 0 → s.params.privilegedAtZero = .effect →
    ((n, v) ∈ [((0 : BitVec 3), s.sys.cr0), (2, s.sys.cr2), (3, s.sys.cr3)] →
        exec (.movFromCr dst n) s = .next { s with regs := s.regs.set dst v, eip := s.eip + 3 }) ∧
      ((n, v) ∈ [((0 : BitVec 3), s.sys.dr0), (1, s.sys.dr1), (2, s.sys.dr2), (3, s.sys.dr3),
          (6, s.sys.dr6), (7, s.sys.dr7)] →
        exec (.movFromDr dst n) s = .next { s with regs := s.regs.set dst v, eip := s.eip + 3 }) ∧
      ((n, v) ∈ [((6 : BitVec 3), s.sys.tr6), (7, s.sys.tr7)] →
        exec (.movFromTr dst n) s = .next { s with regs := s.regs.set dst v, eip := s.eip + 3 }) ∧
      (n ∉ [(0 : BitVec 3), 2, 3] → exec (.movFromCr dst n) s = .refused (.noSuchRegister n)) ∧
      (n ∈ [(4 : BitVec 3), 5] → exec (.movFromDr dst n) s = .refused (.noSuchRegister n)) ∧
      (n ∉ [(6 : BitVec 3), 7] → exec (.movFromTr dst n) s = .refused (.noSuchRegister n))

/-- R34, R259 to R261, D4, D5 (log entry 4, PRESUMED): MOV to CRn, DRn or TRn writes the register named as long
as protected mode stays on and paging off; a CR0 that would change either, and a number no register has, are
refused. -/
def Obligations.SystemRegisterWrites : Prop :=
  ∀ (s : State) (src : Reg) (n : BitVec 3) (g : SysRegs), s.cpl = 0 → s.params.privilegedAtZero = .effect →
    (peBit g.cr0 = true → pgBit g.cr0 = false →
      ((n, g) ∈ [((0 : BitVec 3), { s.sys with cr0 := s.regs.get src }),
            (2, { s.sys with cr2 := s.regs.get src }), (3, { s.sys with cr3 := s.regs.get src })] →
          exec (.movToCr n src) s = .next { s with sys := g, eip := s.eip + 3 }) ∧
        ((n, g) ∈ [((0 : BitVec 3), { s.sys with dr0 := s.regs.get src }),
            (1, { s.sys with dr1 := s.regs.get src }), (2, { s.sys with dr2 := s.regs.get src }),
            (3, { s.sys with dr3 := s.regs.get src }), (6, { s.sys with dr6 := s.regs.get src }),
            (7, { s.sys with dr7 := s.regs.get src })] →
          exec (.movToDr n src) s = .next { s with sys := g, eip := s.eip + 3 }) ∧
        ((n, g) ∈ [((6 : BitVec 3), { s.sys with tr6 := s.regs.get src }),
            (7, { s.sys with tr7 := s.regs.get src })] →
          exec (.movToTr n src) s = .next { s with sys := g, eip := s.eip + 3 })) ∧
      (n ∉ [(0 : BitVec 3), 2, 3] → exec (.movToCr n src) s = .refused (.noSuchRegister n)) ∧
      (n ∈ [(4 : BitVec 3), 5] → exec (.movToDr n src) s = .refused (.noSuchRegister n)) ∧
      (n ∉ [(6 : BitVec 3), 7] → exec (.movToTr n src) s = .refused (.noSuchRegister n)) ∧
      (peBit (s.regs.get src) = false → exec (.movToCr 0 src) s = .refused .realMode) ∧
      (peBit (s.regs.get src) = true → pgBit (s.regs.get src) = true →
        exec (.movToCr 0 src) s = .refused .paging)

/-! ### Pointer validation -/

/-- R271, R276, R278: LAR on a visible descriptor of a valid type that is no interrupt or trap gate loads dword 1
masked with 00FxFF00H (the four bits x free, U1) and sets ZF; nothing else changes but EIP. -/
def Obligations.LarLoads : Prop :=
  ∀ (s : State) (dst : Reg) (rm : RM) (sel : Half), canReadRM16 s rm = true → sel = valueRM16 s rm →
    isNull sel = false → inTable s sel = true →
    ((descOf s sel).attr.s = false →
      (descOf s sel).attr.typ ∈ [(0x1 : BitVec 4), 0x2, 0x3, 0x4, 0x5, 0x9, 0xB, 0xC]) →
    ((descOf s sel).attr.conforming = true ∨
      s.cpl ≤ (descOf s sel).attr.dpl ∧ selRpl sel ≤ (descOf s sel).attr.dpl) →
    ∃ t, exec (.lar dst rm) s = .next t ∧
      t.regs.get dst &&& 0xFFF0FFFF = (descOf s sel).dword1 &&& 0x00F0FF00 ∧ zf t = true ∧ FlagsKept s t ∧
      t = { s with
            regs := s.regs.set dst (t.regs.get dst)
            eflags := t.eflags
            eip := after s (.lar dst rm)
            draws := s.draws + 1 }

/-- R271, R276, R278 (D31): LAR on a null selector, one outside its table, a reserved type, or a descriptor that is
not visible clears ZF and leaves the destination; on an interrupt or trap gate it is refused (conflict C12). -/
def Obligations.LarRejects : Prop :=
  ∀ (s : State) (dst : Reg) (rm : RM) (sel : Half), canReadRM16 s rm = true → sel = valueRM16 s rm →
    (isNull sel = true ∨ inTable s sel = false ∨
        (descOf s sel).attr.s = false ∧ (descOf s sel).attr.typ ∈ [(0x0 : BitVec 4), 0x8, 0xA, 0xD] ∨
        ((descOf s sel).attr.s = true ∨ (descOf s sel).attr.typ ∉ [(0x6 : BitVec 4), 0x7, 0xE, 0xF]) ∧
          (descOf s sel).attr.conforming = false ∧
          ((descOf s sel).attr.dpl < s.cpl ∨ (descOf s sel).attr.dpl < selRpl sel) →
      ∃ t, exec (.lar dst rm) s = .next t ∧ zf t = false ∧ FlagsKept s t ∧
        t = { s with eflags := t.eflags, eip := after s (.lar dst rm) }) ∧
      (isNull sel = false → inTable s sel = true → (descOf s sel).attr.s = false →
        (descOf s sel).attr.typ ∈ [(0x6 : BitVec 4), 0x7, 0xE, 0xF] →
        exec (.lar dst rm) s = .refused .larInterruptGate)

/-- R272, R276, R278, R279 (D11, D31): LSL on a visible descriptor of a type Table 6-4 accepts loads the effective
limit and sets ZF; on any other selector it clears ZF and leaves the destination. -/
def Obligations.LslResult : Prop :=
  ∀ (s : State) (dst : Reg) (rm : RM) (sel : Half), canReadRM16 s rm = true → sel = valueRM16 s rm →
    ∃ t, exec (.lsl dst rm) s = .next t ∧ FlagsKept s t ∧
      (zf t = true ↔
        isNull sel = false ∧ inTable s sel = true ∧
          ((descOf s sel).attr.s = true ∨ (descOf s sel).attr.typ ∈ [(0x1 : BitVec 4), 0x2, 0x3, 0x9, 0xB]) ∧
          ((descOf s sel).attr.conforming = true ∨
            s.cpl ≤ (descOf s sel).attr.dpl ∧ selRpl sel ≤ (descOf s sel).attr.dpl)) ∧
      t = { s with
            regs := if zf t then s.regs.set dst (descOf s sel).effLimit else s.regs
            eflags := t.eflags
            eip := after s (.lsl dst rm) }

/-- R273, R274, R278 (D27, D31): VERR and VERW set ZF exactly when the selector names, within its table, a segment
that can be read, or written, at the CPL and the RPL, conforming code being readable at any level; nothing
else changes but EIP. -/
def Obligations.VerifyResult : Prop :=
  ∀ (s : State) (rm : RM) (sel : Half), canReadRM16 s rm = true → sel = valueRM16 s rm →
    (∃ t, exec (.verr rm) s = .next t ∧ FlagsKept s t ∧
        (zf t = true ↔
          isNull sel = false ∧ inTable s sel = true ∧
            ((descOf s sel).attr.data = true ∨ (descOf s sel).attr.readableCode = true) ∧
            ((descOf s sel).attr.conforming = true ∨
              s.cpl ≤ (descOf s sel).attr.dpl ∧ selRpl sel ≤ (descOf s sel).attr.dpl)) ∧
        t = { s with eflags := t.eflags, eip := after s (.verr rm) }) ∧
      ∃ t, exec (.verw rm) s = .next t ∧ FlagsKept s t ∧
        (zf t = true ↔
          isNull sel = false ∧ inTable s sel = true ∧ (descOf s sel).attr.writable = true ∧
            s.cpl ≤ (descOf s sel).attr.dpl ∧ selRpl sel ≤ (descOf s sel).attr.dpl) ∧
        t = { s with eflags := t.eflags, eip := after s (.verw rm) }

/-- R275: ARPL makes the RPL of its destination selector the larger of its own and that of the source register and
sets ZF exactly when that changes it; a register keeps its upper half, and no byte but the two of a memory
destination changes. A memory destination is checked for the write whether or not the selector changes (R275 (a)): one
that does not permit it raises SF(0) where it only passes the limit of SS, else GP(0) (R68, R72). -/
def Obligations.ArplAdjusts : Prop :=
  ∀ (s : State) (src : Reg),
    (∀ dst : Reg, ∃ t, exec (.arpl (.reg dst) src) s = .next t ∧ FlagsKept s t ∧
        (zf t = true ↔ selRpl ((s.regs.get dst).extractLsb' 0 16) < selRpl ((s.regs.get src).extractLsb' 0 16)) ∧
        t = { s with
              regs :=
                s.regs.set dst
                  ((s.regs.get dst).extractLsb' 2 30 ++
                    maxLevel (selRpl ((s.regs.get dst).extractLsb' 0 16))
                      (selRpl ((s.regs.get src).extractLsb' 0 16)))
              eflags := t.eflags
              eip := after s (.arpl (.reg dst) src) }) ∧
      ∀ m : Mem,
        (canAccess s (memSeg m) (memOff s m) 2 .write = false →
          exec (.arpl (.mem m) src) s =
            .fault (if memSeg m = .ss ∧ accessTypeOk s (memSeg m) .write = true then .sf 0 else .gp 0)) ∧
          (s.mem.wf = true → canAccess s (memSeg m) (memOff s m) 2 .write = true →
            ∃ t, exec (.arpl (.mem m) src) s = .next t ∧ FlagsKept s t ∧
              (zf t = true ↔ selRpl (valueRM16 s (.mem m)) < selRpl ((s.regs.get src).extractLsb' 0 16)) ∧
              linRead16 t ((s.segs.get (memSeg m)).base + memOff s m) =
                (valueRM16 s (.mem m)).extractLsb' 2 14 ++
                  maxLevel (selRpl (valueRM16 s (.mem m))) (selRpl ((s.regs.get src).extractLsb' 0 16)) ∧
              SameMemOutside s t ((s.segs.get (memSeg m)).base + memOff s m) 2 ∧
              t = { s with
                    eflags := t.eflags
                    eip := after s (.arpl (.mem m) src)
                    mem := t.mem
                    stored := t.stored })

/-- R277 (with R122, R275): once ARPL has raised a selector in a register to the caller's RPL, loading DS, ES, FS
or GS from it faults whenever the segment, data or nonconforming readable code, is more privileged than that
caller. -/
def Obligations.RplProtocolProtects : Prop :=
  ∀ (s t : State) (g src : Reg) (r : SReg) (sel : Half), r ∈ [SReg.ds, .es, .fs, .gs] →
    exec (.arpl (.reg g) src) s = .next t → sel = (s.regs.get g).extractLsb' 0 16 → isNull sel = false →
    inTable s sel = true →
    ((descOf s sel).attr.data = true ∨ (descOf s sel).attr.readableCode = true) →
    (descOf s sel).attr.conforming = false →
    (descOf s sel).attr.dpl < selRpl ((s.regs.get src).extractLsb' 0 16) →
    ∃ c, exec (.movSreg r (.reg g)) t = .fault (.gp c)

/-! ### Interrupt instructions -/

/-- R170, R96 (log entries 5 and 8): INT 3, INT n, INTO and IRET are decoded by name, from the opcode bytes R96 takes
from general knowledge, and refused in every state. -/
def Obligations.InterruptInstructionsRefused : Prop :=
  ∀ (s : State) (n : Byte) (rest : List Byte),
    decode (0xCC :: rest) = .ok (.int3, rest) ∧ exec .int3 s = .refused .interruptTransfer ∧
      decode (0xCD :: n :: rest) = .ok (.intImm n, rest) ∧ exec (.intImm n) s = .refused .interruptTransfer ∧
      decode (0xCE :: rest) = .ok (.into, rest) ∧ exec .into s = .refused .interruptTransfer ∧
      decode (0xCF :: rest) = .ok (.iret, rest) ∧ exec .iret s = .refused .interruptTransfer
end

