-- ==== Sys2Proof/Laws/State.lean ====
section
/-! SUPPORT. Each field of the state after each update of the machine, all true by rfl, and the registers and
segment registers after a write. -/

namespace Sys2Proof.Machine

/-! ### `setReg` -/

@[simp] theorem setReg_regs (s : State) (r : Reg) (v : Word) : (setReg s r v).regs = s.regs.set r v := rfl

@[simp] theorem setReg_segs (s : State) (r : Reg) (v : Word) : (setReg s r v).segs = s.segs := rfl

@[simp] theorem setReg_cpl (s : State) (r : Reg) (v : Word) : (setReg s r v).cpl = s.cpl := rfl

@[simp] theorem setReg_eip (s : State) (r : Reg) (v : Word) : (setReg s r v).eip = s.eip := rfl

@[simp] theorem setReg_eflags (s : State) (r : Reg) (v : Word) : (setReg s r v).eflags = s.eflags := rfl

@[simp] theorem setReg_gdtr (s : State) (r : Reg) (v : Word) : (setReg s r v).gdtr = s.gdtr := rfl

@[simp] theorem setReg_ldtr (s : State) (r : Reg) (v : Word) : (setReg s r v).ldtr = s.ldtr := rfl

@[simp] theorem setReg_idtr (s : State) (r : Reg) (v : Word) : (setReg s r v).idtr = s.idtr := rfl

@[simp] theorem setReg_tr (s : State) (r : Reg) (v : Word) : (setReg s r v).tr = s.tr := rfl

@[simp] theorem setReg_sys (s : State) (r : Reg) (v : Word) : (setReg s r v).sys = s.sys := rfl

@[simp] theorem setReg_mem (s : State) (r : Reg) (v : Word) : (setReg s r v).mem = s.mem := rfl

@[simp] theorem setReg_halted (s : State) (r : Reg) (v : Word) : (setReg s r v).halted = s.halted := rfl

@[simp] theorem setReg_stored (s : State) (r : Reg) (v : Word) : (setReg s r v).stored = s.stored := rfl

@[simp] theorem setReg_draws (s : State) (r : Reg) (v : Word) : (setReg s r v).draws = s.draws := rfl

@[simp] theorem setReg_params (s : State) (r : Reg) (v : Word) : (setReg s r v).params = s.params := rfl

/-! ### `setEsp` -/

@[simp] theorem setEsp_regs (s : State) (v : Word) : (setEsp s v).regs = { s.regs with esp := v } := rfl

@[simp] theorem setEsp_segs (s : State) (v : Word) : (setEsp s v).segs = s.segs := rfl

@[simp] theorem setEsp_cpl (s : State) (v : Word) : (setEsp s v).cpl = s.cpl := rfl

@[simp] theorem setEsp_eip (s : State) (v : Word) : (setEsp s v).eip = s.eip := rfl

@[simp] theorem setEsp_eflags (s : State) (v : Word) : (setEsp s v).eflags = s.eflags := rfl

@[simp] theorem setEsp_gdtr (s : State) (v : Word) : (setEsp s v).gdtr = s.gdtr := rfl

@[simp] theorem setEsp_ldtr (s : State) (v : Word) : (setEsp s v).ldtr = s.ldtr := rfl

@[simp] theorem setEsp_idtr (s : State) (v : Word) : (setEsp s v).idtr = s.idtr := rfl

@[simp] theorem setEsp_tr (s : State) (v : Word) : (setEsp s v).tr = s.tr := rfl

@[simp] theorem setEsp_sys (s : State) (v : Word) : (setEsp s v).sys = s.sys := rfl

@[simp] theorem setEsp_mem (s : State) (v : Word) : (setEsp s v).mem = s.mem := rfl

@[simp] theorem setEsp_halted (s : State) (v : Word) : (setEsp s v).halted = s.halted := rfl

@[simp] theorem setEsp_stored (s : State) (v : Word) : (setEsp s v).stored = s.stored := rfl

@[simp] theorem setEsp_draws (s : State) (v : Word) : (setEsp s v).draws = s.draws := rfl

@[simp] theorem setEsp_params (s : State) (v : Word) : (setEsp s v).params = s.params := rfl

/-! ### `setEip` -/

@[simp] theorem setEip_regs (s : State) (v : Word) : (setEip s v).regs = s.regs := rfl

@[simp] theorem setEip_segs (s : State) (v : Word) : (setEip s v).segs = s.segs := rfl

@[simp] theorem setEip_cpl (s : State) (v : Word) : (setEip s v).cpl = s.cpl := rfl

@[simp] theorem setEip_eip (s : State) (v : Word) : (setEip s v).eip = v := rfl

@[simp] theorem setEip_eflags (s : State) (v : Word) : (setEip s v).eflags = s.eflags := rfl

@[simp] theorem setEip_gdtr (s : State) (v : Word) : (setEip s v).gdtr = s.gdtr := rfl

@[simp] theorem setEip_ldtr (s : State) (v : Word) : (setEip s v).ldtr = s.ldtr := rfl

@[simp] theorem setEip_idtr (s : State) (v : Word) : (setEip s v).idtr = s.idtr := rfl

@[simp] theorem setEip_tr (s : State) (v : Word) : (setEip s v).tr = s.tr := rfl

@[simp] theorem setEip_sys (s : State) (v : Word) : (setEip s v).sys = s.sys := rfl

@[simp] theorem setEip_mem (s : State) (v : Word) : (setEip s v).mem = s.mem := rfl

@[simp] theorem setEip_halted (s : State) (v : Word) : (setEip s v).halted = s.halted := rfl

@[simp] theorem setEip_stored (s : State) (v : Word) : (setEip s v).stored = s.stored := rfl

@[simp] theorem setEip_draws (s : State) (v : Word) : (setEip s v).draws = s.draws := rfl

@[simp] theorem setEip_params (s : State) (v : Word) : (setEip s v).params = s.params := rfl

/-! ### `setSeg` -/

@[simp] theorem setSeg_regs (s : State) (r : SReg) (g : SegReg) : (setSeg s r g).regs = s.regs := rfl

@[simp] theorem setSeg_segs (s : State) (r : SReg) (g : SegReg) : (setSeg s r g).segs = s.segs.set r g := rfl

@[simp] theorem setSeg_cpl (s : State) (r : SReg) (g : SegReg) : (setSeg s r g).cpl = s.cpl := rfl

@[simp] theorem setSeg_eip (s : State) (r : SReg) (g : SegReg) : (setSeg s r g).eip = s.eip := rfl

@[simp] theorem setSeg_eflags (s : State) (r : SReg) (g : SegReg) : (setSeg s r g).eflags = s.eflags := rfl

@[simp] theorem setSeg_gdtr (s : State) (r : SReg) (g : SegReg) : (setSeg s r g).gdtr = s.gdtr := rfl

@[simp] theorem setSeg_ldtr (s : State) (r : SReg) (g : SegReg) : (setSeg s r g).ldtr = s.ldtr := rfl

@[simp] theorem setSeg_idtr (s : State) (r : SReg) (g : SegReg) : (setSeg s r g).idtr = s.idtr := rfl

@[simp] theorem setSeg_tr (s : State) (r : SReg) (g : SegReg) : (setSeg s r g).tr = s.tr := rfl

@[simp] theorem setSeg_sys (s : State) (r : SReg) (g : SegReg) : (setSeg s r g).sys = s.sys := rfl

@[simp] theorem setSeg_mem (s : State) (r : SReg) (g : SegReg) : (setSeg s r g).mem = s.mem := rfl

@[simp] theorem setSeg_halted (s : State) (r : SReg) (g : SegReg) : (setSeg s r g).halted = s.halted := rfl

@[simp] theorem setSeg_stored (s : State) (r : SReg) (g : SegReg) : (setSeg s r g).stored = s.stored := rfl

@[simp] theorem setSeg_draws (s : State) (r : SReg) (g : SegReg) : (setSeg s r g).draws = s.draws := rfl

@[simp] theorem setSeg_params (s : State) (r : SReg) (g : SegReg) : (setSeg s r g).params = s.params := rfl

/-! ### `countDraw` -/

@[simp] theorem countDraw_regs (s : State) : (countDraw s).regs = s.regs := rfl

@[simp] theorem countDraw_segs (s : State) : (countDraw s).segs = s.segs := rfl

@[simp] theorem countDraw_cpl (s : State) : (countDraw s).cpl = s.cpl := rfl

@[simp] theorem countDraw_eip (s : State) : (countDraw s).eip = s.eip := rfl

@[simp] theorem countDraw_eflags (s : State) : (countDraw s).eflags = s.eflags := rfl

@[simp] theorem countDraw_gdtr (s : State) : (countDraw s).gdtr = s.gdtr := rfl

@[simp] theorem countDraw_ldtr (s : State) : (countDraw s).ldtr = s.ldtr := rfl

@[simp] theorem countDraw_idtr (s : State) : (countDraw s).idtr = s.idtr := rfl

@[simp] theorem countDraw_tr (s : State) : (countDraw s).tr = s.tr := rfl

@[simp] theorem countDraw_sys (s : State) : (countDraw s).sys = s.sys := rfl

@[simp] theorem countDraw_mem (s : State) : (countDraw s).mem = s.mem := rfl

@[simp] theorem countDraw_halted (s : State) : (countDraw s).halted = s.halted := rfl

@[simp] theorem countDraw_stored (s : State) : (countDraw s).stored = s.stored := rfl

@[simp] theorem countDraw_draws (s : State) : (countDraw s).draws = s.draws + 1 := rfl

@[simp] theorem countDraw_params (s : State) : (countDraw s).params = s.params := rfl

/-! ### `setZf` -/

@[simp] theorem setZf_regs (s : State) (z : Bool) : (setZf s z).regs = s.regs := rfl

@[simp] theorem setZf_segs (s : State) (z : Bool) : (setZf s z).segs = s.segs := rfl

@[simp] theorem setZf_cpl (s : State) (z : Bool) : (setZf s z).cpl = s.cpl := rfl

@[simp] theorem setZf_eip (s : State) (z : Bool) : (setZf s z).eip = s.eip := rfl

@[simp] theorem setZf_eflags (s : State) (z : Bool) : (setZf s z).eflags = withZf s.eflags z := rfl

@[simp] theorem setZf_gdtr (s : State) (z : Bool) : (setZf s z).gdtr = s.gdtr := rfl

@[simp] theorem setZf_ldtr (s : State) (z : Bool) : (setZf s z).ldtr = s.ldtr := rfl

@[simp] theorem setZf_idtr (s : State) (z : Bool) : (setZf s z).idtr = s.idtr := rfl

@[simp] theorem setZf_tr (s : State) (z : Bool) : (setZf s z).tr = s.tr := rfl

@[simp] theorem setZf_sys (s : State) (z : Bool) : (setZf s z).sys = s.sys := rfl

@[simp] theorem setZf_mem (s : State) (z : Bool) : (setZf s z).mem = s.mem := rfl

@[simp] theorem setZf_halted (s : State) (z : Bool) : (setZf s z).halted = s.halted := rfl

@[simp] theorem setZf_stored (s : State) (z : Bool) : (setZf s z).stored = s.stored := rfl

@[simp] theorem setZf_draws (s : State) (z : Bool) : (setZf s z).draws = s.draws := rfl

@[simp] theorem setZf_params (s : State) (z : Bool) : (setZf s z).params = s.params := rfl

/-! ### `linWrite8` -/

@[simp] theorem linWrite8_regs (s : State) (a : Word) (b : Byte) : (linWrite8 s a b).regs = s.regs := rfl

@[simp] theorem linWrite8_segs (s : State) (a : Word) (b : Byte) : (linWrite8 s a b).segs = s.segs := rfl

@[simp] theorem linWrite8_cpl (s : State) (a : Word) (b : Byte) : (linWrite8 s a b).cpl = s.cpl := rfl

@[simp] theorem linWrite8_eip (s : State) (a : Word) (b : Byte) : (linWrite8 s a b).eip = s.eip := rfl

@[simp] theorem linWrite8_eflags (s : State) (a : Word) (b : Byte) : (linWrite8 s a b).eflags = s.eflags := rfl

@[simp] theorem linWrite8_gdtr (s : State) (a : Word) (b : Byte) : (linWrite8 s a b).gdtr = s.gdtr := rfl

@[simp] theorem linWrite8_ldtr (s : State) (a : Word) (b : Byte) : (linWrite8 s a b).ldtr = s.ldtr := rfl

@[simp] theorem linWrite8_idtr (s : State) (a : Word) (b : Byte) : (linWrite8 s a b).idtr = s.idtr := rfl

@[simp] theorem linWrite8_tr (s : State) (a : Word) (b : Byte) : (linWrite8 s a b).tr = s.tr := rfl

@[simp] theorem linWrite8_sys (s : State) (a : Word) (b : Byte) : (linWrite8 s a b).sys = s.sys := rfl

@[simp] theorem linWrite8_mem (s : State) (a : Word) (b : Byte) : (linWrite8 s a b).mem = s.mem.write a.toNat b := rfl

@[simp] theorem linWrite8_halted (s : State) (a : Word) (b : Byte) : (linWrite8 s a b).halted = s.halted := rfl

@[simp] theorem linWrite8_stored (s : State) (a : Word) (b : Byte) : (linWrite8 s a b).stored = insertAddr a.toNat s.stored := rfl

@[simp] theorem linWrite8_draws (s : State) (a : Word) (b : Byte) : (linWrite8 s a b).draws = s.draws := rfl

@[simp] theorem linWrite8_params (s : State) (a : Word) (b : Byte) : (linWrite8 s a b).params = s.params := rfl

/-! ### `advance` -/

@[simp] theorem advance_regs (i : Instr) (s : State) : (advance i s).regs = s.regs := rfl

@[simp] theorem advance_segs (i : Instr) (s : State) : (advance i s).segs = s.segs := rfl

@[simp] theorem advance_cpl (i : Instr) (s : State) : (advance i s).cpl = s.cpl := rfl

@[simp] theorem advance_eip (i : Instr) (s : State) : (advance i s).eip = nextEip s i := rfl

@[simp] theorem advance_eflags (i : Instr) (s : State) : (advance i s).eflags = s.eflags := rfl

@[simp] theorem advance_gdtr (i : Instr) (s : State) : (advance i s).gdtr = s.gdtr := rfl

@[simp] theorem advance_ldtr (i : Instr) (s : State) : (advance i s).ldtr = s.ldtr := rfl

@[simp] theorem advance_idtr (i : Instr) (s : State) : (advance i s).idtr = s.idtr := rfl

@[simp] theorem advance_tr (i : Instr) (s : State) : (advance i s).tr = s.tr := rfl

@[simp] theorem advance_sys (i : Instr) (s : State) : (advance i s).sys = s.sys := rfl

@[simp] theorem advance_mem (i : Instr) (s : State) : (advance i s).mem = s.mem := rfl

@[simp] theorem advance_halted (i : Instr) (s : State) : (advance i s).halted = s.halted := rfl

@[simp] theorem advance_stored (i : Instr) (s : State) : (advance i s).stored = s.stored := rfl

@[simp] theorem advance_draws (i : Instr) (s : State) : (advance i s).draws = s.draws := rfl

@[simp] theorem advance_params (i : Instr) (s : State) : (advance i s).params = s.params := rfl

/-! ### Register files -/

@[simp] theorem Regs.get_set_same (g : Regs) (r : Reg) (v : Word) : (g.set r v).get r = v := by
  cases r <;> rfl

theorem Regs.get_set_other (g : Regs) {r q : Reg} (v : Word) (h : q ≠ r) : (g.set r v).get q = g.get q := by
  cases r <;> cases q <;> first | rfl | exact absurd rfl h

@[simp] theorem Segs.get_set_same (g : Segs) (r : SReg) (v : SegReg) : (g.set r v).get r = v := by
  cases r <;> rfl

theorem Segs.get_set_other (g : Segs) {r q : SReg} (v : SegReg) (h : q ≠ r) :
    (g.set r v).get q = g.get q := by
  cases r <;> cases q <;> first | rfl | exact absurd rfl h

/-- R27: a 16-bit write leaves the upper half of the register as it was. -/
theorem writeReg16_upper (s : State) (r : Reg) (v : Half) :
    ((writeReg16 s r v).regs.get r).extractLsb' 16 16 = (s.regs.get r).extractLsb' 16 16 := by
  simp only [writeReg16, setReg_regs, Regs.get_set_same]
  exact BitVec.extractLsb'_append_eq_left

/-- R27: a 16-bit write sets the lower half of the register. -/
theorem writeReg16_lower (s : State) (r : Reg) (v : Half) :
    ((writeReg16 s r v).regs.get r).extractLsb' 0 16 = v := by
  simp only [writeReg16, setReg_regs, Regs.get_set_same]
  exact BitVec.extractLsb'_append_eq_right

/-! ### ZF -/

/-- ZF after `ZF <- z`. -/
@[simp] theorem zf_setZf (s : State) (z : Bool) : zf (setZf s z) = z := by
  cases z <;> simp [zf, setZf, withZf]

/-- R26: every other flag is unchanged. -/
theorem setZf_other (s : State) (z : Bool) {k : Nat} (h : k ≠ 6) :
    (setZf s z).eflags.getLsbD k = s.eflags.getLsbD k := by
  by_cases hk : k < 32
  · have hm : (0xFFFFFFBF#32).getLsbD k = true := by
      interval_cases k <;> first | rfl | exact absurd rfl h
    have h0 : (0x40#32).getLsbD k = false := by
      interval_cases k <;> first | rfl | exact absurd rfl h
    cases z <;> simp [setZf, withZf, hm, h0]
  · rw [BitVec.getLsbD_of_ge _ _ (by omega), BitVec.getLsbD_of_ge _ _ (by omega)]

end Sys2Proof.Machine
end

