-- ==== Sys2Proof/Laws/Memory.lean ====
section
/-! SUPPORT. The memory laws: a read after a write, and every memory operation keeps the canonical form. -/

namespace Sys2Proof.Machine

/-! ### The canonical form -/

/-- A canonical list lists nothing below its bound. -/
theorem cellsWf_lower {lo lo' : Nat} {l : List Host.Cell} (h : cellsWf lo l = true) (hl : lo' ≤ lo) :
    cellsWf lo' l = true := by
  cases l with
  | nil => rfl
  | cons c t =>
    obtain ⟨k, b⟩ := c
    simp only [cellsWf, Bool.and_eq_true, decide_eq_true_eq] at h ⊢
    exact ⟨⟨⟨by omega, h.1.1.2⟩, h.1.2⟩, h.2⟩

/-- An address below a canonical list's bound is unlisted. -/
theorem readCells_below {lo a : Nat} {l : List Host.Cell} (h : cellsWf lo l = true) (ha : a < lo) :
    readCells l a = unlistedByte a := by
  induction l generalizing lo with
  | nil => rfl
  | cons c t ih =>
    obtain ⟨k, b⟩ := c
    simp only [cellsWf, Bool.and_eq_true, decide_eq_true_eq] at h
    have hk : k ≠ a := by omega
    simp only [readCells, hk, if_false]
    exact ih h.2 (by omega)

/-- Putting a byte before cells that lie above it keeps the form. -/
theorem consCell_wf {lo a : Nat} {v : Byte} {t : List Host.Cell} (h : cellsWf (a + 1) t = true) (hl : lo ≤ a)
    (ha : a < 2 ^ 32) : cellsWf lo (consCell a v t) = true := by
  unfold consCell
  split
  · exact cellsWf_lower h (by omega)
  · simp_all [cellsWf]

/-- A store keeps the canonical form. -/
theorem writeCells_wf {lo a : Nat} {v : Byte} {l : List Host.Cell} (h : cellsWf lo l = true) (hl : lo ≤ a)
    (ha : a < 2 ^ 32) : cellsWf lo (writeCells l a v) = true := by
  induction l generalizing lo with
  | nil => exact consCell_wf rfl hl ha
  | cons c t ih =>
    obtain ⟨k, b⟩ := c
    have h' := h
    simp only [cellsWf, Bool.and_eq_true, decide_eq_true_eq] at h'
    simp only [writeCells]
    split
    · refine consCell_wf ?_ hl ha
      simp only [cellsWf, Bool.and_eq_true, decide_eq_true_eq]
      exact ⟨⟨⟨by omega, h'.1.1.2⟩, h'.1.2⟩, h'.2⟩
    · split
      · next heq => subst heq; exact consCell_wf h'.2 hl ha
      · simp only [cellsWf, Bool.and_eq_true, decide_eq_true_eq]
        exact ⟨h'.1, ih h'.2 (by omega)⟩

/-- What a byte put before cells above it reads as. -/
theorem readCells_consCell {a : Nat} {v : Byte} {t : List Host.Cell} (h : cellsWf (a + 1) t = true) (b : Nat) :
    readCells (consCell a v t) b = if b = a then v else readCells t b := by
  unfold consCell
  split
  · next hv =>
    split
    · next hb => subst hb; rw [readCells_below h (by omega), hv]
    · rfl
  · by_cases hb : b = a
    · simp [readCells, hb]
    · simp [readCells, hb, Ne.symm hb]

/-- A read after a store, in canonical memory. -/
theorem readCells_writeCells {lo a : Nat} {v : Byte} {l : List Host.Cell} (h : cellsWf lo l = true) (b : Nat) :
    readCells (writeCells l a v) b = if b = a then v else readCells l b := by
  induction l generalizing lo with
  | nil => exact readCells_consCell rfl b
  | cons c t ih =>
    obtain ⟨k, w⟩ := c
    have h' := h
    simp only [cellsWf, Bool.and_eq_true, decide_eq_true_eq] at h'
    simp only [writeCells]
    split
    · refine readCells_consCell ?_ b
      simp only [cellsWf, Bool.and_eq_true, decide_eq_true_eq]
      exact ⟨⟨⟨by omega, h'.1.1.2⟩, h'.1.2⟩, h'.2⟩
    · split
      · next heq =>
        subst heq
        rw [readCells_consCell h'.2 b]
        by_cases hb : b = a
        · simp [hb]
        · simp [hb, readCells, Ne.symm hb]
      · next hlt hne =>
        by_cases hkb : k = b
        · subst hkb
          have : ¬ k = a := fun e => hne e.symm
          simp [readCells, this]
        · simp only [readCells, hkb, if_false]
          exact ih h'.2

/-- A read after a store: the value stored at its address, elsewhere as before. -/
theorem Memory.read_write {m : Memory} (h : m.wf = true) (a b : Nat) (v : Byte) :
    (m.write a v).read b = if b = a then v else m.read b := readCells_writeCells h b

/-- A store inside the address space keeps the canonical form. -/
theorem Memory.write_wf {m : Memory} (h : m.wf = true) {a : Nat} (v : Byte) (ha : a < 2 ^ 32) :
    (m.write a v).wf = true := writeCells_wf h (by omega) ha

/-! ### The set of stored addresses -/

/-- A strictly rising list stays one under a lower bound. -/
theorem addrsWf_lower {lo lo' : Nat} {l : List Nat} (h : addrsWf lo l = true) (hl : lo' ≤ lo) :
    addrsWf lo' l = true := by
  cases l with
  | nil => rfl
  | cons k t =>
    simp only [addrsWf, Bool.and_eq_true, decide_eq_true_eq] at h ⊢
    exact ⟨⟨by omega, h.1.2⟩, h.2⟩

/-- Adding an address keeps the form. -/
theorem insertAddr_wf {lo a : Nat} {l : List Nat} (h : addrsWf lo l = true) (hl : lo ≤ a) (ha : a < 2 ^ 32) :
    addrsWf lo (insertAddr a l) = true := by
  induction l generalizing lo with
  | nil => simp [insertAddr, addrsWf, hl]; omega
  | cons k t ih =>
    have h' := h
    simp only [addrsWf, Bool.and_eq_true, decide_eq_true_eq] at h'
    simp only [insertAddr]
    split
    · simp only [addrsWf, Bool.and_eq_true, decide_eq_true_eq]
      exact ⟨⟨hl, ha⟩, ⟨by omega, h'.1.2⟩, h'.2⟩
    · split
      · exact h
      · simp only [addrsWf, Bool.and_eq_true, decide_eq_true_eq]
        exact ⟨h'.1, ih h'.2 (by omega)⟩

/-- The addresses of a list with one added. -/
theorem mem_insertAddr {a b : Nat} {l : List Nat} : b ∈ insertAddr a l ↔ b = a ∨ b ∈ l := by
  induction l with
  | nil => simp [insertAddr]
  | cons k t ih =>
    simp only [insertAddr]
    split
    · simp
    · split
      · next h => subst h; simp
      · simp only [List.mem_cons, ih]; tauto

/-! ### The linear accesses -/

/-- A byte read after a byte store (R62, R81 (a)). -/
theorem linRead8_linWrite8 {s : State} (h : s.mem.wf = true) (a b : Word) (v : Byte) :
    linRead8 (linWrite8 s a v) b = if b = a then v else linRead8 s b := by
  simp only [linRead8, linWrite8_mem, Memory.read_write h, BitVec.toNat_inj]

/-- A byte store keeps the canonical form. -/
theorem linWrite8_wf {s : State} (h : s.mem.wf = true) (a : Word) (v : Byte) :
    (linWrite8 s a v).mem.wf = true := Memory.write_wf h v a.isLt

/-- A byte store keeps the stored set's form. -/
theorem linWrite8_stored_wf {s : State} (h : addrsWf 0 s.stored = true) (a : Word) (v : Byte) :
    addrsWf 0 (linWrite8 s a v).stored = true := insertAddr_wf h (Nat.zero_le _) a.isLt

/-- Byte stores keep the canonical form. -/
theorem linWriteBytes_wf {s : State} (h : s.mem.wf = true) (a : Word) (l : List Byte) :
    (linWriteBytes s a l).mem.wf = true := by
  induction l generalizing s a with
  | nil => exact h
  | cons b t ih => exact ih (linWrite8_wf h a b) (a + 1)

/-- Byte stores keep the stored set's form. -/
theorem linWriteBytes_stored_wf {s : State} (h : addrsWf 0 s.stored = true) (a : Word) (l : List Byte) :
    addrsWf 0 (linWriteBytes s a l).stored = true := by
  induction l generalizing s a with
  | nil => exact h
  | cons b t ih => exact ih (linWrite8_stored_wf h a b) (a + 1)

/-- Byte stores change memory and the stored set alone. -/
theorem linWriteBytes_frame (s : State) (a : Word) (l : List Byte) :
    linWriteBytes s a l =
      { s with mem := (linWriteBytes s a l).mem, stored := (linWriteBytes s a l).stored } := by
  induction l generalizing s a with
  | nil => rfl
  | cons b t ih => rw [linWriteBytes, ih (linWrite8 s a b) (a + 1)]; rfl

/-- Placing program text keeps the canonical form. -/
theorem placeBytes_wf {s : State} (h : s.mem.wf = true) (k : Nat) (l : List Byte) :
    (placeBytes s k l).mem.wf = true := by
  induction l generalizing s k with
  | nil => exact h
  | cons b t ih => exact ih (Memory.write_wf h b (fetchAddr s k).isLt) (k + 1)

/-- The reset memory is in canonical form. -/
theorem reset_mem_wf : State.reset.mem.wf = true := rfl

end Sys2Proof.Machine
end

