-- ==== Sys2Proof/Laws/Ops.lean ====
section
/-! SUPPORT. One lemma per shared operation: everything that holds when it answers. -/

namespace Sys2Proof.Machine

/-! ### Sequencing -/

/-- A sequence answers iff its first part does and the rest does on its answer. -/
theorem bind_ok {α β : Type} {x : Res α} {f : α → Res β} {b : β} :
    (x >>= f) = .ok b ↔ ∃ a, x = .ok a ∧ f a = .ok b := by
  cases x with
  | error e => exact ⟨fun h => (by cases h), fun ⟨_, h, _⟩ => (by cases h)⟩
  | ok a => exact ⟨fun h => ⟨a, rfl, h⟩, fun ⟨_, h, h'⟩ => (by cases h; exact h')⟩

/-- A check answers iff its condition fails. -/
theorem stopIf_ok {c : Prop} [Decidable c] {e : Stop} {u : Unit} : stopIf c e = .ok u ↔ ¬ c := by
  unfold stopIf; split <;> simp_all

/-- A passed check drops out of a sequence. -/
theorem stopIf_bind_ok {β : Type} {c : Prop} [Decidable c] {e : Stop} {f : Unit → Res β} {b : β} :
    (stopIf c e >>= f) = .ok b ↔ ¬ c ∧ f () = .ok b := by
  rw [bind_ok]
  exact ⟨fun ⟨_, h, h'⟩ => ⟨stopIf_ok.1 h, h'⟩, fun ⟨h, h'⟩ => ⟨(), stopIf_ok.2 h, h'⟩⟩

/-- A lookup answers what it finds. -/
theorem orStop_ok {α : Type} {o : Option α} {e : Stop} {a : α} : orStop o e = .ok a ↔ o = some a := by
  cases o <;> simp [orStop]

/-- A step answers a next state iff its operation answers that state. -/
theorem finish_next {x : Res State} {t : State} : finish x = .next t ↔ x = .ok t := by
  cases x with
  | ok s => simp [finish]
  | error e => cases e <;> simp [finish]

/-- A step faults iff its operation ends in that fault. -/
theorem finish_fault {x : Res State} {f : Fault} : finish x = .fault f ↔ x = .error (.fault f) := by
  cases x with
  | ok s => simp [finish]
  | error e => cases e <;> simp [finish]

/-- A step is refused iff its operation ends in that refusal. -/
theorem finish_refused {x : Res State} {r : Refusal} :
    finish x = .refused r ↔ x = .error (.refused r) := by
  cases x with
  | ok s => simp [finish]
  | error e => cases e <;> simp [finish]

/-- A check before the rest of a sequence: its stop, or the rest. -/
theorem stopIf_bind {β : Type} {c : Prop} [Decidable c] {e : Stop} {f : Unit → Res β} :
    (stopIf c e >>= f) = if c then .error e else f () := by
  unfold stopIf; split <;> rfl

/-- A table lookup before the rest of a sequence: its stop outside the table, or the rest on the descriptor. -/
theorem readDescriptor_bind {β : Type} {s : State} {sel : Half} {e : Stop} {f : Descriptor → Res β} :
    (orStop (readDescriptor s sel) e >>= f) = if inTable s sel then f (descOf s sel) else .error e := by
  unfold readDescriptor descOf; split <;> rfl

/-! ### Accesses -/

/-- `SegCheck` passes exactly where R70 permits the access. -/
theorem segCheck_ok {s : State} {r : SReg} {off : Word} {n : Nat} {k : Access} {u : Unit} :
    segCheck s r off n k = .ok u ↔ canAccess s r off n k = true := by
  simp only [segCheck, stopIf_bind_ok, stopIf_ok, canAccess, accessTypeOk]
  cases k <;> cases (s.segs.get r).attr.valid <;> cases (s.segs.get r).attr.writable <;>
    cases (s.segs.get r).attr.executable <;> cases (s.segs.get r).attr.readableCode <;> simp

/-- A limit violation raises a stack fault through SS and general protection otherwise (R72). -/
theorem limitException_eq (r : SReg) : limitException r = if r = .ss then .sf else .gp := by
  cases r <;> rfl

/-- `SegCheck` raises the access's fault exactly where R70 does not permit the access. -/
theorem segCheck_fault {s : State} {x : SegAccess} (h : permitted s x = false) :
    segCheck s x.seg x.off x.bytes x.kind = .error (.fault (accessFault s x)) := by
  obtain ⟨r, off, n, k⟩ := x
  simp only [permitted, canAccess, accessFault, accessTypeOk, segCheck, stopIf_bind, raise, limitException_eq,
    errorCode] at h ⊢
  simp only [stopIf]
  cases k <;> by_cases hr : r = .ss <;>
    rcases Bool.eq_false_or_eq_true (s.segs.get r).attr.valid with hv | hv <;>
    rcases Bool.eq_false_or_eq_true (s.segs.get r).attr.writable with hw | hw <;>
    rcases Bool.eq_false_or_eq_true (s.segs.get r).attr.executable with he | he <;>
    rcases Bool.eq_false_or_eq_true (s.segs.get r).attr.readableCode with hc | hc <;>
    simp_all [faultRecord]

/-- `MemRead(SREG, off, 2)` -/
theorem memRead16_ok {s : State} {r : SReg} {off : Word} {v : Half} :
    memRead16 s r off = .ok v ↔
      canAccess s r off 2 .read = true ∧ v = linRead16 s ((s.segs.get r).base + off) := by
  simp only [memRead16, bind_ok, segCheck_ok, linear, Except.ok.injEq]
  exact ⟨fun ⟨_, h, e⟩ => ⟨h, e.symm⟩, fun ⟨h, e⟩ => ⟨(), h, e.symm⟩⟩

/-- `MemRead(SREG, off, 4)` -/
theorem memRead32_ok {s : State} {r : SReg} {off : Word} {v : Word} :
    memRead32 s r off = .ok v ↔
      canAccess s r off 4 .read = true ∧ v = linRead32 s ((s.segs.get r).base + off) := by
  simp only [memRead32, bind_ok, segCheck_ok, linear, Except.ok.injEq]
  exact ⟨fun ⟨_, h, e⟩ => ⟨h, e.symm⟩, fun ⟨h, e⟩ => ⟨(), h, e.symm⟩⟩

/-- A word read that is not permitted raises its fault. -/
theorem memRead16_fault {s : State} {r : SReg} {off : Word}
    (h : permitted s { seg := r, off := off, bytes := 2, kind := .read } = false) :
    memRead16 s r off = .error (.fault (accessFault s { seg := r, off := off, bytes := 2, kind := .read })) := by
  have := segCheck_fault h
  simp only at this
  simp [memRead16, this, bind, Except.bind]

/-- A doubleword read that is not permitted raises its fault. -/
theorem memRead32_fault {s : State} {r : SReg} {off : Word}
    (h : permitted s { seg := r, off := off, bytes := 4, kind := .read } = false) :
    memRead32 s r off = .error (.fault (accessFault s { seg := r, off := off, bytes := 4, kind := .read })) := by
  have := segCheck_fault h
  simp only at this
  simp [memRead32, this, bind, Except.bind]

/-- The checks of a push pass exactly where the push is permitted. -/
theorem pushCheck_ok {s : State} {n : Nat} {u : Unit} : pushCheck s n = .ok u ↔ canPush s n = true := by
  simp [pushCheck, stopIf_bind_ok, segCheck_ok, canPush]

/-- `Push32(v)` -/
theorem push32_ok {s t : State} {v : Word} : push32 s v = .ok t ↔ canPush s 4 = true ∧ t = storePush s v := by
  simp only [push32, bind_ok, pushCheck_ok, Except.ok.injEq]
  exact ⟨fun ⟨_, h, e⟩ => ⟨h, e.symm⟩, fun ⟨h, e⟩ => ⟨(), h, e.symm⟩⟩

/-- `Pop32()` -/
theorem pop32_ok {s : State} {p : Word × State} :
    pop32 s = .ok p ↔
      canAccess s .ss s.regs.esp 4 .read = true ∧
        p = (linRead32 s (s.segs.ss.base + s.regs.esp), setEsp s (s.regs.esp + 4)) := by
  simp only [pop32, bind_ok, memRead32_ok, Except.ok.injEq, Segs.get]
  exact ⟨fun ⟨_, ⟨h, e⟩, e'⟩ => ⟨h, by rw [← e', e]⟩, fun ⟨h, e⟩ => ⟨_, ⟨h, rfl⟩, e.symm⟩⟩

/-! ### Operands -/

/-- An `r/m16` operand. -/
theorem readRM16_ok {s : State} {rm : RM} {v : Half} :
    readRM16 s rm = .ok v ↔ canReadRM16 s rm = true ∧ v = valueRM16 s rm := by
  cases rm with
  | reg r => simp only [readRM16, readReg16, canReadRM16, valueRM16, Except.ok.injEq]; grind
  | mem m => simp only [readRM16, memRead16_ok, canReadRM16, valueRM16]

/-- An `r/m32` operand. -/
theorem readRM32_ok {s : State} {rm : RM} {v : Word} :
    readRM32 s rm = .ok v ↔ canReadRM32 s rm = true ∧ v = valueRM32 s rm := by
  cases rm with
  | reg r => simp only [readRM32, readReg32, canReadRM32, valueRM32, Except.ok.injEq]; grind
  | mem m => simp only [readRM32, memRead32_ok, canReadRM32, valueRM32]

/-- An `m16:32` operand. -/
theorem readFarPtr_ok {s : State} {m : Mem} {p : FarPtr} :
    readFarPtr s m = .ok p ↔
      canReadFarPtr s m = true ∧ p = { sel := farPtrSel s m, off := farPtrOff s m } := by
  simp only [readFarPtr, bind_ok, memRead32_ok, memRead16_ok, canReadFarPtr, farPtrSel, farPtrOff,
    Bool.and_eq_true, Except.ok.injEq]
  exact ⟨fun ⟨_, ⟨h, e⟩, _, ⟨h', e'⟩, e''⟩ => ⟨⟨h, h'⟩, by rw [← e'', e, e']⟩,
    fun ⟨⟨h, h'⟩, e⟩ => ⟨_, ⟨h, rfl⟩, _, ⟨h', rfl⟩, e.symm⟩⟩

/-- An `m16&32` operand. -/
theorem readTableOperand_ok {s : State} {m : Mem} {t : TableReg} :
    readTableOperand s m = .ok t ↔ canReadTable s m = true ∧ t = tableValue s m := by
  simp only [readTableOperand, bind_ok, memRead32_ok, memRead16_ok, canReadTable, tableValue,
    Bool.and_eq_true, Except.ok.injEq]
  exact ⟨fun ⟨_, ⟨h, e⟩, _, ⟨h', e'⟩, e''⟩ => ⟨⟨h, h'⟩, by rw [← e'', e, e']⟩,
    fun ⟨⟨h, h'⟩, e⟩ => ⟨_, ⟨h, rfl⟩, _, ⟨h', rfl⟩, e.symm⟩⟩

/-! ### Descriptors and loads -/

/-- `ReadDescriptor(sel)` -/
theorem readDescriptor_some {s : State} {sel : Half} {d : Descriptor} :
    readDescriptor s sel = some d ↔ inTable s sel = true ∧ d = descOf s sel := by
  unfold readDescriptor descOf
  split
  · next h => simp only [h, true_and, Option.some.injEq]; exact eq_comm
  · next h => simp [h]

/-- A table lookup that must succeed. -/
theorem readDescriptor_ok {s : State} {sel : Half} {e : Stop} {d : Descriptor} :
    orStop (readDescriptor s sel) e = .ok d ↔ inTable s sel = true ∧ d = descOf s sel := by
  rw [orStop_ok, readDescriptor_some]

/-- The larger of two levels is at most a third iff both are. -/
theorem maxLevel_le {a b c : Level} : maxLevel a b ≤ c ↔ a ≤ c ∧ b ≤ c := by
  revert a b c; decide

/-- The checks of `LoadDataSeg` pass exactly on the descriptors R121 and R122 admit. -/
theorem dataSegChecks_ok {s : State} {sel : Half} {d : Descriptor} (hn : isNull sel = false) :
    dataSegChecks s sel = .ok d ↔ canLoadData s sel = true ∧ d = descOf s sel := by
  simp only [dataSegChecks, bind_ok, stopIf_ok, exists_const, readDescriptor_ok, Except.ok.injEq, canLoadData, hn,
    Bool.false_or]
  constructor
  · rintro ⟨_, ⟨h1, rfl⟩, h2, h3, h4, h5, rfl⟩
    refine ⟨?_, rfl⟩
    simp only [BitVec.not_lt, not_and, maxLevel_le] at h4
    simp only [SegAttr.data, SegAttr.readableCode, SegAttr.executable] at *
    simp_all
    grind
  · rintro ⟨h, rfl⟩
    simp only [SegAttr.data, SegAttr.readableCode, SegAttr.executable, Bool.and_eq_true,
      Bool.or_eq_true, Bool.not_eq_true', decide_eq_true_eq] at h
    refine ⟨_, ⟨h.1.1.1, rfl⟩, ?_, ?_, ?_, ?_, rfl⟩
    · grind
    · simp only [SegAttr.readableCode, SegAttr.executable, Bool.and_eq_true, Bool.and_eq_false_iff]
      grind
    · simp only [not_and, BitVec.not_lt, maxLevel_le]
      grind
    · simp [h.2]

/-- The checks of `LoadSS` pass exactly on the descriptors R123 admits. -/
theorem ssChecks_ok {s : State} {sel : Half} {d : Descriptor} :
    ssChecks s sel = .ok d ↔ canLoadSs s sel = true ∧ d = descOf s sel := by
  simp only [ssChecks, bind_ok, stopIf_ok, exists_const, readDescriptor_ok, Except.ok.injEq, canLoadSs,
    Bool.and_eq_true, beq_iff_eq, Bool.not_eq_true', ne_eq, not_not]
  constructor
  · rintro ⟨h0, _, ⟨h1, rfl⟩, h2, h3, h4, h5, h6, rfl⟩
    simp_all
  · rintro ⟨⟨⟨⟨⟨⟨⟨h0, h1⟩, h2⟩, h3⟩, h4⟩, h5⟩, h6⟩, rfl⟩
    refine ⟨by simp [h0], _, ⟨h1, rfl⟩, h2, by simp [h3], h4, by simp [h5], by simp [h6], rfl⟩

/-- A program's load of a segment register: permitted, and what it leaves (R129). -/
theorem loadSreg_ok {s t : State} {r : SReg} {sel : Half} (h : loadSreg s r sel = .ok t) :
    canLoad s r sel = true ∧
      ((isNull sel = true ∧ t = setSeg s r (loadedSeg s r sel)) ∨
        (isNull sel = false ∧ t = setSeg (setAccessed s sel (descOf s sel)) r (loadedSeg s r sel))) := by
  have data : ∀ r, loadData s r sel = .ok t → canLoadData s sel = true ∧
      ((isNull sel = true ∧ t = setSeg s r (loadedSeg s r sel)) ∨
        (isNull sel = false ∧ t = setSeg (setAccessed s sel (descOf s sel)) r (loadedSeg s r sel))) := by
    intro r h
    unfold loadData at h
    split at h
    · next hn =>
      cases h
      exact ⟨by simp [canLoadData, hn], .inl ⟨hn, by simp [loadNull, loadedSeg, hn, SegReg.nulled]⟩⟩
    · next hn =>
      simp only [Bool.not_eq_true] at hn
      simp only [loadDataSeg, bind_ok, dataSegChecks_ok hn, Except.ok.injEq] at h
      obtain ⟨_, ⟨hc, rfl⟩, rfl⟩ := h
      exact ⟨hc, .inr ⟨hn, by simp [commitSeg, loadedSeg, hn, Descriptor.segReg]⟩⟩
  cases r with
  | cs => cases h
  | ss =>
    simp only [loadSreg, loadSs, bind_ok, ssChecks_ok, Except.ok.injEq] at h
    obtain ⟨_, ⟨hc, rfl⟩, rfl⟩ := h
    have hn : isNull sel = false := by
      simp only [canLoadSs, Bool.and_eq_true, Bool.not_eq_true'] at hc; exact hc.1.1.1.1.1.1
    exact ⟨hc, .inr ⟨hn, by simp [commitSeg, loadedSeg, hn, Descriptor.segReg]⟩⟩
  | es => exact data _ h
  | ds => exact data _ h
  | fs => exact data _ h
  | gs => exact data _ h

/-- The accessed-bit update changes memory and the stored set alone (R133). -/
theorem setAccessed_frame (s : State) (sel : Half) (d : Descriptor) :
    setAccessed s sel d =
      { s with mem := (setAccessed s sel d).mem, stored := (setAccessed s sel d).stored } := by
  unfold setAccessed; split <;> rfl

/-- The accessed-bit update keeps the canonical forms. -/
theorem setAccessed_memOk {s : State} (h : s.MemOk) (sel : Half) (d : Descriptor) :
    (setAccessed s sel d).MemOk := by
  unfold setAccessed
  split
  · exact ⟨linWrite8_wf h.1 _ _, linWrite8_stored_wf h.2 _ _⟩
  · exact h

/-- `LoadCS` leaves the CPL in the RPL field of CS's selector (R36, R166). -/
theorem selRpl_withRpl (sel : Half) (p : Level) : selRpl (withRpl sel p) = p :=
  BitVec.extractLsb'_append_eq_right

/-! ### Pushes -/

/-- A push changes ESP, memory and the stored set alone (R78). -/
theorem storePush_frame (s : State) (v : Word) :
    storePush s v =
      { s with
        regs := { s.regs with esp := s.regs.esp - 4 }
        mem := (storePush s v).mem
        stored := (storePush s v).stored } := by
  unfold storePush linWrite32
  rw [linWriteBytes_frame]
  rfl

/-- A push keeps the canonical forms. -/
theorem storePush_memOk {s : State} (h : s.MemOk) (v : Word) : (storePush s v).MemOk :=
  ⟨linWriteBytes_wf h.1 _ _, linWriteBytes_stored_wf h.2 _ _⟩

/-! ### Gates and stack switches -/

/-- The checks on a gate and its target: what R192 and R193 require, and the target they give. -/
theorem gateChecks_ok {s : State} {k : FarKind} {sel : Half} {g : Descriptor} {t : GateTarget}
    (h : gateChecks s k sel g = .ok t) :
    gateOk s.cpl sel g.attr = true ∧ g.attr.p = true ∧ isNull g.gateSelector = false ∧
      inTable s g.gateSelector = true ∧ t = { sel := g.gateSelector, desc := descOf s g.gateSelector } ∧
      t.desc.attr.executable = true ∧ targetOk s.cpl k t.desc.attr = true ∧ t.desc.attr.p = true ∧
      t.desc.attr.db = true ∧ g.gateOffset ≤ t.desc.effLimit := by
  simp only [gateChecks, bind_ok, stopIf_ok, exists_const, readDescriptor_ok, farTargetCheck, Except.ok.injEq] at h
  obtain ⟨h1, h2, h3, _, ⟨h4, rfl⟩, h5, h6, h7, h8, h9, rfl⟩ := h
  simp only [Bool.not_eq_true, Bool.not_eq_false, BitVec.not_lt] at *
  simp_all

/-- The new stack of level `p`: what R198 requires, and the stack it gives. -/
theorem newStack_ok {s : State} {p : Level} {n : StackPtr} (h : newStack s p = .ok n) :
    isTss286 s.tr.typ = false ∧ 8 * p.toNat + 11 ≤ s.tr.limit.toNat ∧ isNull n.sel = false ∧
      inTable s n.sel = true ∧ n.desc = descOf s n.sel ∧ selRpl n.sel = p ∧ n.desc.attr.dpl = p ∧
      n.desc.attr.writable = true ∧ n.desc.attr.p = true ∧ n.desc.attr.db = true ∧
      n.sel = linRead16 s (tssStackAddr s p + 4) ∧ n.esp = linRead32 s (tssStackAddr s p) := by
  simp only [newStack, bind_ok, stopIf_ok, exists_const, readDescriptor_ok, Except.ok.injEq] at h
  obtain ⟨h1, h2, h3, _, ⟨h4, rfl⟩, h5, h6, h7, h8, h9, rfl⟩ := h
  simp only [Bool.not_eq_true, Bool.not_eq_false, not_not, not_lt] at *
  simp_all

/-! ### Far returns -/

/-- The checks on the return CS: rows 4 to 8 of Table 6-3 (R222, R225). -/
theorem returnCsChecks_ok {s : State} {sel : Half} {d : Descriptor} (h : returnCsChecks s sel = .ok d) :
    isNull sel = false ∧ inTable s sel = true ∧ d = descOf s sel ∧ d.attr.executable = true ∧
      d.attr.p = true ∧ (d.attr.conforming = false → d.attr.dpl = selRpl sel) ∧
      (d.attr.conforming = true → d.attr.dpl ≤ selRpl sel) := by
  simp only [returnCsChecks, bind_ok, stopIf_ok, exists_const, readDescriptor_ok, Except.ok.injEq] at h
  obtain ⟨h1, _, ⟨h2, rfl⟩, h3, h4, h5, h6, rfl⟩ := h
  simp only [Bool.not_eq_true, Bool.not_eq_false, not_and, not_not, BitVec.not_lt] at *
  simp_all

/-- The checks on the return SS: rows 10 to 15 of Table 6-3 (R225). -/
theorem returnSsChecks_ok {s : State} {sel : Half} {p : Level} {d : Descriptor}
    (h : returnSsChecks s sel p = .ok d) :
    isNull sel = false ∧ inTable s sel = true ∧ d = descOf s sel ∧ d.attr.writable = true ∧
      d.attr.p = true ∧ d.attr.dpl = p ∧ selRpl sel = p := by
  simp only [returnSsChecks, bind_ok, stopIf_ok, exists_const, readDescriptor_ok, Except.ok.injEq] at h
  obtain ⟨h1, _, ⟨h2, rfl⟩, h3, h4, h5, h6, rfl⟩ := h
  simp only [Bool.not_eq_true, Bool.not_eq_false, not_not] at *
  simp_all

/-! ### The forms of one instruction -/

/-- Every far JMP or CALL that reaches a selector and offset is one `FarTransfer` of them (R163). -/
theorem exec_reachesFar {s : State} {k : FarKind} {i : Instr} {sel : Half} {off : Word}
    (h : reachesFar s k i sel off) :
    exec i s = finish (farTransfer s k { sel := sel, off := off } (nextEip s i)) := by
  cases k <;> rcases h with rfl | ⟨m, rfl, hc, rfl, rfl⟩
  · rfl
  · simp only [exec, execJmpMem, readFarPtr_ok.2 ⟨hc, rfl⟩, bind, Except.bind]
  · rfl
  · simp only [exec, execCallMem, readFarPtr_ok.2 ⟨hc, rfl⟩, bind, Except.bind]

/-- A far transfer whose selector names a 386 call gate goes through it (R163, R191). -/
theorem farTransfer_gate {s : State} {k : FarKind} {sel : Half} {off ret : Word} (hn : isNull sel = false)
    (ht : inTable s sel = true) (hs : (descOf s sel).attr.s = false) (hy : (descOf s sel).attr.typ = 0xC) :
    farTransfer s k { sel := sel, off := off } ret = farGate s k sel ret (descOf s sel) := by
  simp [farTransfer, stopIf_bind, readDescriptor_bind, hn, ht, SegAttr.executable, SegAttr.data, hs, farSystem,
    Descriptor.sysType, hy, Machine.sysType]

/-- Every instruction that loads a segment register is that load and then an update of its result (R129 to
R131). -/
theorem exec_loadsSreg {s : State} {i : Instr} {r : SReg} {sel : Half} (h : loadsSreg s i r sel) :
    ∃ f : State → State, exec i s = finish (loadSreg s r sel >>= fun t => .ok (f t)) := by
  rcases h with ⟨rm, rfl, hc, rfl⟩ | ⟨hm, hc, rfl⟩ | ⟨dst, m, hm, hc, rfl⟩
  · exact ⟨_, by simp only [exec, execMovSreg, readRM16_ok.2 ⟨hc, rfl⟩]; rfl⟩
  · simp only [List.mem_cons, Prod.mk.injEq, List.not_mem_nil, or_false] at hm
    rcases hm with ⟨rfl, rfl⟩ | ⟨rfl, rfl⟩ | ⟨rfl, rfl⟩ | ⟨rfl, rfl⟩ | ⟨rfl, rfl⟩ <;>
      exact ⟨_, by
        simp only [exec, execPopDs, execPopEs, execPopSs, execPopFs, execPopGs, popSreg,
          memRead32_ok.2 ⟨hc, rfl⟩]; rfl⟩
  · simp only [List.mem_cons, Prod.mk.injEq, List.not_mem_nil, or_false] at hm
    rcases hm with ⟨rfl, rfl⟩ | ⟨rfl, rfl⟩ | ⟨rfl, rfl⟩ | ⟨rfl, rfl⟩ | ⟨rfl, rfl⟩ <;>
      exact ⟨_, by
        simp only [exec, execLds, execLes, execLss, execLfs, execLgs, loadFarPtr, readFarPtr_ok.2 ⟨hc, rfl⟩]
        rfl⟩

/-! ### The stored set -/

/-- The addresses stored to after byte stores: those from before and the bytes stored to (R347). -/
theorem mem_linWriteBytes_stored {s : State} {a : Word} {l : List Byte} {k : Nat} :
    k ∈ (linWriteBytes s a l).stored ↔ k ∈ s.stored ∨ ∃ b : Word, k = b.toNat ∧ inBytes a l.length b := by
  induction l generalizing s a with
  | nil => simp [linWriteBytes, inBytes]
  | cons v t ih =>
    have shift : ∀ j : Nat, (1 : Word) + BitVec.ofNat 32 j = BitVec.ofNat 32 (j + 1) := fun j => by
      rw [BitVec.ofNat_add, BitVec.add_comm]; rfl
    have step : ∀ b : Word, inBytes a (t.length + 1) b ↔ b = a ∨ inBytes (a + 1) t.length b := by
      intro b
      constructor
      · rintro ⟨j, hj, rfl⟩
        cases j with
        | zero => exact .inl (by simp)
        | succ j => exact .inr ⟨j, by omega, by rw [BitVec.add_assoc, shift]⟩
      · rintro (rfl | ⟨j, hj, rfl⟩)
        · exact ⟨0, by omega, by simp⟩
        · exact ⟨j + 1, by omega, by rw [BitVec.add_assoc, shift]⟩
    simp only [linWriteBytes, ih, linWrite8_stored, mem_insertAddr, List.length_cons, step]
    constructor
    · rintro ((h | h) | ⟨b, hb, h⟩)
      · exact .inr ⟨a, h, .inl rfl⟩
      · exact .inl h
      · exact .inr ⟨b, hb, .inr h⟩
    · rintro (h | ⟨b, hb, rfl | h⟩)
      · exact .inl (.inr h)
      · exact .inl (.inl hb)
      · exact .inr ⟨b, hb, h⟩

/-- The addresses stored to after the accessed-bit update of a load (R133, R347). -/
theorem mem_setAccessed_stored {s : State} {sel : Half} {k : Nat} :
    k ∈ (setAccessed s sel (descOf s sel)).stored ↔
      k ∈ s.stored ∨ setsAccessedBit s sel = true ∧ k = (accessAddr s sel).toNat := by
  unfold setAccessed setsAccessedBit accessAddr
  cases s.params.setsAccessed <;> cases (descOf s sel).attr.accessed <;> simp [mem_insertAddr, or_comm]

/-! ### Privileged instructions and fetching -/

/-- A privileged instruction answers only at CPL 0, and what its effect answers (R251). -/
theorem privileged_ok {s t : State} {e : Res State} :
    privileged s e = .ok t ↔ s.cpl = 0 ∧ s.params.privilegedAtZero ≠ .refused ∧ e = .ok t := by
  simp only [privileged, privCheck, stopIf_bind_ok, ne_eq, not_not]

/-- The bytes at CS:EIP make the instruction that those within CS's limit decode to, none of them stored to (R80,
R347). -/
theorem fetchDecoded_ok {s : State} {i : Instr} :
    fetchDecoded s = .ok i ↔
      ∃ rest, decode (fetchBytes s) = .ok (i, rest) ∧ fetchTouchesStored s i.length = false := by
  unfold fetchDecoded
  split
  · next j rest hd =>
    simp only [stopIf_bind_ok, Except.ok.injEq, hd, Prod.mk.injEq, Bool.not_eq_true]
    exact ⟨fun ⟨h, e⟩ => ⟨rest, ⟨e, rfl⟩, e ▸ h⟩, fun ⟨_, ⟨e, _⟩, h⟩ => ⟨e ▸ h, e⟩⟩
  · next hd =>
    simp only [stopIf_bind_ok, hd, reduceCtorEq, and_false, false_and, exists_false]
  · next hd => simp only [hd, reduceCtorEq, false_and, exists_false]

/-- A fetch answers that instruction where no prefix that the parameter refuses stands at CS:EIP (R80, R92, R347). -/
theorem fetch_ok {s : State} {i : Instr} :
    fetch s = .ok i ↔
      refusedOverride s = none ∧
        ∃ rest, decode (fetchBytes s) = .ok (i, rest) ∧ fetchTouchesStored s i.length = false := by
  unfold fetch
  split
  · next h => simp [h]
  · next h => simp [h, fetchDecoded_ok]

/-- Where segment overrides are executed, none is refused (R92). -/
@[simp] theorem refusedOverride_executed {s : State} (h : s.params.segmentOverride = .executed) :
    refusedOverride s = none := by
  simp [refusedOverride, h]

/-- One step outside `Halted` that answers executed the instruction fetched. -/
theorem step_next {s t : State} (hh : s.halted = false) (h : step s = .next t) :
    ∃ i, modeChecks s = .ok () ∧ fetch s = .ok i ∧ exec i s = .next t := by
  unfold step at h
  rw [hh] at h
  simp only [Bool.false_eq_true, if_false] at h
  split at h
  · next i hi =>
    obtain ⟨_, hm, hf⟩ := bind_ok.1 hi
    exact ⟨i, hm, hf, h⟩
  · next e _ => cases finish_next.1 h

/-- A property that holds of a state and that every step keeps holds along every run. -/
theorem run_keeps {P : State → Prop} (hstep : ∀ s t, P s → step s = .next t → P t) (k : Nat) {s t : State}
    (hs : P s) (h : (Host.Core.run core k s : Host.Outcome State Fault Refusal) = .next t) : P t := by
  induction k generalizing s with
  | zero => cases h; exact hs
  | succ k ih =>
    simp only [Host.Core.run] at h
    split at h
    · next s' hs' => exact ih (hstep s s' hs hs') h
    · cases h
    · cases h

end Sys2Proof.Machine
end

