-- ==== Sys2Proof/Laws/PerInstr.lean ====
section
/-! SUPPORT. Statements made of every instruction, one lemma per constructor. -/

namespace Sys2Proof.Laws

/-! ### How long parts of an encoding are -/

/-- A doubleword is four bytes. -/
@[simp] theorem length_bytes32 (v : Word) : (bytes32 v).length = 4 := rfl

/-- A word is two bytes. -/
@[simp] theorem length_bytes16 (v : Half) : (bytes16 v).length = 2 := rfl

/-- A displacement is at most four bytes (R91). -/
theorem length_encodeDisp (d : Disp) : (encodeDisp d).length ≤ 4 := by
  cases d <;> simp [encodeDisp]

/-- A memory operand is a ModRM byte, at most a SIB byte, and a displacement (R91). -/
theorem length_encodeAddr (r : BitVec 3) (a : Addr) :
    1 ≤ (encodeAddr r a).length ∧ (encodeAddr r a).length ≤ 6 := by
  cases a with
  | base b d => have := length_encodeDisp d; simp [encodeAddr]; omega
  | abs d => simp [encodeAddr]
  | sib b x d => have := length_encodeDisp d; simp [encodeAddr]; omega
  | sibAbs x d => simp [encodeAddr]

/-- An `r/m` operand likewise. -/
theorem length_encodeRM (r : BitVec 3) (rm : RM) : 1 ≤ (encodeRM r rm).length ∧ (encodeRM r rm).length ≤ 6 := by
  cases rm with
  | reg g => simp [encodeRM]
  | mem m => exact length_encodeAddr r m.addr

/-- At most one prefix byte. -/
theorem length_encodeOver (i : Instr) : (encodeOver i).length ≤ 1 := by
  unfold encodeOver
  split
  · split <;> simp
  · simp

/-! ### The length of an instruction (R91) -/

/-- An instruction is one to nine bytes long: at most a prefix byte, two opcode bytes, a ModRM and a SIB byte and
a four-byte displacement, or an opcode byte and six immediate bytes. -/
def EncodedLength.Statement (i : Instr) : Prop := 1 ≤ i.length ∧ i.length ≤ 9

/-- The length is that of the prefix and of the rest. -/
theorem EncodedLength.of_body {i : Instr} (h : 1 ≤ (encodeBody i).length ∧ (encodeBody i).length ≤ 8) :
    EncodedLength.Statement i := by
  have := length_encodeOver i
  simp only [EncodedLength.Statement, Instr.length, encode, List.length_append]
  omega

theorem EncodedLength.jmpRel8 (rel : Byte) : EncodedLength.Statement (.jmpRel8 rel) := of_body (by simp [encodeBody])

theorem EncodedLength.jmpRel32 (rel : Word) : EncodedLength.Statement (.jmpRel32 rel) := of_body (by simp [encodeBody])

theorem EncodedLength.jmpRm32 (rm : RM) : EncodedLength.Statement (.jmpRm32 rm) := by
  have := length_encodeRM 4 rm
  exact of_body (by simp only [encodeBody, List.length_cons]; omega)

theorem EncodedLength.jmpPtr (off : Word) (sel : Half) : EncodedLength.Statement (.jmpPtr off sel) := of_body (by simp [encodeBody])

theorem EncodedLength.jmpMem (m : Mem) : EncodedLength.Statement (.jmpMem m) := by
  have := length_encodeAddr 5 m.addr
  exact of_body (by simp only [encodeBody, List.length_cons]; omega)

theorem EncodedLength.callRel32 (rel : Word) : EncodedLength.Statement (.callRel32 rel) := of_body (by simp [encodeBody])

theorem EncodedLength.callRm32 (rm : RM) : EncodedLength.Statement (.callRm32 rm) := by
  have := length_encodeRM 2 rm
  exact of_body (by simp only [encodeBody, List.length_cons]; omega)

theorem EncodedLength.callPtr (off : Word) (sel : Half) : EncodedLength.Statement (.callPtr off sel) := of_body (by simp [encodeBody])

theorem EncodedLength.callMem (m : Mem) : EncodedLength.Statement (.callMem m) := by
  have := length_encodeAddr 3 m.addr
  exact of_body (by simp only [encodeBody, List.length_cons]; omega)

theorem EncodedLength.ret : EncodedLength.Statement (.ret) := of_body (by simp [encodeBody])

theorem EncodedLength.retImm (n : Half) : EncodedLength.Statement (.retImm n) := of_body (by simp [encodeBody])

theorem EncodedLength.retf : EncodedLength.Statement (.retf) := of_body (by simp [encodeBody])

theorem EncodedLength.retfImm (n : Half) : EncodedLength.Statement (.retfImm n) := of_body (by simp [encodeBody])

theorem EncodedLength.movSreg (dst : SReg) (rm : RM) : EncodedLength.Statement (.movSreg dst rm) := by
  have := length_encodeRM (sregNum dst) rm
  exact of_body (by simp only [encodeBody, List.length_cons]; omega)

theorem EncodedLength.popDs : EncodedLength.Statement (.popDs) := of_body (by simp [encodeBody])

theorem EncodedLength.popEs : EncodedLength.Statement (.popEs) := of_body (by simp [encodeBody])

theorem EncodedLength.popSs : EncodedLength.Statement (.popSs) := of_body (by simp [encodeBody])

theorem EncodedLength.popFs : EncodedLength.Statement (.popFs) := of_body (by simp [encodeBody])

theorem EncodedLength.popGs : EncodedLength.Statement (.popGs) := of_body (by simp [encodeBody])

theorem EncodedLength.lds (dst : Reg) (m : Mem) : EncodedLength.Statement (.lds dst m) := by
  have := length_encodeAddr (regNum dst) m.addr
  exact of_body (by simp only [encodeBody, List.length_cons]; omega)

theorem EncodedLength.les (dst : Reg) (m : Mem) : EncodedLength.Statement (.les dst m) := by
  have := length_encodeAddr (regNum dst) m.addr
  exact of_body (by simp only [encodeBody, List.length_cons]; omega)

theorem EncodedLength.lss (dst : Reg) (m : Mem) : EncodedLength.Statement (.lss dst m) := by
  have := length_encodeAddr (regNum dst) m.addr
  exact of_body (by simp only [encodeBody, List.length_cons]; omega)

theorem EncodedLength.lfs (dst : Reg) (m : Mem) : EncodedLength.Statement (.lfs dst m) := by
  have := length_encodeAddr (regNum dst) m.addr
  exact of_body (by simp only [encodeBody, List.length_cons]; omega)

theorem EncodedLength.lgs (dst : Reg) (m : Mem) : EncodedLength.Statement (.lgs dst m) := by
  have := length_encodeAddr (regNum dst) m.addr
  exact of_body (by simp only [encodeBody, List.length_cons]; omega)

theorem EncodedLength.clts : EncodedLength.Statement (.clts) := of_body (by simp [encodeBody])

theorem EncodedLength.hlt : EncodedLength.Statement (.hlt) := of_body (by simp [encodeBody])

theorem EncodedLength.lgdt (m : Mem) : EncodedLength.Statement (.lgdt m) := by
  have := length_encodeAddr 2 m.addr
  exact of_body (by simp only [encodeBody, List.length_cons]; omega)

theorem EncodedLength.lidt (m : Mem) : EncodedLength.Statement (.lidt m) := by
  have := length_encodeAddr 3 m.addr
  exact of_body (by simp only [encodeBody, List.length_cons]; omega)

theorem EncodedLength.lldt (rm : RM) : EncodedLength.Statement (.lldt rm) := by
  have := length_encodeRM 2 rm
  exact of_body (by simp only [encodeBody, List.length_cons]; omega)

theorem EncodedLength.lmsw (rm : RM) : EncodedLength.Statement (.lmsw rm) := by
  have := length_encodeRM 6 rm
  exact of_body (by simp only [encodeBody, List.length_cons]; omega)

theorem EncodedLength.ltr (rm : RM) : EncodedLength.Statement (.ltr rm) := by
  have := length_encodeRM 3 rm
  exact of_body (by simp only [encodeBody, List.length_cons]; omega)

theorem EncodedLength.movFromCr (dst : Reg) (n : BitVec 3) : EncodedLength.Statement (.movFromCr dst n) := of_body (by simp [encodeBody])

theorem EncodedLength.movToCr (n : BitVec 3) (src : Reg) : EncodedLength.Statement (.movToCr n src) := of_body (by simp [encodeBody])

theorem EncodedLength.movFromDr (dst : Reg) (n : BitVec 3) : EncodedLength.Statement (.movFromDr dst n) := of_body (by simp [encodeBody])

theorem EncodedLength.movToDr (n : BitVec 3) (src : Reg) : EncodedLength.Statement (.movToDr n src) := of_body (by simp [encodeBody])

theorem EncodedLength.movFromTr (dst : Reg) (n : BitVec 3) : EncodedLength.Statement (.movFromTr dst n) := of_body (by simp [encodeBody])

theorem EncodedLength.movToTr (n : BitVec 3) (src : Reg) : EncodedLength.Statement (.movToTr n src) := of_body (by simp [encodeBody])

theorem EncodedLength.lar (dst : Reg) (rm : RM) : EncodedLength.Statement (.lar dst rm) := by
  have := length_encodeRM (regNum dst) rm
  exact of_body (by simp only [encodeBody, List.length_cons]; omega)

theorem EncodedLength.lsl (dst : Reg) (rm : RM) : EncodedLength.Statement (.lsl dst rm) := by
  have := length_encodeRM (regNum dst) rm
  exact of_body (by simp only [encodeBody, List.length_cons]; omega)

theorem EncodedLength.verr (rm : RM) : EncodedLength.Statement (.verr rm) := by
  have := length_encodeRM 4 rm
  exact of_body (by simp only [encodeBody, List.length_cons]; omega)

theorem EncodedLength.verw (rm : RM) : EncodedLength.Statement (.verw rm) := by
  have := length_encodeRM 5 rm
  exact of_body (by simp only [encodeBody, List.length_cons]; omega)

theorem EncodedLength.arpl (rm : RM) (src : Reg) : EncodedLength.Statement (.arpl rm src) := by
  have := length_encodeRM (regNum src) rm
  exact of_body (by simp only [encodeBody, List.length_cons]; omega)

theorem EncodedLength.int3 : EncodedLength.Statement (.int3) := of_body (by simp [encodeBody])

theorem EncodedLength.intImm (n : Byte) : EncodedLength.Statement (.intImm n) := of_body (by simp [encodeBody])

theorem EncodedLength.into : EncodedLength.Statement (.into) := of_body (by simp [encodeBody])

theorem EncodedLength.iret : EncodedLength.Statement (.iret) := of_body (by simp [encodeBody])

end Sys2Proof.Laws
end

