-- ==== Sys2Proof/Tests/Slice0.lean ====
section
/-! SUPPORT. Tests: well-formedness refusals, words written out from the encodings of `30_encoding.md`, one-step
tests from the vectors of `95_test_vectors.md`, and a witness for the hypotheses of each obligation. -/

namespace Sys2Proof.Tests

open Sys2Proof Sys2Proof.Machine

/-! ### Helpers -/

/-- The next state of an outcome. -/
def nextOf (o : Host.Outcome State Fault Refusal) : Option State :=
  match o with
  | .next s => some s
  | .fault _ | .refused _ => none

/-- The fault of an outcome. -/
def faultOf (o : Host.Outcome State Fault Refusal) : Option Fault :=
  match o with
  | .fault f => some f
  | .next _ | .refused _ => none

/-- The refusal of an outcome. -/
def refusalOf (o : Host.Outcome State Fault Refusal) : Option Refusal :=
  match o with
  | .refused r => some r
  | .next _ | .fault _ => none

/-- Bytes at rising addresses, as canonical cells. -/
def cellsAt (a : Nat) : List Byte → List Host.Cell
  | [] => []
  | b :: t => consCell a b (cellsAt (a + 1) t)

/-- Store bytes from outside the machine. -/
def place (s : State) (a : Nat) : List Byte → State
  | [] => s
  | b :: t => place { s with mem := s.mem.write a b } (a + 1) t

/-- The descriptor table of `95_test_vectors.md` section 2, linear 1008H on. -/
def tableBytes95 : List Byte :=
  [0xFF, 0xFF, 0, 0, 0x01, 0x9A, 0x40, 0] ++ [0xFF, 0xFF, 0, 0, 0x02, 0x92, 0x40, 0] ++
    [0xFF, 0xFF, 0, 0, 0x03, 0xFA, 0x40, 0] ++ [0xFF, 0xFF, 0, 0, 0x04, 0xF2, 0x40, 0] ++
    [0x00, 0x01, 0x08, 0, 0x02, 0xEC, 0, 0] ++ [0x67, 0, 0, 0, 0x05, 0x89, 0, 0] ++
    [0xFF, 0, 0, 0, 0x10, 0x90, 0xC0, 0] ++ [0xFF, 0x0F, 0, 0, 0x06, 0xF6, 0, 0] ++
    [0xFF, 0xFF, 0, 0, 0x07, 0x9E, 0x40, 0]

/-- A flat 32-bit segment register of section 2: base `b`, limit 0FFFFH. -/
def seg95 (sel : Half) (b : Word) (typ : BitVec 4) (dpl : Level) : SegReg :=
  { sel := sel, base := b, limit := 0xFFFF
    attr := { typ := typ, s := true, dpl := dpl, p := true, g := false, db := true, valid := true } }

/-- A data-segment register that holds the null selector. -/
def nullSeg : SegReg := (seg95 0 0 0 0).nulled 0

/-- CPL 0 with the table and TSS of section 2; DS holds 0023H, the other data registers the null selector. Privileged
instructions have their effect. -/
def level0 : State :=
  { State.reset with
    params := Params.executing
    segs :=
      { cs := seg95 0x0008 0x10000 0xA 0, ss := seg95 0x0010 0x20000 0x2 0, ds := seg95 0x0023 0x40000 0x2 3
        es := nullSeg, fs := nullSeg, gs := nullSeg }
    gdtr := { base := 0x1000, limit := 0x4F }
    tr := { sel := 0x30, base := 0x50000, limit := 0x67, typ := 0xB }
    mem := { cells := cellsAt 0x1008 tableBytes95 ++ cellsAt 0x50004 [0x00, 0xF0, 0, 0, 0x10, 0] } }

/-- The same at CPL 3, with CS = 001BH and SS = 0023H. -/
def level3 : State :=
  { level0 with
    cpl := 3
    segs := { level0.segs with cs := seg95 0x001B 0x30000 0xA 3, ss := seg95 0x0023 0x40000 0x2 3 } }

/-- A state with one general register set. -/
def withReg (s : State) (r : Reg) (v : Word) : State := { s with regs := s.regs.set r v }

/-- A memory operand with a displacement alone. -/
def abs (d : Word) : Mem := { ovr := none, addr := .abs d }

/-- The state of section 6 before its step 3: CPL 0 on the level-0 stack with the frame of step 1 on it, the
high halves of the pushed selectors zero, DS = 0010H and ES = 0023H. -/
def inner : State :=
  { place level0 0x2EFE8
      ([0x27, 0, 0, 0, 0x1B, 0, 0, 0] ++ [0x11, 0x11, 0x11, 0x11, 0x22, 0x22, 0x22, 0x22] ++
        [0xF8, 0xEF, 0, 0, 0x23, 0, 0, 0]) with
    regs := { level0.regs with esp := 0xEFE8 }
    segs := { level0.segs with ds := seg95 0x0010 0x20000 0x2 0, es := seg95 0x0023 0x40000 0x2 3 } }

/-- The launch state of section 6, CPL 3 with two parameters on the stack. -/
def outer : State :=
  { place level3 0x4EFF8 [0x11, 0x11, 0x11, 0x11, 0x22, 0x22, 0x22, 0x22] with
    regs := { level3.regs with esp := 0xEFF8, eax := 0x10 }
    eip := 0x20 }

/-- What a named next state gives an existential. -/
theorem next_with {o : Host.Outcome State Fault Refusal} {p : State → Bool} (h : (nextOf o).any p = true) :
    ∃ t, o = .next t ∧ p t = true := by
  cases o with
  | next s => exact ⟨s, rfl, h⟩
  | fault f => cases h
  | refused r => cases h

/-- An instruction that answers some next state. -/
theorem next_exists {o : Host.Outcome State Fault Refusal} (h : (nextOf o).isSome = true) : ∃ t, o = .next t := by
  cases o with
  | next s => exact ⟨s, rfl⟩
  | fault f => cases h
  | refused r => cases h

/-! ### The states used are launch states -/

theorem test_level0_launch : level0.Inv :=
  ⟨by decide, by decide, ⟨by decide, by decide, by decide, by decide⟩, by decide, by decide⟩
theorem test_level3_launch : level3.Inv :=
  ⟨by decide, by decide, ⟨by decide, by decide, by decide, by decide⟩, by decide, by decide⟩
theorem test_inner_launch : inner.Inv :=
  ⟨by decide, by decide, ⟨by decide, by decide, by decide, by decide⟩, by decide, by decide⟩
theorem test_outer_launch : outer.Inv :=
  ⟨by decide, by decide, ⟨by decide, by decide, by decide, by decide⟩, by decide, by decide⟩

/-- Every premise of R341 holds of the launch state of section 6. -/
theorem test_outer_is_launch : outer.Launch :=
  ⟨test_outer_launch, by decide, by decide, .inl (by decide), by decide, by decide⟩
/-- Vector P4 launches after a load that set the accessed bit in memory, while CS caches it clear (log entry 24). -/
theorem test_launch_accessed_set_in_memory :
    (place outer 0x101D [0xFB]).CodeCached ∧
      (place outer 0x101D [0xFB]).segs.cs ≠ enteredCode (place outer 0x101D [0xFB]) outer.segs.cs.sel outer.cpl ∧
      ¬ (place outer 0x101D [0xF8]).CodeCached := by decide
/-- R341 asks that a data-segment register be loadable at some CPL, so at CPL 3 DS may hold a level-0 segment. -/
theorem test_launch_data_at_some_cpl :
    ({ outer with segs := { outer.segs with ds := seg95 0x0010 0x20000 0x2 0 } } : State).DataSegsOk ∧
      ¬ ({ outer with segs := { outer.segs with ds := seg95 0x0010 0x20000 0x2 0 } } : State).DataVisible :=
  ⟨⟨by decide, by decide, by decide, by decide⟩, by decide⟩
/-- R341 asks for the null selector where a data-segment register is unusable, and for a segment in CS. -/
theorem test_launch_null_selectors :
    dataOk nullSeg ∧ ¬ dataOk { nullSeg with sel := 0x23 } ∧
      ¬ ({ level0 with segs := { level0.segs with cs := { level0.segs.cs with sel := 0 } } } : State).CodeOk ∧
      ¬ ({ level0 with segs := { level0.segs with ss := { level0.segs.ss with sel := 0 } } } : State).StackOk := by decide
/-- The reset state: memory lists nothing, and TR's descriptor is a busy 386 TSS in the table. -/
theorem test_reset_table :
    State.reset.mem.cells = [] ∧ (descOf State.reset 0x18).attr.typ = 0xB ∧ (descOf State.reset 0x18).base = 0x2000 ∧
      (descOf State.reset 0x18).effLimit = 0x67 ∧ (descOf State.reset 0x10).segReg 0x10 = State.reset.segs.ds := by
  decide

/-! ### Well-formedness: each check refuses an ill-formed term -/

theorem test_wf_accepts :
    (Instr.arpl (.mem { ovr := some .fs, addr := .sib .esp { reg := some .edi, scale := .x8 } (.d8 0x80) }) .edx).wf =
      true := by decide
theorem test_wf_refuses_esp_index :
    (Instr.lgdt { ovr := none, addr := .sib .eax { reg := some .esp, scale := .x1 } .none }).wf = false := by decide
theorem test_wf_refuses_esp_index_alone :
    (Instr.lgdt { ovr := none, addr := .sibAbs { reg := some .esp, scale := .x1 } 0 }).wf = false := by decide
theorem test_wf_refuses_esp_base_without_sib :
    (Instr.verr (.mem { ovr := none, addr := .base .esp .none })).wf = false := by decide
theorem test_wf_refuses_ebp_base_without_displacement :
    (Instr.callMem { ovr := none, addr := .base .ebp .none }).wf = false := by decide
theorem test_wf_refuses_ebp_sib_base_without_displacement :
    (Instr.lds .eax { ovr := none, addr := .sib .ebp { reg := none, scale := .x1 } .none }).wf = false := by decide

/-! ### Decoding: one word of each constructor, written from R91 to R96 -/
theorem test_decode_jmpRel8 : decode [0xEB, 0x0A] = .ok (.jmpRel8 0x0A, []) := rfl
theorem test_decode_jmpRel32 : decode [0xE9, 0xF9, 0xFF, 0, 0] = .ok (.jmpRel32 0xFFF9, []) := rfl
theorem test_decode_jmpRm32 :
    decode [0xFF, 0x64, 0x24, 0x08] =
      .ok (.jmpRm32 (.mem { ovr := none, addr := .sib .esp { reg := none, scale := .x1 } (.d8 8) }), []) := rfl
theorem test_decode_jmpPtr :
    decode [0xEA, 0x78, 0x56, 0x34, 0x12, 0x2B, 0x00] =
      .ok (.jmpPtr 0x12345678 0x2B, []) := rfl
theorem test_decode_jmpMem : decode [0xFF, 0x2D, 0x00, 0x10, 0, 0] = .ok (.jmpMem (abs 0x1000), []) := rfl
theorem test_decode_callRel32 : decode [0xE8, 0x03, 0, 0, 0] = .ok (.callRel32 3, []) := rfl
theorem test_decode_callRm32 : decode [0xFF, 0xD3] = .ok (.callRm32 (.reg .ebx), []) := rfl
theorem test_decode_callPtr : decode [0x9A, 0, 0, 0, 0, 0x2B, 0] = .ok (.callPtr 0 0x2B, []) := rfl
theorem test_decode_callMem :
    decode [0xFF, 0x5D, 0xF8] =
      .ok (.callMem { ovr := none, addr := .base .ebp (.d8 0xF8) }, []) := rfl
theorem test_decode_ret : decode [0xC3] = .ok (.ret, []) := rfl
theorem test_decode_retImm : decode [0xC2, 0x08, 0] = .ok (.retImm 8, []) := rfl
theorem test_decode_retf : decode [0xCB] = .ok (.retf, []) := rfl
theorem test_decode_retfImm : decode [0xCA, 0x34, 0x12] = .ok (.retfImm 0x1234, []) := rfl
theorem test_decode_movSreg :
    decode [0x36, 0x8E, 0x20] =
      .ok (.movSreg .fs (.mem { ovr := some .ss, addr := .base .eax .none }), []) := rfl
theorem test_decode_popDs : decode [0x1F] = .ok (.popDs, []) := rfl
theorem test_decode_popEs : decode [0x07] = .ok (.popEs, []) := rfl
theorem test_decode_popSs : decode [0x17] = .ok (.popSs, []) := rfl
theorem test_decode_popFs : decode [0x0F, 0xA1] = .ok (.popFs, []) := rfl
theorem test_decode_popGs : decode [0x0F, 0xA9] = .ok (.popGs, []) := rfl
theorem test_decode_lds :
    decode [0xC5, 0x8E, 0, 1, 0, 0] =
      .ok (.lds .ecx { ovr := none, addr := .base .esi (.d32 0x100) }, []) := rfl
theorem test_decode_les :
    decode [0xC4, 0x04, 0x9D, 0x10, 0, 0, 0] =
      .ok (.les .eax { ovr := none, addr := .sibAbs { reg := some .ebx, scale := .x4 } 0x10 }, []) := rfl
theorem test_decode_lss : decode [0x0F, 0xB2, 0x25, 0, 0x20, 0, 0] = .ok (.lss .esp (abs 0x2000), []) := rfl
theorem test_decode_lfs :
    decode [0x0F, 0xB4, 0x3B] =
      .ok (.lfs .edi { ovr := none, addr := .base .ebx .none }, []) := rfl
theorem test_decode_lgs :
    decode [0x0F, 0xB5, 0x44, 0x8F, 0x04] =
      .ok (.lgs .eax { ovr := none, addr := .sib .edi { reg := some .ecx, scale := .x4 } (.d8 4) }, []) := rfl
theorem test_decode_clts : decode [0x0F, 0x06] = .ok (.clts, []) := rfl
theorem test_decode_hlt : decode [0xF4] = .ok (.hlt, []) := rfl
theorem test_decode_lgdt : decode [0x0F, 0x01, 0x15, 0, 0x30, 0, 0] = .ok (.lgdt (abs 0x3000), []) := rfl
theorem test_decode_lidt :
    decode [0x0F, 0x01, 0x1E] =
      .ok (.lidt { ovr := none, addr := .base .esi .none }, []) := rfl
theorem test_decode_lldt : decode [0x0F, 0x00, 0xD0] = .ok (.lldt (.reg .eax), []) := rfl
theorem test_decode_lmsw : decode [0x0F, 0x01, 0xF1] = .ok (.lmsw (.reg .ecx), []) := rfl
theorem test_decode_ltr : decode [0x0F, 0x00, 0xDA] = .ok (.ltr (.reg .edx), []) := rfl
theorem test_decode_movFromCr : decode [0x0F, 0x20, 0xC1] = .ok (.movFromCr .ecx 0, []) := rfl
theorem test_decode_movToCr : decode [0x0F, 0x22, 0xD9] = .ok (.movToCr 3 .ecx, []) := rfl
theorem test_decode_movFromDr : decode [0x0F, 0x21, 0xFA] = .ok (.movFromDr .edx 7, []) := rfl
theorem test_decode_movToDr : decode [0x0F, 0x23, 0xC6] = .ok (.movToDr 0 .esi, []) := rfl
theorem test_decode_movFromTr : decode [0x0F, 0x24, 0xF0] = .ok (.movFromTr .eax 6, []) := rfl
theorem test_decode_movToTr : decode [0x0F, 0x26, 0xFB] = .ok (.movToTr 7 .ebx, []) := rfl
theorem test_decode_lar : decode [0x0F, 0x02, 0xD3] = .ok (.lar .edx (.reg .ebx), []) := rfl
theorem test_decode_lsl : decode [0x0F, 0x03, 0xCB] = .ok (.lsl .ecx (.reg .ebx), []) := rfl
theorem test_decode_verr : decode [0x0F, 0x00, 0xE0] = .ok (.verr (.reg .eax), []) := rfl
theorem test_decode_verw : decode [0x0F, 0x00, 0xEB] = .ok (.verw (.reg .ebx), []) := rfl
theorem test_decode_arpl : decode [0x63, 0xC3] = .ok (.arpl (.reg .ebx) .eax, []) := rfl
theorem test_decode_int3 : decode [0xCC] = .ok (.int3, []) := rfl
theorem test_decode_intImm : decode [0xCD, 0x80] = .ok (.intImm 0x80, []) := rfl
theorem test_decode_into : decode [0xCE] = .ok (.into, []) := rfl
theorem test_decode_iret : decode [0xCF] = .ok (.iret, []) := rfl

/-! ### Refused bytes -/

theorem test_refuses_unknown_opcode : decode [0x90] = .error (.unknownOpcode 0x90) := rfl
theorem test_refuses_unknown_two_byte : decode [0x0F, 0xFF] = .error (.unknownTwoByte 0xFF) := rfl
theorem test_refuses_unknown_extension : decode [0xFF, 0xF0] = .error (.unknownExtension 0xFF 6) := rfl
theorem test_refuses_register_form : decode [0xC5, 0xC0] = .error .registerForm := rfl
theorem test_refuses_undefined_sreg : decode [0x8E, 0xF0] = .error (.undefinedSreg 6) := rfl
theorem test_refuses_operand_size_prefix : decode [0x66, 0xC3] = .error (.refusedPrefix 0x66) := rfl
theorem test_refuses_second_override : decode [0x2E, 0x36, 0x8E, 0x18] = .error .repeatedOverride := rfl
theorem test_refuses_override_without_memory : decode [0x2E, 0xF4] = .error .overrideWithoutMemory := rfl
theorem test_truncated : decode [0xE8, 0x03, 0, 0] = .error .truncated := rfl
theorem test_table_word : decodeTableWord 16 0x0AEB = some (.jmpRel8 0x0A) := rfl
theorem test_table_word_short : decodeTableWord 8 0xE9 = some (.jmpRel32 0) := rfl
theorem test_encode_sib_base :
    encode (.lgs .eax { ovr := some .es, addr := .sib .edi { reg := some .ecx, scale := .x4 } (.d8 4) }) =
      [0x26, 0x0F, 0xB5, 0x44, 0x8F, 0x04] := rfl

/-! ### One step: the vectors of `95_test_vectors.md`

Section 3 to 9 vectors, unless the docstring names another source. -/

/-- The code at CS:EIP is executed by `step`: EB 0A at EIP 5 (section 5). -/
theorem test_step_runs_placed_word :
    (nextOf (step (State.withFetchWord { level0 with eip := 5 } 16 0x0AEB))).map (·.eip) = some 0x11 := by decide

/-- R80: EB 0A with CS.limit at its first byte. -/
theorem test_step_fetch_past_limit :
    faultOf (step (State.withFetchWord { level0 with eip := 0xFFFF } 16 0x0AEB)) = some (.gp 0) := by decide

theorem test_jmpRel8 : (nextOf (exec (.jmpRel8 0x0A) { level0 with eip := 5 })).map (·.eip) = some 0x11 := by decide
theorem test_jmpRel8_beyond : faultOf (exec (.jmpRel8 0xFC) level0) = some (.gp 0) := by decide

theorem test_jmpRel32_to_limit :
    (nextOf (exec (.jmpRel32 0xFFF9) { level0 with eip := 1 })).map (·.eip) = some 0xFFFF := by decide

theorem test_jmpRm32_beyond :
    faultOf (exec (.jmpRm32 (.reg .eax)) (withReg level0 .eax 0x12345)) = some (.gp 0) := by decide
/-- R161, R93: JMP [EBP+4] reads its target through SS. -/
theorem test_jmpRm32_memory :
    (nextOf (exec (.jmpRm32 (.mem { ovr := none, addr := .base .ebp (.d8 4) }))
      (place (withReg level0 .ebp 0x100) 0x20104 [0x34, 0x12]))).map (·.eip) = some 0x1234 := by decide

theorem test_jmpPtr :
    (nextOf (exec (.jmpPtr 0x10 0x18) level3)).map (fun t => (t.segs.cs.sel, t.eip, t.cpl)) =
      some (0x1B, 0x10, 3) := by decide
theorem test_jmpPtr_gate :
    (nextOf (exec (.jmpPtr 0xFFFFFFFF 0x28) level0)).map (fun t => (t.segs.cs.sel, t.eip)) =
      some (0x08, 0x100) := by decide

/-- R63, R167: the offset lies below the selector; conforming code of level 0 entered at level 3. -/
theorem test_jmpMem :
    (nextOf (exec (.jmpMem (abs 0x1000)) (place level3 0x41000 [0x40, 0, 0, 0, 0x48, 0]))).map
      (fun t => (t.segs.cs.sel, t.eip, t.cpl)) = some (0x4B, 0x40, 3) := by decide

theorem test_callRel32 :
    (nextOf (exec (.callRel32 3) (withReg level0 .esp 0x1000))).map
      (fun t => (t.eip, t.regs.esp, linRead32 t 0x20FFC)) = some (8, 0xFFC, 5) := by decide
theorem test_callRel32_no_room : faultOf (exec (.callRel32 3) (withReg level0 .esp 3)) = some (.sf 0) := by decide

/-- R162: CALL ESP reads ESP before the push. -/
theorem test_callRm32_esp :
    (nextOf (exec (.callRm32 (.reg .esp)) (withReg level0 .esp 0x1000))).map
      (fun t => (t.eip, t.regs.esp, linRead32 t 0x20FFC)) = some (0x1000, 0xFFC, 2) := by decide

theorem test_callPtr_conforming :
    (nextOf (exec (.callPtr 0x40 0x4B) outer)).map (fun t => (t.segs.cs.sel, t.eip, t.regs.esp, t.cpl)) =
      some (0x4B, 0x40, 0xEFF0, 3) := by decide
theorem test_callPtr_interlevel :
    (nextOf (exec (.callPtr 0 0x2B) outer)).map
      (fun t => (t.segs.cs.sel, t.segs.ss.sel, t.eip, t.regs.esp, t.cpl, t.segs.ds.sel)) =
      some (0x08, 0x10, 0x100, 0xEFE8, 0, 0x23) := by decide

/-- R195: through the gate at the same level no parameters are copied. -/
theorem test_callMem_gate :
    (nextOf (exec (.callMem (abs 0)) (place (withReg level0 .esp 0x1000) 0x40000 [0xFF, 0xFF, 0xFF, 0xFF, 0x28]))).map
      (fun t => (t.segs.cs.sel, t.eip, t.regs.esp)) = some (0x08, 0x100, 0xFF8) := by decide
theorem test_callMem_gate_absent :
    faultOf (exec (.callMem (abs 0)) (place (place outer 0x40004 [0x2B]) 0x102D [0x6C])) = some (.np 0x28) := by
  decide

theorem test_ret :
    (nextOf (exec .ret (place (withReg level0 .esp 0xFFC) 0x20FFC [5]))).map (fun t => (t.eip, t.regs.esp)) =
      some (5, 0x1000) := by decide
theorem test_ret_beyond :
    faultOf (exec .ret (place (withReg level0 .esp 0xFFC) 0x20FFC [0, 0, 1])) = some (.gp 0) := by decide

theorem test_retImm :
    (nextOf (exec (.retImm 8) (place (withReg level0 .esp 0xFF0) 0x20FF0 [0x40]))).map
      (fun t => (t.eip, t.regs.esp)) = some (0x40, 0xFFC) := by decide

theorem test_retf_same_level :
    (nextOf (exec .retf (place (withReg level3 .esp 0xEFF0) 0x4EFF0 [0x27, 0, 0, 0, 0x1B]))).map
      (fun t => (t.segs.cs.sel, t.eip, t.regs.esp, t.cpl)) = some (0x1B, 0x27, 0xEFF8, 3) := by decide
/-- Section 6, variant of row 11: without the release of 8 bytes the saved SS is 2222H. -/
theorem test_retf_row_11 : faultOf (exec .retf inner) = some (.gp 0x2220) := by decide

theorem test_retfImm_outward :
    (nextOf (exec (.retfImm 8) inner)).map
      (fun t => (t.segs.cs.sel, t.eip, t.regs.esp, t.cpl, t.segs.ds.attr.valid, t.segs.es.sel)) =
      some (0x1B, 0x27, 0xF000, 3, false, 0x23) := by decide
theorem test_retfImm_row_14 : faultOf (exec (.retfImm 8) (place inner 0x2EFFC [0x13])) = some (.gp 0x10) := by decide

theorem test_movSreg_loads :
    (nextOf (exec (.movSreg .ds (.reg .eax)) (withReg level3 .eax 0x23))).map
      (fun t => (t.segs.ds.base, t.segs.ds.limit, linRead8 t 0x1025, t.eip)) =
      some (0x40000, 0xFFFF, 0xF3, 2) := by decide
theorem test_movSreg_privilege :
    faultOf (exec (.movSreg .ds (.reg .eax)) (withReg level0 .eax 0x13)) = some (.gp 0x10) := by decide

theorem test_popDs :
    (nextOf (exec .popDs (place (withReg level0 .esp 0x1000) 0x21000 [0x10]))).map
      (fun t => (t.segs.ds.sel, t.segs.ds.base, t.regs.esp, t.eip)) = some (0x10, 0x20000, 0x1004, 1) := by decide
theorem test_popEs_null :
    (nextOf (exec .popEs (place (withReg level0 .esp 0x1000) 0x21000 [0x03]))).map
      (fun t => (t.segs.es.sel, t.segs.es.attr.valid, t.regs.esp)) = some (3, false, 0x1004) := by decide
theorem test_popSs :
    faultOf (exec .popSs (place (withReg level0 .esp 0x1000) 0x21000 [0x23])) = some (.gp 0x20) := by decide
theorem test_popFs :
    (nextOf (exec .popFs (place (withReg level3 .esp 0x1000) 0x41000 [0x4B]))).map
      (fun t => (t.segs.fs.sel, linRead8 t 0x104D, t.eip)) = some (0x4B, 0x9F, 2) := by decide
theorem test_popGs :
    faultOf (exec .popGs (place (withReg level3 .esp 0x1000) 0x41000 [0x0B])) = some (.gp 0x08) := by decide

/-- R131: the offset lies at the operand, the selector four bytes above. -/
theorem test_lds :
    (nextOf (exec (.lds .ecx (abs 0x10)) (place level0 0x40010 [0x78, 0x56, 0x34, 0x12, 0x20, 0]))).map
      (fun t => (t.segs.ds.sel, t.regs.ecx)) = some (0x20, 0x12345678) := by decide
theorem test_les :
    faultOf (exec (.les .ecx (abs 0x10)) (place level0 0x40014 [0x2B])) = some (.gp 0x28) := by decide
theorem test_lss :
    (nextOf (exec (.lss .esp (abs 0x10)) (place level0 0x40010 [0, 0x80, 0, 0, 0x10, 0]))).map
      (fun t => (t.segs.ss.sel, t.regs.esp, linRead8 t 0x1015)) = some (0x10, 0x8000, 0x93) := by decide
theorem test_lfs :
    faultOf (exec (.lfs .eax (abs 0x10)) (place (place level3 0x40014 [0x23]) 0x1025 [0x72])) =
      some (.np 0x20) := by decide
/-- R70: the selector's two bytes run past DS's limit. -/
theorem test_lgs : faultOf (exec (.lgs .eax (abs 0xFFFB)) level0) = some (.gp 0) := by decide

theorem test_clts :
    (nextOf (exec .clts { level0 with sys := { level0.sys with cr0 := 0x1F } })).map (fun t => (t.sys.cr0, t.eip)) =
      some (0x17, 2) := by decide
theorem test_clts_level3 : faultOf (exec .clts level3) = some (.gp 0) := by decide
theorem test_hlt : (nextOf (exec .hlt { level0 with eip := 0xB })).map (fun t => (t.halted, t.eip)) = some (true, 0xB) := by
  decide
theorem test_hlt_level3 : faultOf (exec .hlt level3) = some (.gp 0) := by decide
theorem test_lgdt :
    (nextOf (exec (.lgdt (abs 0x10)) (place level0 0x40010 [0x4F, 0, 0, 0x20, 0x05, 0]))).map (·.gdtr) =
      some { base := 0x52000, limit := 0x4F } := by decide
theorem test_lidt :
    (nextOf (exec (.lidt (abs 0x10)) (place level0 0x40010 [0xFF, 0x07, 0, 0x20]))).map (·.idtr) =
      some { base := 0x2000, limit := 0x7FF } := by decide
/-- The LDT descriptor is entry 1030H with access byte 82H (section 3). -/
theorem test_lldt :
    (nextOf (exec (.lldt (.reg .eax)) (place (withReg level0 .eax 0x30) 0x1035 [0x82]))).map (·.ldtr) =
      some { sel := 0x30, base := 0x50000, limit := 0x67, valid := true } := by decide
theorem test_lldt_wrong_type :
    faultOf (exec (.lldt (.reg .eax)) (withReg level0 .eax 0x10)) = some (.gp 0x10) := by decide
theorem test_lmsw_keeps_pe :
    (nextOf (exec (.lmsw (.reg .eax)) (withReg level0 .eax 0xFFF8))).map (·.sys.cr0) = some 0x9 := by decide
theorem test_ltr :
    (nextOf (exec (.ltr (.reg .eax)) (withReg level0 .eax 0x30))).map (fun t => (t.tr, linRead8 t 0x1035)) =
      some ({ sel := 0x30, base := 0x50000, limit := 0x67, typ := 0xB }, 0x8B) := by decide
theorem test_ltr_not_present :
    faultOf (exec (.ltr (.reg .eax)) (place (withReg level0 .eax 0x30) 0x1035 [0x09])) = some (.np 0x30) := by decide
theorem test_movFromCr :
    (nextOf (exec (.movFromCr .ecx 0) level0)).map (fun t => (t.regs.ecx, t.eip)) = some (1, 3) := by decide
theorem test_movToCr :
    (nextOf (exec (.movToCr 3 .eax) (withReg level0 .eax 0x7000))).map (·.sys.cr3) = some 0x7000 := by decide
theorem test_movToCr_protected_mode_off :
    refusalOf (exec (.movToCr 0 .eax) level0) = some .realMode := by decide
theorem test_movFromDr :
    (nextOf (exec (.movFromDr .edx 7) { level0 with sys := { level0.sys with dr7 := 0x400 } })).map (·.regs.edx) =
      some 0x400 := by decide
theorem test_movToDr_level1 : faultOf (exec (.movToDr 7 .eax) { level0 with cpl := 1 }) = some (.gp 0) := by decide
theorem test_movToDr :
    (nextOf (exec (.movToDr 0 .esi) (withReg level0 .esi 0x77))).map (·.sys.dr0) = some 0x77 := by decide
theorem test_movFromTr_level3 : faultOf (exec (.movFromTr .eax 6) level3) = some (.gp 0) := by decide
theorem test_movToTr :
    (nextOf (exec (.movToTr 7 .ebx) (withReg level0 .ebx 0x55))).map (·.sys.tr7) = some 0x55 := by decide

/-- The four bits 19:16 are free, so they are masked off. -/
theorem test_lar :
    (nextOf (exec (.lar .edx (.reg .ebx)) (withReg level0 .ebx 0x10))).map (fun t => (zf t, t.regs.ebx, t.eip)) =
      some (true, 0x10, 3) := by decide
theorem test_lar_not_visible :
    (nextOf (exec (.lar .edx (.reg .ebx)) (withReg level3 .ebx 0x10))).map (fun t => (zf t, t.regs.edx)) =
      some (false, 0) := by decide
theorem test_lsl_granular :
    (nextOf (exec (.lsl .ecx (.reg .ebx)) (withReg level0 .ebx 0x38))).map (fun t => (zf t, t.regs.ecx)) =
      some (true, 0xFFFFF) := by decide
theorem test_lsl_gate :
    (nextOf (exec (.lsl .ecx (.reg .ebx)) (withReg level3 .ebx 0x2B))).map (fun t => (zf t, t.regs.ecx)) =
      some (false, 0) := by decide
theorem test_verr_conforming :
    (nextOf (exec (.verr (.reg .eax)) (withReg level3 .eax 0x4B))).map zf = some true := by decide
theorem test_verr_rpl_counts :
    (nextOf (exec (.verr (.reg .eax)) (withReg level0 .eax 0x13))).map zf = some false := by decide
theorem test_verw :
    (nextOf (exec (.verw (.reg .eax)) (withReg level3 .eax 0x43))).map zf = some true := by decide
theorem test_verw_read_only :
    (nextOf (exec (.verw (.reg .eax)) (withReg level0 .eax 0x38))).map zf = some false := by decide
theorem test_arpl_raises :
    (nextOf (exec (.arpl (.reg .ebx) .eax) (withReg (withReg level0 .ebx 0xABCD0020) .eax 0x1B))).map
      (fun t => (zf t, t.regs.ebx)) = some (true, 0xABCD0023) := by decide
/-- A memory destination in read-only data faults whatever the values (section 3). -/
theorem test_arpl_read_only :
    faultOf (exec (.arpl (.mem (abs 0x10)) .eax)
      { level0 with segs := { level0.segs with ds := seg95 0x38 0x100000 0x0 0 } }) = some (.gp 0) := by decide
theorem test_int3 : refusalOf (exec .int3 level0) = some .interruptTransfer := by decide
theorem test_intImm : refusalOf (exec (.intImm 0x80) level0) = some .interruptTransfer := by decide
theorem test_into : refusalOf (exec .into level0) = some .interruptTransfer := by decide
theorem test_iret : refusalOf (exec .iret level0) = some .interruptTransfer := by decide

/-- Section 4: the limit check at its boundaries, read through DS = 0023H. -/
theorem test_limit_boundaries :
    (seg95 0x23 0 0x2 3).inLimit 0xFFFF 1 = true ∧ (seg95 0x23 0 0x2 3).inLimit 0x10000 1 = false ∧
      (seg95 0x23 0 0x2 3).inLimit 0xFFFE 2 = true ∧ (seg95 0x23 0 0x2 3).inLimit 0xFFFF 2 = false ∧
      (seg95 0x23 0 0x2 3).inLimit 0xFFFC 4 = true ∧ (seg95 0x23 0 0x2 3).inLimit 0xFFFD 4 = false := by decide

/-- The expand-down segment 0043H of section 2. -/
def expandDown95 : SegReg :=
  { sel := 0x43, base := 0x60000, limit := 0xFFF
    attr := { typ := 0x6, s := true, dpl := 3, p := true, g := false, db := false, valid := true } }

/-- Section 4: the expand-down boundaries. -/
theorem test_expand_down_boundaries :
    expandDown95.inLimit 0xFFF 1 = false ∧ expandDown95.inLimit 0x1000 4 = true ∧
      expandDown95.inLimit 0xFFFF 1 = true ∧ expandDown95.inLimit 0xFFFF 2 = false ∧
      expandDown95.inLimit 0x10000 1 = false := by decide


/-! ### Witnesses: states and operands that meet the hypotheses of each obligation -/

/-- DS as of section 2's entry 0038H: read-only, limit 0FFFFFH. -/
def readOnly95 : State :=
  { level0 with
    segs :=
      { level0.segs with
        ds := { seg95 0x38 0x100000 0x0 0 with limit := 0xFFFFF } } }

/-- EB 0A at the last byte of a code segment that ends in the middle of it. -/
def endOfCode : State :=
  { place level0 0x10010 [0xEB, 0x0A] with
    eip := 0x10, segs := { level0.segs with cs := { level0.segs.cs with limit := 0x10 } } }

/-- EB 0A at CS:EIP. -/
def jumpPlaced : State := State.withFetchWord level0 16 0x0AEB

/-- The table of section 2 with the gate of 0028H leading to the conforming segment 0048H. -/
def toConforming (s : State) : State := place s 0x102A [0x48]

theorem witness_DecodeOfEncode :
    (Instr.lgs .eax { ovr := some .gs, addr := .sibAbs { reg := some .edi, scale := .x8 } 0xFFFFFFFF }).wf = true := by
  decide
theorem witness_DecodeUsesLength : decode [0x2E, 0x8E, 0x5D, 0xFC, 0xF4] =
    .ok (.movSreg .ds (.mem { ovr := some .cs, addr := .base .ebp (.d8 0xFC) }), [0xF4]) := rfl
/-- MOV EAX, CR0 with `mod` = 00: the bytes used differ from the encoding in the `mod` bits alone (R95). -/
theorem witness_DecodeUsesLength_mod :
    decode [0x0F, 0x20, 0x00, 0xF4] = .ok (.movFromCr .eax 0, [0xF4]) ∧
      encode (.movFromCr .eax 0) = [0x0F, 0x20, (0x00 : Byte) ||| 0xC0] := ⟨rfl, rfl⟩
/-- 2E 8E 18, MOV DS, CS:[EAX], at CS:EIP under the spec's decisions or the executing parameters. -/
def overridePlaced (p : Params) : State := { State.withFetchWord level0 24 0x188E2E with params := p }
theorem witness_SizeAndLockPrefixesRefused :
    (0xF3 : Byte) ∈ [(0x66 : Byte), 0x67, 0xF0, 0xF2, 0xF3] ∧
      (let s := overridePlaced .asDecided
       s.halted = false ∧ s.ModeOk ∧ s.segs.cs.attr.db = true ∧ s.params.segmentOverride = .refused ∧
         s.params = State.reset.params ∧ (fetchBytes s).head? = some (overrideByte .cs) ∧
         refusalOf (step s) = some (.undecodable (.refusedPrefix 0x2E))) ∧
      refusedOverride (overridePlaced .executing) = none := by decide
/-- R251, R306, D20: from reset a privileged effect at CPL 0 is refused; under the executing parameters it happens. -/
theorem test_decided_refuses_privileged :
    refusalOf (exec .clts State.reset) = some .privilegedEffect ∧
      (nextOf (exec .clts level0)).map (·.eip) = some 2 := by decide
theorem witness_StepRunsDecoded :
    jumpPlaced.halted = false ∧ jumpPlaced.ModeOk ∧ refusedOverride jumpPlaced = none ∧ jumpPlaced.segs.cs.attr.db = true ∧
      (∃ rest, decode (fetchBytes jumpPlaced) = .ok (.jmpRel8 0x0A, rest)) ∧
      ∀ k : Nat, k < (Instr.jmpRel8 0x0A).length → (fetchAddr jumpPlaced k).toNat ∉ jumpPlaced.stored :=
  ⟨by decide, by decide, by decide, by decide, ⟨_, rfl⟩, fun _ _ h => by cases h⟩
theorem witness_HaltedStays : ({ level0 with halted := true } : State).halted = true := rfl
theorem witness_FetchPastLimitFaults :
    endOfCode.halted = false ∧ endOfCode.ModeOk ∧ refusedOverride endOfCode = none ∧ endOfCode.segs.cs.attr.db = true ∧
      (Instr.jmpRel8 0x0A).wf = true ∧
      (∀ k : Nat, k < (Instr.jmpRel8 0x0A).length →
        (encode (.jmpRel8 0x0A))[k]? = some (linRead8 endOfCode (fetchAddr endOfCode k))) ∧
      (∀ k : Nat, k < (Instr.jmpRel8 0x0A).length → (fetchAddr endOfCode k).toNat ∉ endOfCode.stored) ∧
      endOfCode.segs.cs.limit.toNat < endOfCode.eip.toNat + (Instr.jmpRel8 0x0A).length - 1 :=
  ⟨by decide, by decide, by decide, by decide, by decide, by decide, fun _ _ h => (List.not_mem_nil h).elim, by decide⟩
theorem witness_StoredBytesNotFetched :
    jumpPlaced.halted = false ∧ jumpPlaced.ModeOk ∧ refusedOverride jumpPlaced = none ∧ jumpPlaced.segs.cs.attr.db = true ∧
      (∃ rest, decode (fetchBytes { jumpPlaced with stored := [0x10001] }) = .ok (.jmpRel8 0x0A, rest)) ∧
      1 < (Instr.jmpRel8 0x0A).length ∧
      (fetchAddr { jumpPlaced with stored := [0x10001] } 1).toNat ∈ ({ jumpPlaced with stored := [0x10001] } : State).stored :=
  ⟨by decide, by decide, by decide, by decide, ⟨_, rfl⟩, by decide, by decide⟩
/-- A CALL that stores; ARPL that raises the RPL of a memory destination, and ARPL that does not. -/
theorem witness_StoresAreRemembered :
    (withReg level0 .esp 0x1000).mem.wf = true ∧
      (∃ t, exec (.callRel32 3) (withReg level0 .esp 0x1000) = .next t ∧
        (linRead8 t 0x20FFC != linRead8 (withReg level0 .esp 0x1000) 0x20FFC &&
          t.stored == [0x20FFC, 0x20FFD, 0x20FFE, 0x20FFF]) = true) ∧
      (∃ t, exec (.arpl (.mem (abs 0)) .eax) (withReg level0 .eax 1) = .next t ∧
        (t.stored == [0x40000, 0x40001]) = true) ∧
      ∃ t, exec (.arpl (.mem (abs 0)) .eax) level0 = .next t ∧ (t.stored == []) = true :=
  ⟨by decide,
    next_with
      (p := fun t => linRead8 t 0x20FFC != linRead8 (withReg level0 .esp 0x1000) 0x20FFC &&
        t.stored == [0x20FFC, 0x20FFD, 0x20FFE, 0x20FFF]) (by decide),
    next_with (p := fun t => t.stored == [0x40000, 0x40001]) (by decide),
    next_with (p := fun t => t.stored == []) (by decide)⟩
theorem witness_StepKeepsInv : jumpPlaced.Inv ∧ jumpPlaced.DataVisible ∧ ∃ t, step jumpPlaced = .next t :=
  ⟨⟨by decide, by decide, ⟨by decide, by decide, by decide, by decide⟩, by decide, by decide⟩, by decide,
    next_exists (by decide)⟩
theorem witness_CplChangesOnlyByCallOrReturn :
    (∃ t, exec (.callPtr 0 0x2B) outer = .next t ∧ (t.cpl != outer.cpl) = true) ∧
      ∃ t, exec (.retfImm 8) inner = .next t ∧ (t.cpl != inner.cpl) = true :=
  ⟨next_with (p := fun t => t.cpl != outer.cpl) (by decide), next_with (p := fun t => t.cpl != inner.cpl) (by decide)⟩
theorem witness_SystemRegistersNeedLevelZero :
    (∃ t, exec (.verr (.reg .eax)) level3 = .next t) ∧ level3.cpl ≠ 0 ∧
      (∃ t, exec (.verr (.reg .eax)) level0 = .next t) ∧ isPrivileged (.verr (.reg .eax)) = false :=
  ⟨next_exists (by decide), by decide, next_exists (by decide), by decide⟩
theorem witness_StoresAreLittleEndian : level0.mem.wf = true := by decide
/-- The limit of DS is 0FFFFH; each clause at its boundary offset, passing and failing. -/
theorem witness_ExpandUpLimit :
    (level0.segs.get .ds).attr.valid = true ∧ (level0.segs.get .ds).attr.expandDown = false ∧
      (level0.segs.get .ds).attr.writable = true ∧
      segCheck level0 .ds 0xFFFF 1 .write = .ok () ∧ segCheck level0 .ds 0x10000 1 .write = .error (.fault (.gp 0)) ∧
      segCheck level0 .ds 0xFFFE 2 .read = .ok () ∧ segCheck level0 .ds 0xFFFF 2 .read = .error (.fault (.gp 0)) ∧
      segCheck level0 .ds 0xFFFC 4 .write = .ok () ∧ segCheck level0 .ds 0xFFFD 4 .write = .error (.fault (.gp 0)) ∧
      segCheck level0 .ds 0xFFFA 6 .read = .ok () ∧ segCheck level0 .ds 0xFFFB 6 .read = .error (.fault (.gp 0)) ∧
      (level0.segs.get .ss).attr.expandDown = false ∧ segCheck level0 .ss 0xFFFD 4 .read = .error (.fault (.sf 0)) :=
  ⟨by decide, by decide, by decide, rfl, rfl, rfl, rfl, rfl, rfl, rfl, rfl, by decide, rfl⟩
/-- Through SS and through DS; B = 0, whose upper bound is 0FFFFH. -/
theorem witness_ExpandDownLimit :
    let s : State := { level3 with segs := { level3.segs with ds := expandDown95, ss := expandDown95 } }
    (s.segs.get .ds).attr.valid = true ∧ (s.segs.get .ds).attr.expandDown = true ∧
      (s.segs.get .ss).attr.writable = true ∧ segCheck s .ds 0x1000 4 .write = .ok () ∧
      segCheck s .ds 0xFFFF 2 .read = .error (.fault (.gp 0)) ∧ segCheck s .ss 0xFFF 1 .write = .error (.fault (.sf 0)) :=
  ⟨by decide, by decide, by decide, rfl, rfl, rfl⟩
/-- Each clause of the access check (it has no hypotheses). -/
theorem witness_AccessChecks :
    segCheck level0 .es 0 1 .read = .error (.fault (.gp 0)) ∧
      segCheck level0 .cs 0 1 .write = .error (.fault (.gp 0)) ∧
      segCheck readOnly95 .ds 0 1 .write = .error (.fault (.gp 0)) ∧
      segCheck { level0 with segs := { level0.segs with cs := seg95 0x08 0x10000 0x8 0 } } .cs 0 1 .read =
        .error (.fault (.gp 0)) ∧
      segCheck readOnly95 .ds 0xFFFFF 1 .read = .ok () ∧ segCheck level0 .ss 0x10000 1 .read = .error (.fault (.sf 0)) :=
  ⟨rfl, rfl, rfl, rfl, rfl, rfl⟩
/-- An operand's first access that is not permitted: a selector one byte past DS for MOV DS; the second part of
`m16:32` for LSS; a POP slot past SS; a null ES for VERR; the destination of ARPL in CS. -/
theorem witness_AccessChecks_operands :
    (operandAccesses level0 (.movSreg .ds (.mem (abs 0xFFFF))) =
        [] ++ { seg := .ds, off := 0xFFFF, bytes := 2, kind := .read } :: [] ∧
      permitted level0 { seg := .ds, off := 0xFFFF, bytes := 2, kind := .read } = false ∧
      faultOf (exec (.movSreg .ds (.mem (abs 0xFFFF))) level0) = some (.gp 0)) ∧
      (operandAccesses level0 (.lss .eax (abs 0xFFFB)) =
          [{ seg := .ds, off := 0xFFFB, bytes := 4, kind := .read }] ++
            { seg := .ds, off := 0xFFFF, bytes := 2, kind := .read } :: [] ∧
        permitted level0 { seg := .ds, off := 0xFFFB, bytes := 4, kind := .read } = true ∧
        faultOf (exec (.lss .eax (abs 0xFFFB)) level0) = some (.gp 0)) ∧
      (operandAccesses (withReg level0 .esp 0xFFFD) .popGs =
          [] ++ { seg := .ss, off := 0xFFFD, bytes := 4, kind := .read } :: [] ∧
        permitted level0 { seg := .ss, off := 0xFFFD, bytes := 4, kind := .read } = false ∧
        faultOf (exec .popGs (withReg level0 .esp 0xFFFD)) = some (.sf 0)) ∧
      faultOf (exec (.verr (.mem { abs 0 with ovr := some .es })) level0) = some (.gp 0) ∧
      faultOf (exec (.arpl (.mem { abs 0 with ovr := some .cs }) .eax) level0) = some (.gp 0) := by decide
/-- The same for the privileged LGDT, whose base lies past the limit while its limit word does not. -/
theorem witness_AccessChecks_privileged :
    isPrivileged (.lgdt (abs 0xFFFB)) = true ∧ level0.cpl = 0 ∧ level0.params.privilegedAtZero = .effect ∧
      operandAccesses level0 (.lgdt (abs 0xFFFB)) =
        [{ seg := .ds, off := 0xFFFB, bytes := 2, kind := .read }] ++
          { seg := .ds, off := 0xFFFD, bytes := 4, kind := .read } :: [] ∧
      permitted level0 { seg := .ds, off := 0xFFFB, bytes := 2, kind := .read } = true ∧
      faultOf (exec (.lgdt (abs 0xFFFB)) level0) = some (.gp 0) := by decide
/-- R64's worked examples, limits 0, 0FFFFFH with G = 0 and G = 1. -/
theorem witness_EffectiveLimit :
    (Descriptor.mk 0x0000FFFF 0x004F9200).g = false ∧ (Descriptor.mk 0x0000FFFF 0x004F9200).effLimit = 0xFFFFF ∧
      (Descriptor.mk 0 0x00C09200).g = true ∧ (Descriptor.mk 0 0x00C09200).effLimit = 0xFFF ∧
      (Descriptor.mk 0x0000FFFF 0x00CF9200).effLimit = 0xFFFFFFFF := by decide
/-- Limit 4FH holds ten descriptors; with an LDT of one descriptor, and with none loaded. -/
theorem witness_DescriptorTableBounds :
    selTi 0x48 = false ∧ inTable level0 0x48 = true ∧ inTable level0 0x50 = false ∧ selTi 0x04 = true ∧
      inTable level0 0x04 = false ∧
      inTable { level0 with ldtr := { sel := 0x30, base := 0x1000, limit := 7, valid := true } } 0x04 = true ∧
      inTable { level0 with ldtr := { sel := 0x30, base := 0x1000, limit := 6, valid := true } } 0x04 = false := by decide
theorem witness_MovSregLoads :
    let s := withReg level3 .eax 0x23
    s.mem.wf = true ∧ canReadRM16 s (.reg .eax) = true ∧ 0x23 = valueRM16 s (.reg .eax) ∧ canLoad s .ds 0x23 = true ∧
      canLoad s .ss 0x23 = true ∧ canLoad s .gs 0 = true := by decide
theorem witness_PopSregLoads :
    let s := place (withReg level3 .esp 0xFFFC) 0x4FFFC [0x4B]
    (Instr.popFs, SReg.fs) ∈
        [(Instr.popDs, SReg.ds), (.popEs, .es), (.popSs, .ss), (.popFs, .fs), (.popGs, .gs)] ∧
      s.mem.wf = true ∧ canAccess s .ss s.regs.esp 4 .read = true ∧ 0x4B = stackTopSel s ∧ canLoad s .fs 0x4B = true :=
  ⟨by simp, by decide, by decide, by decide, by decide⟩
theorem witness_FarPointerLoads :
    let s := place level0 0x4FFFA [0, 0x80, 0, 0, 0x10]
    (Instr.lss .esp (abs 0xFFFA), SReg.ss) ∈
        [(Instr.lds .esp (abs 0xFFFA), SReg.ds), (.les .esp (abs 0xFFFA), .es), (.lss .esp (abs 0xFFFA), .ss),
          (.lfs .esp (abs 0xFFFA), .fs), (.lgs .esp (abs 0xFFFA), .gs)] ∧
      s.mem.wf = true ∧ canReadFarPtr s (abs 0xFFFA) = true ∧ 0x10 = farPtrSel s (abs 0xFFFA) ∧
      canLoad s .ss 0x10 = true :=
  ⟨by simp, by decide, by decide, by decide, by decide⟩
theorem witness_NullSelectorUnusable :
    SReg.ds ∈ [SReg.ds, .es, .fs, .gs] ∧ loadsSreg (withReg level3 .eax 3) (.movSreg .ds (.reg .eax)) .ds 3 ∧
      loadsSreg (withReg level3 .esp 0xFFFC) .popFs .fs 0 ∧ isNull (3 : Half) = true ∧ isNull (0 : Half) = true :=
  ⟨by decide, .inl ⟨_, rfl, by decide, by decide⟩, .inr (.inl ⟨by simp, by decide, by decide⟩), by decide, by decide⟩
/-- MOV GS with the CPL too great, POP FS with the RPL too great, LDS one entry past the table; a TSS, execute-only
code; and P = 0. -/
theorem witness_DataLoadPrivilege :
    (let s := withReg level3 .eax 0x10
     loadsSreg s (.movSreg .gs (.reg .eax)) .gs 0x10 ∧ isNull (0x10 : Half) = false ∧
       (descOf s 0x10).attr.conforming = false ∧ (descOf s 0x10).attr.dpl < s.cpl ∧
       faultOf (exec (.movSreg .gs (.reg .eax)) s) = some (.gp 0x10)) ∧
      (let s := place (withReg level0 .esp 0xFFFC) 0x2FFFC [0x0B]
       loadsSreg s .popFs .fs 0x0B ∧ (descOf s 0x0B).attr.conforming = false ∧
         (descOf s 0x0B).attr.dpl < selRpl 0x0B ∧ faultOf (exec .popFs s) = some (.gp 0x08)) ∧
      (let s := place level0 0x40000 [0, 0, 0, 0, 0x50]
       loadsSreg s (.lds .eax (abs 0)) .ds 0x50 ∧ inTable s 0x50 = false ∧
         faultOf (exec (.lds .eax (abs 0)) s) = some (.gp 0x50)) ∧
      (let s := place (withReg level3 .eax 0x23) 0x1025 [0x72]
       loadsSreg s (.movSreg .es (.reg .eax)) .es 0x23 ∧ inTable s 0x23 = true ∧ (descOf s 0x23).attr.data = true ∧
         s.cpl ≤ (descOf s 0x23).attr.dpl ∧ selRpl 0x23 ≤ (descOf s 0x23).attr.dpl ∧
         (descOf s 0x23).attr.p = false ∧ faultOf (exec (.movSreg .es (.reg .eax)) s) = some (.np 0x20)) :=
  ⟨⟨.inl ⟨_, rfl, by decide, by decide⟩, by decide, by decide, by decide, by decide⟩,
    ⟨.inr (.inl ⟨by simp, by decide, by decide⟩), by decide, by decide, by decide⟩,
    ⟨.inr (.inr ⟨_, _, .head _, by decide, by decide⟩), by decide, by decide⟩,
    ⟨.inl ⟨_, rfl, by decide, by decide⟩, by decide, by decide, by decide, by decide, by decide, by decide⟩⟩
/-- The other clauses of the type rule: a TSS, and execute-only code. -/
theorem witness_DataLoadPrivilege_types :
    (descOf level0 0x30).attr.s = false ∧
      faultOf (exec (.movSreg .ds (.reg .eax)) (withReg level0 .eax 0x30)) = some (.gp 0x30) ∧
      (let s := place (withReg level0 .eax 0x18) 0x101D [0xF8]
       (descOf s 0x18).attr.executable = true ∧ (descOf s 0x18).attr.readableCode = false ∧
         faultOf (exec (.movSreg .ds (.reg .eax)) s) = some (.gp 0x18)) := by decide
/-- A null selector by MOV, one past the table by POP, P = 0 by LSS, B = 0 by MOV. -/
theorem witness_StackSegmentLoadStops :
    (loadsSreg level0 (.movSreg .ss (.reg .eax)) .ss 0 ∧ isNull (0 : Half) = true ∧
        faultOf (exec (.movSreg .ss (.reg .eax)) level0) = some (.gp 0)) ∧
      (let s := place (withReg level0 .esp 0xFFFC) 0x2FFFC [0x50]
       loadsSreg s .popSs .ss 0x50 ∧ inTable s 0x50 = false ∧ faultOf (exec .popSs s) = some (.gp 0x50)) ∧
      (let s := place (place level0 0x40000 [0, 0, 0, 0, 0x10]) 0x1015 [0x12]
       loadsSreg s (.lss .esp (abs 0)) .ss 0x10 ∧ isNull (0x10 : Half) = false ∧ inTable s 0x10 = true ∧
         (selRpl 0x10 = s.cpl ∧ (descOf s 0x10).attr.writable = true ∧ (descOf s 0x10).attr.dpl = s.cpl ∧
           (descOf s 0x10).attr.p = false) ∧ faultOf (exec (.lss .esp (abs 0)) s) = some (.sf 0x10)) ∧
      (let s := withReg level3 .eax 0x43
       loadsSreg s (.movSreg .ss (.reg .eax)) .ss 0x43 ∧ isNull (0x43 : Half) = false ∧ inTable s 0x43 = true ∧
         (selRpl 0x43 = s.cpl ∧ (descOf s 0x43).attr.writable = true ∧ (descOf s 0x43).attr.dpl = s.cpl ∧
           (descOf s 0x43).attr.p = true ∧ (descOf s 0x43).attr.db = false) ∧
         refusalOf (exec (.movSreg .ss (.reg .eax)) s) = some .stackSegment16) :=
  ⟨⟨.inl ⟨_, rfl, by decide, by decide⟩, by decide, by decide⟩,
    ⟨.inr (.inl ⟨by simp, by decide, by decide⟩), by decide, by decide⟩,
    ⟨.inr (.inr ⟨.esp, abs 0, by simp, by decide, by decide⟩), by decide, by decide, by decide, by decide⟩,
    ⟨.inl ⟨_, rfl, by decide, by decide⟩, by decide, by decide, by decide, by decide⟩⟩
/-- The other clauses of the GP case: RPL, type and DPL. -/
theorem witness_StackSegmentLoadStops_levels :
    selRpl 0x13 ≠ level0.cpl ∧ (descOf level0 0x38).attr.writable = false ∧
      (descOf level0 0x20).attr.dpl ≠ level0.cpl ∧
      faultOf (exec (.movSreg .ss (.reg .eax)) (withReg level0 .eax 0x13)) = some (.gp 0x10) ∧
      faultOf (exec (.movSreg .ss (.reg .eax)) (withReg level0 .eax 0x38)) = some (.gp 0x38) ∧
      faultOf (exec (.movSreg .ss (.reg .eax)) (withReg level0 .eax 0x20)) = some (.gp 0x20) := by decide
theorem witness_MovToCsRefused : canReadRM16 level0 (.mem (abs 0xFFFE)) = true := by decide
/-- A target equal to the limit, and one beyond it. -/
theorem witness_NearJumps :
    (0xFFFF : Word) = ({ level0 with eip := 1 } : State).eip + 5 + 0xFFF9 ∧ (0xFFFF : Word) ≤ level0.segs.cs.limit ∧
      canReadRM32 level0 (.reg .eax) = true ∧
      level0.segs.cs.limit < valueRM32 (withReg level0 .eax 0x10000) (.reg .eax) := by decide
/-- Room down to offset 0; no room; a target beyond the limit with room. -/
theorem witness_NearCalls :
    level0.mem.wf = true ∧ canPush (withReg level0 .esp 4) 4 = true ∧ (8 : Word) ≤ level0.segs.cs.limit ∧
      level0.segs.ss.attr.valid = true ∧ level0.segs.ss.attr.writable = true ∧
      level0.segs.ss.inLimit ((3 : Word) - 4) 4 = false ∧ level0.segs.cs.limit < 0x10000 := by decide
/-- The slot at the end of the segment, and one byte past it; an offset of 0 and one beyond CS's limit. -/
theorem witness_NearReturns :
    let s := withReg level0 .esp 0xFFFC
    canAccess s .ss s.regs.esp 4 .read = true ∧ linRead32 s (s.segs.ss.base + s.regs.esp) ≤ s.segs.cs.limit ∧
      s.segs.cs.limit < linRead32 (place s 0x2FFFE [1]) (s.segs.ss.base + s.regs.esp) ∧
      level0.segs.ss.attr.valid = true ∧ level0.segs.ss.attr.executable = false ∧
      level0.segs.ss.inLimit 0xFFFD 4 = false := by decide
theorem witness_FarJumpsDirect :
    level3.mem.wf = true ∧ reachesFar level3 .jmp (.jmpPtr 0xFFFF 0x48) 0x48 0xFFFF ∧
      canGoDirect level3 0x48 0xFFFF = true := ⟨by decide, .inl rfl, by decide⟩
theorem witness_FarCallsDirect :
    outer.mem.wf = true ∧ reachesFar outer .call (.callPtr 0x40 0x4B) 0x4B 0x40 ∧ canGoDirect outer 0x4B 0x40 = true ∧
      canPush outer 8 = true ∧ setsAccessedBit outer 0x4B = true ∧
      ∀ k : Nat, k < 8 →
        accessAddr outer 0x4B ≠ outer.segs.ss.base + (outer.regs.esp - 8) + BitVec.ofNat 32 k :=
  ⟨by decide, .inl rfl, by decide, by decide, by decide, by decide⟩
/-- A DPL that is not the CPL, an RPL above the CPL, and a conforming segment less privileged than the CPL. -/
theorem witness_DirectTransferPrivilege :
    reachesFar level0 .jmp (.jmpPtr 0 0x0B) 0x0B 0 ∧ isNull (0x0B : Half) = false ∧ inTable level0 0x0B = true ∧
      (descOf level0 0x0B).attr.executable = true ∧ (descOf level0 0x0B).attr.conforming = false ∧
      level0.cpl < selRpl 0x0B ∧ (descOf level0 0x1B).attr.conforming = false ∧
      (descOf level0 0x1B).attr.dpl ≠ level0.cpl ∧
      (descOf (place level0 0x104D [0xFE]) 0x48).attr.conforming = true ∧
      level0.cpl < (descOf (place level0 0x104D [0xFE]) 0x48).attr.dpl :=
  ⟨.inl rfl, by decide, by decide, by decide, by decide, by decide, by decide, by decide, by decide, by decide⟩
/-- Admitted by the privilege rules: P = 0; D = 0; an offset one past the limit; a CALL with room for seven bytes. -/
theorem witness_DirectTransferPrivilege_stops :
    (let s := place level0 0x100D [0x1A]
     directAllowed s 0x08 = true ∧ (descOf s 0x08).attr.p = false ∧
       faultOf (exec (.jmpPtr 0 0x08) s) = some (.np 0x08)) ∧
      (let s := place level0 0x100E [0]
       directAllowed s 0x08 = true ∧ (descOf s 0x08).attr.p = true ∧ (descOf s 0x08).attr.db = false ∧
         refusalOf (exec (.jmpPtr 0 0x08) s) = some .codeSegment16) ∧
      (let s := withReg level0 .esp 8
       directAllowed s 0x08 = true ∧ (descOf s 0x08).attr.p = true ∧ (descOf s 0x08).attr.db = true ∧
         (canPush s 8 = true ∧ (descOf s 0x08).effLimit < 0x10000) ∧
         faultOf (exec (.callPtr 0x10000 0x08) s) = some (.gp 0)) ∧
      (let s := withReg level0 .esp 7
       (s.segs.ss.attr.db = true ∧ s.segs.ss.attr.valid = true ∧ s.segs.ss.attr.writable = true) ∧
         s.segs.ss.inLimit (s.regs.esp - 8) 8 = false ∧
         faultOf (exec (.callPtr 0x10000 0x08) s) = some (.sf 0)) := by decide
theorem witness_FarTransferFaults :
    reachesFar level0 .call (.callPtr 0 3) 3 0 ∧ isNull (3 : Half) = true ∧ isNull (0x50 : Half) = false ∧
      inTable level0 0x50 = false ∧ (descOf level0 0x10).attr.data = true ∧
      (descOf (place level0 0x1035 [0x8F]) 0x30).attr.s = false ∧
      (descOf (place level0 0x1035 [0x8F]) 0x30).attr.typ = 0xF :=
  ⟨.inl rfl, by decide, by decide, by decide, by decide, by decide, by decide⟩
theorem witness_TaskAndOldGateTransfersRefused :
    reachesFar level0 .jmp (.jmpPtr 0 0x30) 0x30 0 ∧ isNull (0x30 : Half) = false ∧ inTable level0 0x30 = true ∧
      (descOf level0 0x30).attr.s = false ∧ (descOf level0 0x30).attr.typ = 0x9 ∧
      (descOf (place level0 0x102D [0xE4]) 0x28).attr.s = false ∧
      (descOf (place level0 0x102D [0xE4]) 0x28).attr.typ = 0x4 :=
  ⟨.inl rfl, by decide, by decide, by decide, by decide, by decide, by decide⟩
/-- A target of the same level, and a conforming one of a more privileged level. -/
theorem witness_GatedJumps :
    level0.mem.wf = true ∧ reachesFar level0 .jmp (.jmpPtr 0 0x28) 0x28 0 ∧ gateUsable level0 0x28 = true ∧
      gateTargetUsable level0 0x28 = true ∧ (gateDesc level0 0x28).attr.conforming = false ∧
      (gateDesc level0 0x28).attr.dpl = level0.cpl ∧ gateUsable (toConforming level3) 0x2B = true ∧
      gateTargetUsable (toConforming level3) 0x2B = true ∧
      (gateDesc (toConforming level3) 0x2B).attr.conforming = true ∧
      (gateDesc (toConforming level3) 0x2B).attr.dpl ≤ level3.cpl :=
  ⟨by decide, .inl rfl, by decide, by decide, by decide, by decide, by decide, by decide, by decide, by decide⟩
theorem witness_GatedCallsSameLevel :
    let s := withReg level0 .esp 8
    s.mem.wf = true ∧ reachesFar s .call (.callPtr 0 0x28) 0x28 0 ∧ gateUsable s 0x28 = true ∧
      gateTargetUsable s 0x28 = true ∧ canPush s 8 = true ∧ (gateDesc s 0x28).attr.conforming = false ∧
      (gateDesc s 0x28).attr.dpl = s.cpl ∧ setsAccessedBit s (gateSel s 0x28) = true ∧
      ∀ k : Nat, k < 8 →
        accessAddr s (gateSel s 0x28) ≠ s.segs.ss.base + (s.regs.esp - 8) + BitVec.ofNat 32 k :=
  ⟨by decide, .inl rfl, by decide, by decide, by decide, by decide, by decide, by decide, by decide⟩
/-- The two parameters of section 6; the new stack just large enough with ESP0 = 18H. -/
theorem witness_InterlevelCalls :
    let s := place outer 0x50004 [0x18, 0]
    s.mem.wf = true ∧ reachesFar s .call (.callPtr 0 0x2B) 0x2B 0 ∧ gateUsable s 0x2B = true ∧
      gateTargetUsable s 0x2B = true ∧ entersInner s 0x2B = true ∧ 0 = (gateDesc s 0x2B).attr.dpl ∧
      2 = (descOf s 0x2B).gateCount.toNat ∧ newStackUsable s 0 (16 + 4 * 2) = true ∧ paramsReadable s 2 = true :=
  ⟨by decide, .inl rfl, by decide, by decide, by decide, by decide, by decide, by decide, by decide⟩
/-- The gate and target pass: an 80286 TSS; a TSS one byte short; a null SS0; one past the table; an RPL of 3. -/
theorem witness_InterlevelCallStops :
    (reachesFar outer .call (.callPtr 0 0x2B) 0x2B 0 ∧ gateUsable outer 0x2B = true ∧
        gateTargetUsable outer 0x2B = true ∧ entersInner outer 0x2B = true ∧ 0 = (gateDesc outer 0x2B).attr.dpl ∧
        2 = (descOf outer 0x2B).gateCount.toNat) ∧
      (isTss286 (0x3 : BitVec 4) = true ∧ isTss286 outer.tr.typ = false ∧
        refusalOf (exec (.callPtr 0 0x2B) { outer with tr := { outer.tr with typ := 0x3 } }) = some .tss286) ∧
      faultOf (exec (.callPtr 0 0x2B) { outer with tr := { outer.tr with limit := 10 } }) = some (.invalidTss 0x30) ∧
      (let s := place outer 0x50008 [0]
       isNull (tssSs s 0) = true ∧ faultOf (exec (.callPtr 0 0x2B) s) = some (.invalidTss 0)) ∧
      (let s := place outer 0x50008 [0x50]
       inTable s (tssSs s 0) = false ∧ faultOf (exec (.callPtr 0 0x2B) s) = some (.invalidTss 0x50)) ∧
      (let s := place outer 0x50008 [0x13]
       selRpl (tssSs s 0) ≠ 0 ∧ faultOf (exec (.callPtr 0 0x2B) s) = some (.invalidTss 0x10)) :=
  ⟨⟨.inl rfl, by decide, by decide, by decide, by decide, by decide⟩, by decide, by decide, by decide, by decide,
    by decide⟩
/-- A new SS of level 3; one that is read-only; P = 0; B = 0. -/
theorem witness_InterlevelCallStops_segment :
    (let s := place outer 0x50008 [0x20]
     selRpl (tssSs s 0) = 0 ∧ inTable s (tssSs s 0) = true ∧ (descOf s (tssSs s 0)).attr.dpl ≠ 0 ∧
       faultOf (exec (.callPtr 0 0x2B) s) = some (.sf 0x20)) ∧
      (let s := place outer 0x50008 [0x38]
       (descOf s (tssSs s 0)).attr.dpl = 0 ∧ (descOf s (tssSs s 0)).attr.writable = false ∧
         faultOf (exec (.callPtr 0 0x2B) s) = some (.invalidTss 0x38)) ∧
      (let s := place outer 0x1015 [0x12]
       (descOf s (tssSs s 0)).attr.writable = true ∧ (descOf s (tssSs s 0)).attr.p = false ∧
         faultOf (exec (.callPtr 0 0x2B) s) = some (.sf 0x10)) ∧
      (let s := place outer 0x1016 [0]
       (descOf s (tssSs s 0)).attr.p = true ∧ (descOf s (tssSs s 0)).attr.db = false ∧
         refusalOf (exec (.callPtr 0 0x2B) s) = some .stackSegment16) := by decide
/-- A new stack one byte too small, and the second parameter one byte past the caller's stack segment. -/
theorem witness_InterlevelCallStops_room :
    (let s := place outer 0x50004 [0x17, 0]
     newStackOk s 0 = true ∧ newStackRoom s 0 (16 + 4 * 2) = false ∧
       faultOf (exec (.callPtr 0 0x2B) s) = some (.sf 0)) ∧
      (let s := withReg outer .esp 0xFFF9
       newStackOk s 0 = true ∧ newStackRoom s 0 (16 + 4 * 2) = true ∧
         (s.segs.ss.attr.valid = true ∧ s.segs.ss.attr.executable = false) ∧
         s.segs.ss.inLimit (s.regs.esp + BitVec.ofNat 32 (4 * 0)) 4 = true ∧
         s.segs.ss.inLimit (s.regs.esp + BitVec.ofNat 32 (4 * 1)) 4 = false ∧
         faultOf (exec (.callPtr 0 0x2B) s) = some (.sf 0)) := by decide
/-- A gate of level 0 at CPL 3, the same with RPL 3 at CPL 0, a JMP to a more privileged segment, a CALL to a less
privileged one, a target that is no code. -/
theorem witness_GatePrivilege :
    (reachesFar outer .jmp (.jmpPtr 0 0x2B) 0x2B 0 ∧ isNull (0x2B : Half) = false ∧ inTable outer 0x2B = true ∧
        (descOf outer 0x2B).attr.s = false ∧ (descOf outer 0x2B).attr.typ = 0xC) ∧
      ((descOf (place outer 0x102D [0x8C]) 0x28).attr.dpl < outer.cpl ∧
        (descOf (place level0 0x102D [0x8C]) 0x2B).attr.dpl < selRpl 0x2B ∧
        faultOf (exec (.callPtr 0 0x2B) (place level0 0x102D [0x8C])) = some (.gp 0x28)) ∧
      (gateUsable outer 0x2B = true ∧ isNull (gateSel outer 0x2B) = false ∧ inTable outer (gateSel outer 0x2B) = true) ∧
      ((gateDesc outer 0x2B).attr.executable = true ∧ (gateDesc outer 0x2B).attr.conforming = false ∧
        (gateDesc outer 0x2B).attr.dpl ≠ outer.cpl ∧ faultOf (exec (.jmpPtr 0 0x2B) outer) = some (.gp 0x08)) ∧
      (level0.cpl < (gateDesc (place level0 0x102A [0x18]) 0x28).attr.dpl ∧
        faultOf (exec (.callPtr 0 0x28) (place level0 0x102A [0x18])) = some (.gp 0x18)) ∧
      ((gateDesc (place outer 0x102A [0x10]) 0x2B).attr.executable = false ∧
        faultOf (exec (.callPtr 0 0x2B) (place outer 0x102A [0x10])) = some (.gp 0x10)) :=
  ⟨⟨.inl rfl, by decide, by decide, by decide, by decide⟩, by decide, by decide, by decide, by decide, by decide⟩
/-- The gate's P = 0; a null target, and one past the table; the target's P = 0 and D = 0. -/
theorem witness_GatePrivilege_target :
    (let s := place outer 0x102D [0x6C]
     s.cpl ≤ (descOf s 0x2B).attr.dpl ∧ selRpl 0x2B ≤ (descOf s 0x2B).attr.dpl ∧ (descOf s 0x2B).attr.p = false ∧
       faultOf (exec (.callPtr 0 0x2B) s) = some (.np 0x28)) ∧
      (let s := place outer 0x102A [3]
       gateUsable s 0x2B = true ∧ isNull (gateSel s 0x2B) = true ∧ faultOf (exec (.callPtr 0 0x2B) s) = some (.gp 0)) ∧
      (let s := place outer 0x102A [0x50]
       gateUsable s 0x2B = true ∧ inTable s (gateSel s 0x2B) = false ∧
         faultOf (exec (.callPtr 0 0x2B) s) = some (.gp 0x50)) ∧
      (let s := place outer 0x100D [0x1A]
       gateTargetAllowed s .call 0x2B = true ∧ (gateDesc s 0x2B).attr.p = false ∧
         faultOf (exec (.callPtr 0 0x2B) s) = some (.np 0x08)) ∧
      (let s := place outer 0x100E [0]
       gateTargetAllowed s .call 0x2B = true ∧ (gateDesc s 0x2B).attr.p = true ∧ (gateDesc s 0x2B).attr.db = false ∧
         refusalOf (exec (.callPtr 0 0x2B) s) = some .codeSegment16) := by decide
/-- The entry point one past the target's limit; and a same-level CALL with room for seven bytes. -/
theorem witness_GatePrivilege_room :
    (let s := place level0 0x1008 [0xFF, 0]
     gateTargetAllowed s .jmp 0x28 = true ∧ (gateDesc s 0x28).attr.db = true ∧
       (gateDesc s 0x28).effLimit < (descOf s 0x28).gateOffset ∧ faultOf (exec (.jmpPtr 0 0x28) s) = some (.gp 0)) ∧
      (let s := withReg level0 .esp 7
       (gateUsable s 0x28 = true ∧ gateTargetUsable s 0x28 = true ∧ (gateDesc s 0x28).attr.dpl ≤ s.cpl ∧
         entersInner s 0x28 = false) ∧
         (s.segs.ss.attr.db = true ∧ s.segs.ss.attr.valid = true ∧ s.segs.ss.attr.writable = true) ∧
         s.segs.ss.inLimit (s.regs.esp - 8) 8 = false ∧ faultOf (exec (.callPtr 0 0x28) s) = some (.sf 0)) := by decide
theorem witness_GateIgnoresOffset :
    isNull (0x28 : Half) = false ∧ inTable level0 0x28 = true ∧ (descOf level0 0x28).attr.s = false ∧
      (descOf level0 0x28).attr.typ = 0xC ∧ reachesFar level0 .jmp (.jmpPtr 0xFFFFFFFF 0x28) 0x28 0xFFFFFFFF ∧
      ∃ t, exec (.jmpPtr 0xFFFFFFFF 0x28) level0 = .next t :=
  ⟨by decide, by decide, by decide, by decide, .inl rfl, next_exists (by decide)⟩
theorem witness_ConformingKeepsCpl :
    reachesFar level3 .jmp (.jmpPtr 0x40 0x48) 0x48 0x40 ∧
      (∃ t, exec (.jmpPtr 0x40 0x48) level3 = .next t ∧ t.segs.cs.attr.conforming = true) ∧
      ∃ t, exec (.jmpPtr 0x10 0x18) level3 = .next t ∧ (!t.segs.cs.attr.conforming) = true :=
  ⟨.inl rfl, next_with (p := fun t => t.segs.cs.attr.conforming) (by decide),
    next_with (p := fun t => !t.segs.cs.attr.conforming) (by decide)⟩
theorem witness_FarReturnsSameLevel :
    let s := place (withReg level3 .esp 0xFFF8) 0x4FFF8 [0xFF, 0xFF, 0, 0, 0x1B]
    s.mem.wf = true ∧ releases .retf 0 ∧ returnCodeUsable s = true ∧ selRpl (returnSel s) = s.cpl :=
  ⟨by decide, .inl ⟨rfl, rfl⟩, by decide, by decide⟩
theorem witness_FarReturnsOutward :
    inner.mem.wf = true ∧ releases (.retfImm 8) 8 ∧ returnCodeUsable inner = true ∧ returnStackUsable inner 8 = true ∧
      3 = selRpl (returnSel inner) ∧ inner.cpl < 3 :=
  ⟨by decide, .inr ⟨8, rfl, rfl⟩, by decide, by decide, by decide, by decide⟩
/-- Rows 1 to 8: the return pointer one byte past the limit; an RPL below the CPL; a null, an absent and a data
selector; P = 0; a DPL that is not the RPL. The stack is that of section 6. -/
theorem witness_FarReturnFaults :
    (releases .retf 0 ∧ inner.segs.ss.attr.valid = true ∧ inner.segs.ss.attr.executable = false) ∧
      (inner.segs.ss.inLimit 0xFFF9 8 = false ∧ inner.segs.ss.inLimit 0xFFF8 8 = true ∧
        faultOf (exec .retf (withReg inner .esp 0xFFF9)) = some (.sf 0)) ∧
      (let s := place (withReg level3 .esp 0xFFF8) 0x4FFFC [0x08]
       selRpl (returnSel s) < s.cpl ∧ faultOf (exec .retf s) = some (.gp 0x08)) ∧
      (let s := place inner 0x2EFEC [0x03]
       isNull (returnSel s) = true ∧ faultOf (exec .retf s) = some (.gp 0)) ∧
      (let s := place inner 0x2EFEC [0x53]
       inTable s (returnSel s) = false ∧ faultOf (exec .retf s) = some (.gp 0x50)) ∧
      (let s := place inner 0x2EFEC [0x23]
       (descOf s (returnSel s)).attr.executable = false ∧ faultOf (exec .retf s) = some (.gp 0x20)) :=
  ⟨⟨.inl ⟨rfl, rfl⟩, by decide, by decide⟩, by decide, by decide, by decide, by decide, by decide⟩
/-- Rows 7 and 8; then, at the same level, D = 0 and an EIP one past the limit. -/
theorem witness_FarReturnFaults_code :
    (let s := place inner 0x101D [0x7A]
     s.cpl ≤ selRpl (returnSel s) ∧ (descOf s (returnSel s)).attr.executable = true ∧
       (descOf s (returnSel s)).attr.p = false ∧ faultOf (exec .retf s) = some (.np 0x18)) ∧
      (let s := place inner 0x2EFEC [0x1A]
       (descOf s (returnSel s)).attr.p = true ∧ returnLevelOk s = false ∧ faultOf (exec .retf s) = some (.gp 0x18)) ∧
      (let s := place (place (withReg level0 .esp 0xFFF8) 0x2FFFC [0x08]) 0x100E [0]
       selRpl (returnSel s) = s.cpl ∧ returnCsOk s = true ∧ (descOf s (returnSel s)).attr.db = false ∧
         refusalOf (exec .retf s) = some .codeSegment16) ∧
      (let s := place (withReg level0 .esp 0xFFF8) 0x2FFFA [1, 0, 0x08]
       returnCsOk s = true ∧ (descOf s (returnSel s)).attr.db = true ∧
         (descOf s (returnSel s)).effLimit < returnOff s ∧ faultOf (exec .retf s) = some (.gp 0)) := by decide
/-- Row 9 one byte past the limit, by the N of RET N; rows 10 to 12 by a null, an absent and a read-only selector. -/
theorem witness_FarReturnFaults_stack :
    (let s := place (withReg level0 .esp 0xFFF0) 0x2FFF4 [0x1B]
     s.cpl < selRpl (returnSel s) ∧ returnCsOk s = true ∧ s.segs.ss.inLimit (s.regs.esp + 0 + 8) 8 = true ∧
       s.segs.ss.inLimit (s.regs.esp + 1 + 8) 8 = false ∧
       (faultOf (exec (.retfImm 1) s)).any (fun f => match f with | .sf _ => true | _ => false) = true) ∧
      (let s := place inner 0x2EFFC [0]
       isNull (savedSs s 8) = true ∧ faultOf (exec (.retfImm 8) s) = some (.gp 0)) ∧
      (let s := place inner 0x2EFFC [0x53]
       inTable s (savedSs s 8) = false ∧ faultOf (exec (.retfImm 8) s) = some (.gp 0x50)) ∧
      (let s := place inner 0x2EFFC [0x3B]
       (descOf s (savedSs s 8)).attr.writable = false ∧ faultOf (exec (.retfImm 8) s) = some (.gp 0x38)) := by decide
/-- Rows 13 to 15; then D = 0, B = 0 and an EIP one past the limit. -/
theorem witness_FarReturnFaults_levels :
    (let s := place inner 0x1025 [0x72]
     (descOf s (savedSs s 8)).attr.writable = true ∧ (descOf s (savedSs s 8)).attr.p = false ∧
       faultOf (exec (.retfImm 8) s) = some (.sf 0x20)) ∧
      (let s := place inner 0x2EFFC [0x13]
       (descOf s (savedSs s 8)).attr.dpl ≠ selRpl (returnSel s) ∧ faultOf (exec (.retfImm 8) s) = some (.gp 0x10)) ∧
      (let s := place inner 0x2EFFC [0x22]
       (descOf s (savedSs s 8)).attr.dpl = selRpl (returnSel s) ∧ selRpl (savedSs s 8) ≠ (descOf s (savedSs s 8)).attr.dpl ∧
         faultOf (exec (.retfImm 8) s) = some (.gp 0x20)) ∧
      (let s := place inner 0x101E [0]
       savedSsOk s 8 = true ∧ returnCsOk s = true ∧ (descOf s (returnSel s)).attr.db = false ∧
         refusalOf (exec (.retfImm 8) s) = some .codeSegment16) ∧
      (let s := place inner 0x1026 [0]
       savedSsOk s 8 = true ∧ (descOf s (savedSs s 8)).attr.db = false ∧
         refusalOf (exec (.retfImm 8) s) = some .stackSegment16) ∧
      (let s := place inner 0x1018 [0x26, 0]
       savedSsOk s 8 = true ∧ (descOf s (returnSel s)).effLimit < returnOff s ∧
         faultOf (exec (.retfImm 8) s) = some (.gp 0)) := by decide
theorem witness_OutwardReturnHidesSegments :
    releases (.retfImm 8) 8 ∧ SReg.es ∈ [SReg.ds, .es, .fs, .gs] ∧
      ∃ t, exec (.retfImm 8) inner = .next t ∧
        (decide (inner.cpl < t.cpl) && (t.segs.get .es).attr.valid && !(t.segs.get .es).attr.conforming) = true :=
  ⟨.inr ⟨8, rfl, rfl⟩, by decide,
    next_with
      (p := fun t => decide (inner.cpl < t.cpl) && (t.segs.get .es).attr.valid && !(t.segs.get .es).attr.conforming)
      (by decide)⟩
theorem witness_PrivilegedNeedLevelZero :
    isPrivileged (.lgdt (abs 0)) = true ∧ level3.cpl ≠ 0 ∧ level0.cpl = 0 ∧ Instr.lgdt (abs 0) ≠ .hlt ∧
      ({ level0 with params := { level0.params with privilegedAtZero := .refused } } : State).params.privilegedAtZero =
        .refused := by decide
theorem witness_HltHalts : level0.cpl = 0 := by decide
theorem witness_MachineStatusWord :
    level0.cpl = 0 ∧ level0.params.privilegedAtZero = .effect ∧ canReadRM16 level0 (.mem (abs 0xFFFE)) = true := by decide
theorem witness_TableRegisterLoads :
    level0.cpl = 0 ∧ level0.params.privilegedAtZero = .effect ∧ canReadTable level0 (abs 0xFFFA) = true := by decide
theorem witness_LldtLoads :
    let s := place (withReg level0 .eax 0x30) 0x1035 [0x82]
    s.cpl = 0 ∧ s.params.privilegedAtZero = .effect ∧ canReadRM16 s (.reg .eax) = true ∧
      0x30 = valueRM16 s (.reg .eax) ∧ isNull (0x30 : Half) = false ∧ selTi 0x30 = false ∧ inTable s 0x30 = true ∧
      (descOf s 0x30).attr.s = false ∧ (descOf s 0x30).attr.typ = 0x2 ∧ (descOf s 0x30).attr.p = true ∧
      isNull (valueRM16 level0 (.reg .eax)) = true := by decide
/-- TI = 1, one past the GDT, a TSS; and P = 0. -/
theorem witness_LldtLoads_stops :
    (selTi 0x34 = true ∧ faultOf (exec (.lldt (.reg .eax)) (withReg level0 .eax 0x34)) = some (.gp 0x34)) ∧
      (inTable level0 0x50 = false ∧
        faultOf (exec (.lldt (.reg .eax)) (withReg level0 .eax 0x50)) = some (.gp 0x50)) ∧
      ((descOf level0 0x30).attr.typ ≠ 0x2 ∧
        faultOf (exec (.lldt (.reg .eax)) (withReg level0 .eax 0x30)) = some (.gp 0x30)) ∧
      (let s := place (withReg level0 .eax 0x30) 0x1035 [0x02]
       (descOf s 0x30).attr.s = false ∧ (descOf s 0x30).attr.typ = 0x2 ∧ (descOf s 0x30).attr.p = false ∧
         faultOf (exec (.lldt (.reg .eax)) s) = some (.np 0x30)) := by decide
theorem witness_LtrLoads :
    let s := withReg level0 .eax 0x30
    s.mem.wf = true ∧ s.cpl = 0 ∧ s.params.privilegedAtZero = .effect ∧ canReadRM16 s (.reg .eax) = true ∧
      0x30 = valueRM16 s (.reg .eax) ∧ isNull (0x30 : Half) = false ∧ selTi 0x30 = false ∧ inTable s 0x30 = true ∧
      (descOf s 0x30).attr.s = false ∧ (descOf s 0x30).attr.typ = 0x9 ∧ (descOf s 0x30).attr.p = true := by decide
/-- A null selector, TI = 1, one past the GDT, a busy TSS, a data segment; and P = 0. -/
theorem witness_LtrLoads_stops :
    faultOf (exec (.ltr (.reg .eax)) level0) = some (.gp 0) ∧
      faultOf (exec (.ltr (.reg .eax)) (withReg level0 .eax 0x34)) = some (.gp 0x34) ∧
      faultOf (exec (.ltr (.reg .eax)) (withReg level0 .eax 0x50)) = some (.gp 0x50) ∧
      (let s := place (withReg level0 .eax 0x30) 0x1035 [0x8B]
       (descOf s 0x30).attr.typ ∉ [(0x1 : BitVec 4), 0x9] ∧
         faultOf (exec (.ltr (.reg .eax)) s) = some (.gp 0x30)) ∧
      ((descOf level0 0x10).attr.s = true ∧
        faultOf (exec (.ltr (.reg .eax)) (withReg level0 .eax 0x10)) = some (.gp 0x10)) ∧
      (let s := place (withReg level0 .eax 0x30) 0x1035 [0x09]
       (descOf s 0x30).attr.typ ∈ [(0x1 : BitVec 4), 0x9] ∧ (descOf s 0x30).attr.p = false ∧
         faultOf (exec (.ltr (.reg .eax)) s) = some (.np 0x30)) := by decide
theorem witness_SystemRegisterReads :
    level0.cpl = 0 ∧ level0.params.privilegedAtZero = .effect ∧
      ((3 : BitVec 3), level0.sys.cr3) ∈ [((0 : BitVec 3), level0.sys.cr0), (2, level0.sys.cr2), (3, level0.sys.cr3)] ∧
      ((7 : BitVec 3), level0.sys.dr7) ∈
        [((0 : BitVec 3), level0.sys.dr0), (1, level0.sys.dr1), (2, level0.sys.dr2), (3, level0.sys.dr3),
          (6, level0.sys.dr6), (7, level0.sys.dr7)] ∧
      ((6 : BitVec 3), level0.sys.tr6) ∈ [((6 : BitVec 3), level0.sys.tr6), (7, level0.sys.tr7)] ∧
      (1 : BitVec 3) ∉ [(0 : BitVec 3), 2, 3] ∧ (5 : BitVec 3) ∈ [(4 : BitVec 3), 5] ∧
      (5 : BitVec 3) ∉ [(6 : BitVec 3), 7] := by decide
theorem witness_SystemRegisterWrites :
    let s := withReg level0 .eax 0x7FFFFFFF
    s.cpl = 0 ∧ s.params.privilegedAtZero = .effect ∧ peBit (s.regs.get .eax) = true ∧ pgBit (s.regs.get .eax) = false ∧
      ((0 : BitVec 3), { s.sys with cr0 := s.regs.get .eax }) ∈
        [((0 : BitVec 3), { s.sys with cr0 := s.regs.get .eax }), (2, { s.sys with cr2 := s.regs.get .eax }),
          (3, { s.sys with cr3 := s.regs.get .eax })] ∧
      peBit level0.sys.cr0 = true ∧ pgBit level0.sys.cr0 = false ∧ peBit (level0.regs.get .eax) = false ∧
      peBit (0xFFFFFFFF : Word) = true ∧ pgBit (0xFFFFFFFF : Word) = true ∧ (7 : BitVec 3) ∉ [(0 : BitVec 3), 2, 3] ∧
      (4 : BitVec 3) ∈ [(4 : BitVec 3), 5] ∧ (0 : BitVec 3) ∉ [(6 : BitVec 3), 7] := by decide
/-- A segment at the level of CPL and RPL, conforming code beyond it, and a system descriptor LAR takes. -/
theorem witness_LarLoads :
    (let s := withReg level3 .eax 0x23
     canReadRM16 s (.reg .eax) = true ∧ 0x23 = valueRM16 s (.reg .eax) ∧ isNull (0x23 : Half) = false ∧
       inTable s 0x23 = true ∧ (descOf s 0x23).attr.s = true ∧ s.cpl ≤ (descOf s 0x23).attr.dpl ∧
       selRpl 0x23 ≤ (descOf s 0x23).attr.dpl ∧ (descOf s 0x4B).attr.conforming = true) ∧
      (let s := withReg level0 .eax 0x30
       0x30 = valueRM16 s (.reg .eax) ∧ inTable s 0x30 = true ∧ (descOf s 0x30).attr.s = false ∧
         (descOf s 0x30).attr.typ ∈ [(0x1 : BitVec 4), 0x2, 0x3, 0x4, 0x5, 0x9, 0xB, 0xC] ∧
         s.cpl ≤ (descOf s 0x30).attr.dpl ∧ selRpl 0x30 ≤ (descOf s 0x30).attr.dpl) := by decide
theorem witness_LarRejects :
    canReadRM16 level0 (.reg .eax) = true ∧ 0 = valueRM16 level0 (.reg .eax) ∧ isNull (0 : Half) = true ∧
      inTable level0 0x50 = false ∧
      (let s := place level0 0x1035 [0x80]
       (descOf s 0x30).attr.s = false ∧ (descOf s 0x30).attr.typ ∈ [(0x0 : BitVec 4), 0x8, 0xA, 0xD]) ∧
      (descOf level3 0x10).attr.s = true ∧ (descOf level3 0x10).attr.conforming = false ∧
      (descOf level3 0x10).attr.dpl < level3.cpl ∧ (descOf level0 0x13).attr.dpl < selRpl 0x13 ∧
      (let s := place (withReg level0 .eax 0x30) 0x1035 [0x8E]
       0x30 = valueRM16 s (.reg .eax) ∧ isNull (0x30 : Half) = false ∧ inTable s 0x30 = true ∧
         (descOf s 0x30).attr.s = false ∧ (descOf s 0x30).attr.typ ∈ [(0x6 : BitVec 4), 0x7, 0xE, 0xF]) := by decide
theorem witness_LslResult :
    canReadRM16 level0 (.mem (abs 0xFFFE)) = true ∧ 0 = valueRM16 level0 (.mem (abs 0xFFFE)) := by decide
theorem witness_VerifyResult :
    canReadRM16 (withReg level0 .eax 0x38) (.reg .eax) = true ∧
      0x38 = valueRM16 (withReg level0 .eax 0x38) (.reg .eax) := by decide
/-- A destination in memory at the end of a writable segment; one byte past it; and one in read-only code. -/
theorem witness_ArplAdjusts :
    level0.mem.wf = true ∧ canAccess level0 (memSeg (abs 0xFFFE)) (memOff level0 (abs 0xFFFE)) 2 .write = true ∧
      canAccess level0 (memSeg (abs 0xFFFF)) (memOff level0 (abs 0xFFFF)) 2 .write = false ∧
      canAccess level0 .cs 0 2 .write = false := by decide
/-- Section 7, case A. -/
theorem witness_RplProtocolProtects :
    let s := withReg (withReg level0 .ebx 0x10) .eax 0x1B
    SReg.es ∈ [SReg.ds, .es, .fs, .gs] ∧ (∃ t, exec (.arpl (.reg .ebx) .eax) s = .next t) ∧
      0x10 = (s.regs.get .ebx).extractLsb' 0 16 ∧ isNull (0x10 : Half) = false ∧ inTable s 0x10 = true ∧
      (descOf s 0x10).attr.data = true ∧ (descOf s 0x10).attr.conforming = false ∧
      (descOf s 0x10).attr.dpl < selRpl ((s.regs.get .eax).extractLsb' 0 16) :=
  ⟨by decide, next_exists (by decide), by decide, by decide, by decide, by decide, by decide, by decide⟩

end Sys2Proof.Tests
end

section
/-! Frames of the machine: which operations leave the registers of level 0 and the parameters as they were (R250,
R251, R6), and what a step outside `Halted` executes (R12, R80). -/

namespace Sys2Proof.Machine

/-! ### The step -/

/-- The mode checks pass exactly in protected mode, without paging, in a 32-bit code segment (R341, D4, D5). -/
theorem modeChecks_ok {s : State} {u : Unit} :
    modeChecks s = .ok u ↔ s.ModeOk ∧ s.segs.cs.attr.db = true := by
  simp only [modeChecks, stopIf_bind_ok, stopIf_ok, Bool.not_eq_false, Bool.not_eq_true, and_assoc]

/-- The fetch touches no stored byte iff none of its bytes is in the stored set (R347). -/
theorem fetchTouchesStored_eq_false {s : State} {n : Nat} :
    fetchTouchesStored s n = false ↔ ∀ k : Nat, k < n → (fetchAddr s k).toNat ∉ s.stored := by
  simp [fetchTouchesStored]

/-- Outside `Halted`, a step whose mode checks pass executes the instruction fetched (R12, R80). -/
theorem step_eq_exec {s : State} {i : Instr} (hh : s.halted = false) (hm : modeChecks s = .ok ())
    (hf : fetch s = .ok i) : step s = exec i s := by
  have hi : (modeChecks s >>= fun _ => fetch s) = .ok i := bind_ok.2 ⟨(), hm, hf⟩
  simp only [step, hh, hi, Bool.false_eq_true, if_false]

/-- Settles O5: the mode checks and the fetch answer under its hypotheses. -/
theorem stepRunsDecoded : Obligations.StepRunsDecoded := by
  intro s i rest hh hmode hover hdb hdec hstored
  have hm : modeChecks s = .ok () := modeChecks_ok.2 ⟨hmode, hdb⟩
  have hf : fetch s = .ok i := fetch_ok.2 ⟨hover, rest, hdec, fetchTouchesStored_eq_false.2 hstored⟩
  exact step_eq_exec hh hm hf

/-! ### Operations that keep a part of the state -/

/-- Wherever the operation answers, the part `f` of the state is that of `s`. -/
def Keeps {α : Type} (f : State → α) (s : State) (x : Res State) : Prop := ∀ t, x = .ok t → f t = f s

section Keeps
variable {α β : Type} {f : State → α} {s t : State}

/-- An operation that answers one state. -/
theorem Keeps.ok (h : f t = f s) : Keeps f s (.ok t) := fun _ e => by cases e; exact h

/-- An operation that stops. -/
theorem Keeps.error (e : Stop) : Keeps f s (.error e) := fun _ h => by cases h

/-- A sequence, by its last part on every answer of its first. -/
theorem Keeps.bind {x : Res β} {g : β → Res State} (h : ∀ b, x = .ok b → Keeps f s (g b)) :
    Keeps f s (x >>= g) := fun t ht => by
  obtain ⟨b, hx, hg⟩ := bind_ok.1 ht
  exact h b hx t hg

/-- An operation on the state and then an update of its answer. -/
theorem Keeps.andThen {x : Res State} {g : State → State} (hx : Keeps f s x) (hg : ∀ t, f (g t) = f t) :
    Keeps f s (x >>= fun t => .ok (g t)) :=
  .bind fun t ht => .ok ((hg t).trans (hx t ht))

/-- A privileged instruction, by its effect (R251). -/
theorem Keeps.privileged {x : Res State} (hx : Keeps f s x) : Keeps f s (privileged s x) :=
  fun t ht => hx t (privileged_ok.1 ht).2.2

/-- The next state of an instruction whose operation keeps the part. -/
theorem Keeps.next {x : Res State} (h : finish x = .next t) (hx : Keeps f s x) : f t = f s :=
  hx t (finish_next.1 h)

end Keeps

/-! ### The registers of level 0 -/

/-- The part of the state that no unprivileged instruction changes: the descriptor-table registers, the task
register, the control, debug and test registers and the Halted mark (R250, R251, R253), with the parameters, which
no instruction at all changes (R6). -/
structure SystemPart where
  gdtr : TableReg
  ldtr : LdtReg
  idtr : TableReg
  tr : TaskReg
  sys : SysRegs
  halted : Bool
  params : Params

/-- A state's fields that make up its system part. -/
def State.systemPart (s : State) : SystemPart :=
  { gdtr := s.gdtr, ldtr := s.ldtr, idtr := s.idtr, tr := s.tr, sys := s.sys, halted := s.halted, params := s.params }

/-- Two states have the same system part iff they agree on each of its fields. -/
theorem systemPart_eq_iff {s t : State} :
    t.systemPart = s.systemPart ↔
      t.gdtr = s.gdtr ∧ t.ldtr = s.ldtr ∧ t.idtr = s.idtr ∧ t.tr = s.tr ∧ t.sys = s.sys ∧ t.halted = s.halted ∧
        t.params = s.params := by
  simp only [State.systemPart, SystemPart.mk.injEq]

/-! #### Updates of the state -/

@[simp] theorem setReg_systemPart (s : State) (r : Reg) (v : Word) : (setReg s r v).systemPart = s.systemPart := rfl

@[simp] theorem setEsp_systemPart (s : State) (v : Word) : (setEsp s v).systemPart = s.systemPart := rfl

@[simp] theorem setEip_systemPart (s : State) (v : Word) : (setEip s v).systemPart = s.systemPart := rfl

@[simp] theorem setSeg_systemPart (s : State) (r : SReg) (g : SegReg) :
    (setSeg s r g).systemPart = s.systemPart := rfl

@[simp] theorem countDraw_systemPart (s : State) : (countDraw s).systemPart = s.systemPart := rfl

@[simp] theorem setZf_systemPart (s : State) (z : Bool) : (setZf s z).systemPart = s.systemPart := rfl

@[simp] theorem advance_systemPart (i : Instr) (s : State) : (advance i s).systemPart = s.systemPart := rfl

@[simp] theorem clearDataSegs_systemPart (s : State) : (clearDataSegs s).systemPart = s.systemPart := rfl

@[simp] theorem linWriteBytes_systemPart (s : State) (a : Word) (l : List Byte) :
    (linWriteBytes s a l).systemPart = s.systemPart := by
  rw [linWriteBytes_frame]; rfl

@[simp] theorem setAccessed_systemPart (s : State) (sel : Half) (d : Descriptor) :
    (setAccessed s sel d).systemPart = s.systemPart := by
  rw [setAccessed_frame]; rfl

@[simp] theorem storePush_systemPart (s : State) (v : Word) : (storePush s v).systemPart = s.systemPart := by
  rw [storePush_frame]; rfl

@[simp] theorem storePushSel_systemPart (s : State) (sel : Half) :
    (storePushSel s sel).systemPart = s.systemPart := by
  simp [storePushSel]

@[simp] theorem storeParams_systemPart (s : State) (l : List Word) :
    (storeParams s l).systemPart = s.systemPart := by
  induction l with
  | nil => rfl
  | cons v l ih => exact (storePush_systemPart (storeParams s l) v).trans ih

@[simp] theorem storeReturn_systemPart (s : State) (ret : Word) : (storeReturn s ret).systemPart = s.systemPart := by
  simp [storeReturn]

@[simp] theorem commitSeg_systemPart (s : State) (r : SReg) (sel : Half) (d : Descriptor) :
    (commitSeg s r sel d).systemPart = s.systemPart := by
  simp [commitSeg]

@[simp] theorem loadCs_systemPart (s : State) (sel : Half) (d : Descriptor) (p : Level) :
    (loadCs s sel d p).systemPart = s.systemPart :=
  commitSeg_systemPart s .cs (withRpl sel p) d

@[simp] theorem enterCode_systemPart (s : State) (sel : Half) (d : Descriptor) (off : Word) :
    (enterCode s sel d off).systemPart = s.systemPart := by
  simp [enterCode]

@[simp] theorem commitSwitch_systemPart (s : State) (ns : StackPtr) (t : GateTarget) (params : List Word)
    (ret off : Word) : (commitSwitch s ns t params ret off).systemPart = s.systemPart := by
  simp [commitSwitch]

@[simp] theorem commitReturn_systemPart (s : State) (r st : FarPtr) (d sd : Descriptor) (n : Word) :
    (commitReturn s r st d sd n).systemPart = s.systemPart := by
  simp [commitReturn]

@[simp] theorem writeRM16_systemPart (s : State) (rm : RM) (v : Half) :
    (writeRM16 s rm v).systemPart = s.systemPart := by
  cases rm with
  | reg r => rfl
  | mem m => exact linWriteBytes_systemPart s _ _

@[simp] theorem adjustRpl_systemPart (s : State) (rm : RM) (v r : Half) :
    (adjustRpl s rm v r).systemPart = s.systemPart := by
  unfold adjustRpl; split <;> simp

@[simp] theorem loadSegLimit_systemPart (s : State) (dst : Reg) (sel : Half) :
    (loadSegLimit s dst sel).systemPart = s.systemPart := by
  unfold loadSegLimit
  split
  · rfl
  · split <;> rfl

/-! #### Operations of the unprivileged instructions -/

/-- A load of a segment register changes that register and at most the accessed bit in memory (R122 to R124). -/
theorem loadSreg_keeps (s : State) (r : SReg) (sel : Half) : Keeps State.systemPart s (loadSreg s r sel) := by
  intro t h
  obtain ⟨-, ⟨-, rfl⟩ | ⟨-, rfl⟩⟩ := loadSreg_ok h <;> simp

/-- POP Sreg is a load and then updates of ESP and EIP (R130). -/
theorem popSreg_keeps (s : State) (r : SReg) (i : Instr) : Keeps State.systemPart s (popSreg s r i) :=
  .bind fun _ _ => (loadSreg_keeps s r _).andThen fun _ => rfl

/-- LDS and its like are a load and then a write of a general register (R131). -/
theorem loadFarPtr_keeps (s : State) (r : SReg) (dst : Reg) (m : Mem) (i : Instr) :
    Keeps State.systemPart s (loadFarPtr s r dst m i) :=
  .bind fun _ _ => (loadSreg_keeps s r _).andThen fun _ => rfl

theorem nearJump_keeps (s : State) (t : Word) : Keeps State.systemPart s (nearJump s t) :=
  .bind fun _ _ => .ok rfl

theorem push32_keeps (s : State) (v : Word) : Keeps State.systemPart s (push32 s v) :=
  .bind fun _ _ => .ok (storePush_systemPart s v)

/-- A near CALL pushes and sets EIP (R162). -/
theorem nearCall_keeps (s : State) (t ret : Word) : Keeps State.systemPart s (nearCall s t ret) :=
  .bind fun _ _ => .bind fun _ _ => (push32_keeps s ret).andThen fun _ => rfl

theorem nearReturn_keeps (s : State) (n : Word) : Keeps State.systemPart s (nearReturn s n) :=
  .bind fun _ _ => .bind fun _ _ => .ok rfl

/-- A direct far JMP loads CS and EIP, a direct far CALL pushes first (R165, R167). -/
theorem farDirect_keeps (s : State) (k : FarKind) (sel : Half) (off ret : Word) (d : Descriptor) :
    Keeps State.systemPart s (farDirect s k sel off ret d) := by
  cases k with
  | jmp => exact .bind fun _ _ => .bind fun _ _ => .ok (by simp)
  | call => exact .bind fun _ _ => .bind fun _ _ => .bind fun _ _ => .ok (by simp)

theorem farCallGateInter_keeps (s : State) (g : Descriptor) (ret : Word) (t : GateTarget) :
    Keeps State.systemPart s (farCallGateInter s g ret t) :=
  .bind fun _ _ => .bind fun _ _ => .bind fun _ _ => .ok (by simp)

theorem farCallGateSame_keeps (s : State) (g : Descriptor) (ret : Word) (t : GateTarget) :
    Keeps State.systemPart s (farCallGateSame s g ret t) :=
  .bind fun _ _ => .ok (by simp)

/-- A gated CALL stays on its stack or switches it; a gated JMP does neither (R194, R195, R197). -/
theorem farGate_keeps (s : State) (k : FarKind) (sel : Half) (ret : Word) (g : Descriptor) :
    Keeps State.systemPart s (farGate s k sel ret g) := by
  cases k with
  | jmp => exact .bind fun _ _ => .ok (by simp)
  | call =>
    refine .bind fun t _ => ?_
    split
    · exact farCallGateInter_keeps s g ret t
    · exact farCallGateSame_keeps s g ret t

/-- Only a 386 call gate among the system descriptors leads anywhere (R163, R169, R202). -/
theorem farSystem_keeps (s : State) (k : FarKind) (sel : Half) (ret : Word) (d : Descriptor) :
    Keeps State.systemPart s (farSystem s k sel ret d) := by
  unfold farSystem
  split
  · exact farGate_keeps s k sel ret d
  all_goals exact .error _

/-- A far transfer goes to code or through a system descriptor (R163). -/
theorem farTransfer_keeps (s : State) (k : FarKind) (p : FarPtr) (ret : Word) :
    Keeps State.systemPart s (farTransfer s k p ret) := by
  refine .bind fun _ _ => .bind fun d _ => ?_
  split
  · exact farDirect_keeps s k p.sel p.off ret d
  · split
    · exact .error _
    · exact farSystem_keeps s k p.sel ret d

theorem farReturnSame_keeps (s : State) (r : FarPtr) (n : Word) :
    Keeps State.systemPart s (farReturnSame s r n) :=
  .bind fun _ _ => .bind fun _ _ => .bind fun _ _ => .ok (by simp)

theorem farReturnInter_keeps (s : State) (r : FarPtr) (n : Word) :
    Keeps State.systemPart s (farReturnInter s r n) :=
  .bind fun _ _ => .bind fun _ _ => .bind fun _ _ => .bind fun _ _ => .bind fun _ _ => .bind fun _ _ =>
    .ok (by simp)

/-- A far RET stays at its level or goes outward (R223). -/
theorem farReturn_keeps (s : State) (n : Word) : Keeps State.systemPart s (farReturn s n) := by
  refine .bind fun r _ => .bind fun _ _ => ?_
  split
  · exact farReturnSame_keeps s r n
  · exact farReturnInter_keeps s r n

/-- LAR writes ZF and at most its destination, drawing a free value for it (R271). -/
theorem loadAccessRights_keeps (s : State) (dst : Reg) (sel : Half) :
    Keeps State.systemPart s (loadAccessRights s dst sel) := by
  unfold loadAccessRights
  split
  · exact .ok rfl
  · split
    · exact .ok rfl
    · refine .bind fun _ _ => ?_
      split <;> exact .ok rfl

/-! #### The instructions -/

/-- An unprivileged instruction changes neither the registers of level 0 nor the parameters (R250, R6). -/
theorem exec_unprivileged_systemPart {i : Instr} {s t : State} (hi : isPrivileged i = false)
    (h : exec i s = .next t) : t.systemPart = s.systemPart := by
  cases i with
  | jmpRel8 _ | jmpRel32 _ => exact Keeps.next h (nearJump_keeps s _)
  | jmpRm32 _ => exact Keeps.next h (.bind fun _ _ => nearJump_keeps s _)
  | callRel32 _ => exact Keeps.next h (nearCall_keeps s _ _)
  | callRm32 _ => exact Keeps.next h (.bind fun _ _ => nearCall_keeps s _ _)
  | jmpPtr _ _ | callPtr _ _ => exact Keeps.next h (farTransfer_keeps s _ _ _)
  | jmpMem _ | callMem _ => exact Keeps.next h (.bind fun _ _ => farTransfer_keeps s _ _ _)
  | ret | retImm _ => exact Keeps.next h (nearReturn_keeps s _)
  | retf | retfImm _ => exact Keeps.next h (farReturn_keeps s _)
  | movSreg dst _ =>
    exact Keeps.next h (.bind fun _ _ => (loadSreg_keeps s dst _).andThen (advance_systemPart _))
  | popDs | popEs | popSs | popFs | popGs => exact Keeps.next h (popSreg_keeps s _ _)
  | lds _ _ | les _ _ | lss _ _ | lfs _ _ | lgs _ _ => exact Keeps.next h (loadFarPtr_keeps s _ _ _ _)
  | lar dst _ =>
    exact Keeps.next h (.bind fun _ _ => (loadAccessRights_keeps s dst _).andThen (advance_systemPart _))
  | lsl dst _ => exact Keeps.next h (.bind fun _ _ => .ok (loadSegLimit_systemPart s dst _))
  | verr _ | verw _ => exact Keeps.next h (.bind fun _ _ => .ok rfl)
  | arpl rm _ => exact Keeps.next h (.bind fun _ _ => .bind fun _ _ => .ok (adjustRpl_systemPart s rm _ _))
  | int3 | intImm _ | into | iret => cases h
  | clts | hlt | lgdt _ | lidt _ | lldt _ | lmsw _ | ltr _ | movFromCr _ _ | movToCr _ _ | movFromDr _ _
  | movToDr _ _ | movFromTr _ _ | movToTr _ _ => cases hi

/-- LLDT loads LDTR or marks it not loaded (R256). -/
theorem loadLdtr_keeps_params (s : State) (sel : Half) : Keeps State.params s (loadLdtr s sel) := by
  unfold loadLdtr
  split
  · exact .ok rfl
  · exact .bind fun _ _ => .ok rfl

/-- LTR loads TR and marks its TSS busy in memory (R258). -/
theorem loadTr_keeps_params (s : State) (sel : Half) : Keeps State.params s (loadTr s sel) :=
  .bind fun _ _ => .bind fun _ _ => .ok rfl

theorem movFromSys_keeps_params (s : State) (v : Option Word) (n : BitVec 3) (dst : Reg) (i : Instr) :
    Keeps State.params s (movFromSys s v n dst i) :=
  .privileged (.bind fun _ _ => .ok rfl)

theorem movToSys_keeps_params (s : State) (g : Option SysRegs) (n : BitVec 3) (i : Instr) :
    Keeps State.params s (movToSys s g n i) :=
  .privileged (.bind fun _ _ => .bind fun _ _ => .bind fun _ _ => .ok rfl)

/-- No instruction changes the parameters (R6). -/
theorem exec_params {i : Instr} {s t : State} (h : exec i s = .next t) : t.params = s.params := by
  cases hi : isPrivileged i with
  | false => exact congrArg SystemPart.params (exec_unprivileged_systemPart hi h)
  | true =>
    cases i with
    | clts => exact Keeps.next h (.privileged (.ok rfl))
    | hlt => exact Keeps.next h (.bind fun _ _ => .ok rfl)
    | lgdt _ | lidt _ | lmsw _ => exact Keeps.next h (.privileged (.bind fun _ _ => .ok rfl))
    | lldt _ =>
      exact Keeps.next h (.privileged (.bind fun _ _ => (loadLdtr_keeps_params s _).andThen (advance_params _)))
    | ltr _ =>
      exact Keeps.next h (.privileged (.bind fun _ _ => (loadTr_keeps_params s _).andThen (advance_params _)))
    | movFromCr _ _ | movFromDr _ _ | movFromTr _ _ => exact Keeps.next h (movFromSys_keeps_params s _ _ _ _)
    | movToCr _ _ | movToDr _ _ | movToTr _ _ => exact Keeps.next h (movToSys_keeps_params s _ _ _)
    | _ => cases hi

/-- A privileged instruction answers a next state at level 0 alone (R251). -/
theorem exec_privileged_cpl {i : Instr} {s t : State} (hi : isPrivileged i = true) (h : exec i s = .next t) :
    s.cpl = 0 := by
  cases i with
  | hlt => exact not_not.1 (stopIf_bind_ok.1 (finish_next.1 h)).1
  | clts | lgdt _ | lidt _ | lldt _ | lmsw _ | ltr _ | movFromCr _ _ | movToCr _ _ | movFromDr _ _
  | movToDr _ _ | movFromTr _ _ | movToTr _ _ => exact (privileged_ok.1 (finish_next.1 h)).1
  | _ => cases hi

/-- Settles O13: outside level 0 no privileged instruction answers a next state, and an unprivileged one keeps the
system part. -/
theorem systemRegistersNeedLevelZero : Obligations.SystemRegistersNeedLevelZero := by
  intro i s t h
  refine ⟨exec_params h, fun hs => ?_⟩
  have hi : isPrivileged i = false :=
    hs.elim (fun hc => Bool.eq_false_iff.2 fun hp => hc (exec_privileged_cpl hp h)) id
  obtain ⟨hgdtr, hldtr, hidtr, htr, hsys, hhalted, -⟩ :=
    systemPart_eq_iff.1 (exec_unprivileged_systemPart hi h)
  exact ⟨hgdtr, hldtr, hidtr, htr, hsys, hhalted⟩

end Sys2Proof.Machine
end

section
/-! The registers of the machine: a null selector in a data-segment register (R22, R71, R124), and at CPL 0 the
Machine Status Word and the moves to and from CRn, DRn and TRn (R34, R252, R257, R259 to R261; log entry 4). -/

namespace Sys2Proof.Machine

/-! ### Instructions that load a segment register -/

/-- Each POP Sreg is `popSreg` of its register (R130). -/
theorem exec_popSreg {s : State} {i : Instr} {r : SReg}
    (h : (i, r) ∈ [(Instr.popDs, SReg.ds), (.popEs, .es), (.popSs, .ss), (.popFs, .fs), (.popGs, .gs)]) :
    exec i s = finish (popSreg s r i) := by
  simp only [List.mem_cons, Prod.mk.injEq, List.not_mem_nil, or_false] at h
  rcases h with ⟨rfl, rfl⟩ | ⟨rfl, rfl⟩ | ⟨rfl, rfl⟩ | ⟨rfl, rfl⟩ | ⟨rfl, rfl⟩ <;> rfl

/-- Each of LDS, LES, LSS, LFS, LGS is `loadFarPtr` of its register (R131). -/
theorem exec_loadFarPtr {s : State} {i : Instr} {r : SReg} {dst : Reg} {m : Mem}
    (h : (i, r) ∈
      [(Instr.lds dst m, SReg.ds), (.les dst m, .es), (.lss dst m, .ss), (.lfs dst m, .fs), (.lgs dst m, .gs)]) :
    exec i s = finish (loadFarPtr s r dst m i) := by
  simp only [List.mem_cons, Prod.mk.injEq, List.not_mem_nil, or_false] at h
  rcases h with ⟨rfl, rfl⟩ | ⟨rfl, rfl⟩ | ⟨rfl, rfl⟩ | ⟨rfl, rfl⟩ | ⟨rfl, rfl⟩ <;> rfl

/-- After its load, an instruction that loads a segment register updates the general registers and EIP alone (R129
to R131). -/
theorem exec_loadsSreg_frame {s : State} {i : Instr} {r : SReg} {sel : Half} (h : loadsSreg s i r sel) :
    ∃ g : Regs → Regs,
      exec i s =
        finish (loadSreg s r sel >>= fun t => .ok { t with regs := g t.regs, eip := nextEip t i }) := by
  rcases h with ⟨rm, rfl, hread, rfl⟩ | ⟨hform, hread, rfl⟩ | ⟨dst, m, hform, hread, rfl⟩
  · refine ⟨id, ?_⟩
    simp only [exec, execMovSreg, readRM16_ok.2 ⟨hread, rfl⟩]; rfl
  · refine ⟨fun g => { g with esp := s.regs.esp + 4 }, ?_⟩
    simp only [exec_popSreg hform, popSreg, memRead32_ok.2 ⟨hread, rfl⟩]; rfl
  · refine ⟨fun g => g.set dst (farPtrOff s m), ?_⟩
    simp only [exec_loadFarPtr hform, loadFarPtr, readFarPtr_ok.2 ⟨hread, rfl⟩]; rfl

/-! ### Null selectors -/

/-- A null selector loads into a data-segment register without a check (R124). -/
theorem loadSreg_null {s : State} {r : SReg} {sel : Half} (hr : r ∈ [SReg.ds, .es, .fs, .gs])
    (hn : isNull sel = true) : loadSreg s r sel = .ok (loadNull s r sel) := by
  have hdata : loadData s r sel = .ok (loadNull s r sel) := if_pos hn
  cases r with
  | ds | es | fs | gs => exact hdata
  | cs | ss => simp at hr

/-- What a null load leaves in its register. -/
@[simp] theorem loadNull_get (s : State) (r : SReg) (sel : Half) :
    (loadNull s r sel).segs.get r = (s.segs.get r).nulled sel :=
  Segs.get_set_same s.segs r _

/-- Every access through an unusable register raises GP(0), whatever its kind, offset and size (R71). -/
theorem segCheck_unusable {s : State} {r : SReg} (h : (s.segs.get r).attr.valid = false) (off : Word) (n : Nat)
    (k : Access) : segCheck s r off n k = .error (.fault (.gp 0)) :=
  stopIf_bind.trans (if_pos h)

/-- Settles O23: the load is the null load, which marks its register unusable; the instruction's updates after it
leave the segment registers. -/
theorem nullSelectorUnusable : Obligations.NullSelectorUnusable := by
  intro s i r sel hr hload hn
  obtain ⟨g, hexec⟩ := exec_loadsSreg_frame hload
  rw [loadSreg_null hr hn] at hexec
  refine ⟨_, hexec, ?_, segCheck_unusable ?_⟩
  · exact congrArg SegReg.sel (loadNull_get s r sel)
  · exact congrArg (fun x => x.attr.valid) (loadNull_get s r sel)

/-! ### Privileged instructions that have their effect -/

/-- At CPL 0, where the parameter gives privileged instructions their effect, that effect is the outcome (R251, log
entry 4). -/
theorem privileged_effect {s : State} (hcpl : s.cpl = 0) (heff : s.params.privilegedAtZero = .effect)
    (e : Res State) : privileged s e = e := by
  simp [privileged, privCheck, stopIf_bind, hcpl, heff]

/-- The same for an effect that takes an `r/m16` operand. -/
theorem privileged_readRM16 {s : State} (hcpl : s.cpl = 0) (heff : s.params.privilegedAtZero = .effect) {rm : RM}
    (hread : canReadRM16 s rm = true) (f : Half → Res State) :
    privileged s (readRM16 s rm >>= f) = f (valueRM16 s rm) := by
  rw [privileged_effect hcpl heff, readRM16_ok.2 ⟨hread, rfl⟩]; rfl

/-! ### The Machine Status Word -/

/-- Clearing TS clears bit 3 and keeps every other bit (R34, R252). -/
theorem getLsbD_clearTs (c : Word) (k : Nat) : (clearTs c).getLsbD k = (c.getLsbD k && decide (k ≠ 3)) := by
  have hmask : ∀ j < 32, (0xFFFFFFF7#32).getLsbD j = decide (j ≠ 3) := by decide
  by_cases hk : k < 32
  · simp only [clearTs, BitVec.getLsbD_and, ← hmask k hk]; rfl
  · simp [BitVec.getLsbD_of_ge _ k (Nat.le_of_not_lt hk)]

/-- LMSW sets PE or leaves it, loads bits 3:1 and keeps the bits from 4 on (R257). -/
theorem getLsbD_loadMsw (c : Word) (m : Half) (k : Nat) :
    (loadMsw c m).getLsbD k =
      if k = 0 then c.getLsbD 0 || m.getLsbD 0 else if k < 4 then m.getLsbD k else c.getLsbD k := by
  have hkeep : ∀ j < 32, (0xFFFFFFF1#32).getLsbD j = decide (j = 0 ∨ 4 ≤ j) := by decide
  have hload : ∀ j < 32, (0xF#32).getLsbD j = decide (j < 4) := by decide
  by_cases hk : k < 32
  · have hbit : (loadMsw c m).getLsbD k =
        (c.getLsbD k && decide (k = 0 ∨ 4 ≤ k) || m.getLsbD k && decide (k < 4)) := by
      simp only [loadMsw, BitVec.getLsbD_or, BitVec.getLsbD_and, BitVec.getLsbD_setWidth, hk, decide_true,
        Bool.true_and, ← hkeep k hk, ← hload k hk]
      rfl
    rw [hbit]
    split
    · next h0 => simp [h0]
    · next h0 =>
      split
      · next h4 => simp [h0, h4, Nat.not_le.2 h4]
      · next h4 => simp [h4, Nat.le_of_not_lt h4]
  · rw [BitVec.getLsbD_of_ge _ _ (by omega), if_neg (by omega), if_neg (by omega),
      BitVec.getLsbD_of_ge _ _ (by omega)]

/-- CLTS (R252) -/
theorem exec_clts {s : State} (hcpl : s.cpl = 0) (heff : s.params.privilegedAtZero = .effect) :
    exec .clts s = .next { s with sys := { s.sys with cr0 := clearTs s.sys.cr0 }, eip := s.eip + 2 } :=
  congrArg finish (privileged_effect hcpl heff _)

/-- LMSW with an operand that can be read (R257). -/
theorem exec_lmsw {s : State} (hcpl : s.cpl = 0) (heff : s.params.privilegedAtZero = .effect) {rm : RM}
    (hread : canReadRM16 s rm = true) :
    exec (.lmsw rm) s =
      .next { s with
              sys := { s.sys with cr0 := loadMsw s.sys.cr0 (valueRM16 s rm) }
              eip := after s (.lmsw rm) } :=
  congrArg finish (privileged_readRM16 hcpl heff hread _)

/-- Settles O48: each instruction's next state, and CR0 in it bit by bit. -/
theorem machineStatusWord : Obligations.MachineStatusWord := by
  intro s hcpl heff
  refine ⟨⟨_, exec_clts hcpl heff, getLsbD_clearTs _⟩, fun rm hread => ?_⟩
  refine ⟨_, exec_lmsw hcpl heff hread, getLsbD_loadMsw _ _ 0, fun k hk hk4 => ?_, fun k hk => ?_⟩
  · rw [getLsbD_loadMsw, if_neg (by omega), if_pos hk4]
  · rw [getLsbD_loadMsw, if_neg (by omega), if_neg (by omega)]

/-! ### Moves to and from the system registers -/

/-- A move to or from a system register is three bytes long (R95). -/
theorem length_systemMove {i : Instr} (h : isSystemMove i = true) : i.length = 3 := by
  cases i with
  | movFromCr _ _ | movToCr _ _ | movFromDr _ _ | movToDr _ _ | movFromTr _ _ | movToTr _ _ => rfl
  | _ => cases h

/-- EIP after a move to or from a system register (R24, R95). -/
theorem advance_systemMove {i : Instr} (h : isSystemMove i = true) (s : State) :
    advance i s = { s with eip := s.eip + 3 } := by
  rw [advance, nextEip, length_systemMove h]; rfl

section SystemMove
variable {s : State} {n : BitVec 3} {i : Instr}

/-- A read of a register that is there puts its value into the general register. -/
theorem movFromSys_next {v : Option Word} {x : Word} {dst : Reg} (hcpl : s.cpl = 0)
    (heff : s.params.privilegedAtZero = .effect) (hi : isSystemMove i = true) (hv : v = some x) :
    finish (movFromSys s v n dst i) = .next { s with regs := s.regs.set dst x, eip := s.eip + 3 } := by
  subst hv
  rw [movFromSys, privileged_effect hcpl heff]
  exact congrArg Host.Outcome.next (advance_systemMove hi (setReg s dst x))

/-- A read of a number no register has is refused (R34). -/
theorem movFromSys_refused {v : Option Word} {dst : Reg} (hcpl : s.cpl = 0)
    (heff : s.params.privilegedAtZero = .effect) (hv : v = none) :
    finish (movFromSys s v n dst i) = .refused (.noSuchRegister n) := by
  subst hv
  rw [movFromSys, privileged_effect hcpl heff]; rfl

/-- A write of a register that is there: CR0 after it must have PE = 1 and PG = 0 (D4, D5). -/
theorem movToSys_some {g : SysRegs} (hcpl : s.cpl = 0) (heff : s.params.privilegedAtZero = .effect) :
    movToSys s (some g) n i =
      if peBit g.cr0 = false then .error (.refused .realMode)
      else if pgBit g.cr0 = true then .error (.refused .paging)
      else .ok (advance i { s with sys := g }) := by
  rw [movToSys, privileged_effect hcpl heff]
  exact stopIf_bind.trans (congrArg (ite _ _) stopIf_bind)

/-- A write that leaves protected mode on and paging off has its effect. -/
theorem movToSys_next {v : Option SysRegs} {g : SysRegs} (hcpl : s.cpl = 0)
    (heff : s.params.privilegedAtZero = .effect) (hpe : peBit g.cr0 = true) (hpg : pgBit g.cr0 = false)
    (hi : isSystemMove i = true) (hv : v = some g) :
    finish (movToSys s v n i) = .next { s with sys := g, eip := s.eip + 3 } := by
  rw [hv, movToSys_some hcpl heff, if_neg (by simp [hpe]), if_neg (by simp [hpg]), advance_systemMove hi]; rfl

/-- A write that would leave protected mode is refused (D5). -/
theorem movToSys_realMode {v : Option SysRegs} {g : SysRegs} (hcpl : s.cpl = 0)
    (heff : s.params.privilegedAtZero = .effect) (hv : v = some g) (hpe : peBit g.cr0 = false) :
    finish (movToSys s v n i) = .refused .realMode := by
  rw [hv, movToSys_some hcpl heff, if_pos hpe]; rfl

/-- A write that would turn paging on is refused (D4). -/
theorem movToSys_paging {v : Option SysRegs} {g : SysRegs} (hcpl : s.cpl = 0)
    (heff : s.params.privilegedAtZero = .effect) (hv : v = some g) (hpe : peBit g.cr0 = true)
    (hpg : pgBit g.cr0 = true) : finish (movToSys s v n i) = .refused .paging := by
  rw [hv, movToSys_some hcpl heff, if_neg (by simp [hpe]), if_pos hpg]; rfl

/-- A write of a number no register has is refused (R34). -/
theorem movToSys_refused {v : Option SysRegs} (hcpl : s.cpl = 0) (heff : s.params.privilegedAtZero = .effect)
    (hv : v = none) : finish (movToSys s v n i) = .refused (.noSuchRegister n) := by
  subst hv
  rw [movToSys, privileged_effect hcpl heff]; rfl

end SystemMove

/-! ### The register files (R34) -/

section RegisterFiles
variable (g : SysRegs) (v : Word)

/-- A read of CR0, CR2 or CR3 finds its value. -/
theorem readCr_named : ∀ p ∈ [((0 : BitVec 3), g.cr0), (2, g.cr2), (3, g.cr3)], readCr g p.1 = some p.2 := by
  simp [readCr]

/-- A write of CR0, CR2 or CR3 replaces that register alone. -/
theorem writeCr_named :
    ∀ p ∈ [((0 : BitVec 3), { g with cr0 := v }), (2, { g with cr2 := v }), (3, { g with cr3 := v })],
      writeCr g p.1 v = some p.2 := by
  simp [writeCr]

/-- The other five numbers name no control register. -/
theorem cr_unnamed {n : BitVec 3} (h : n ∉ [(0 : BitVec 3), 2, 3]) :
    readCr g n = none ∧ writeCr g n v = none := by
  have others : ∀ n : BitVec 3, n ∉ [(0 : BitVec 3), 2, 3] → n ∈ [(1 : BitVec 3), 4, 5, 6, 7] := by decide
  have hnone : ∀ n ∈ [(1 : BitVec 3), 4, 5, 6, 7], readCr g n = none ∧ writeCr g n v = none := by
    simp [readCr, writeCr]
  exact hnone n (others n h)

/-- A read of DR0 to DR3, DR6 or DR7 finds its value. -/
theorem readDr_named :
    ∀ p ∈ [((0 : BitVec 3), g.dr0), (1, g.dr1), (2, g.dr2), (3, g.dr3), (6, g.dr6), (7, g.dr7)],
      readDr g p.1 = some p.2 := by
  simp [readDr]

/-- A write of DR0 to DR3, DR6 or DR7 replaces that register alone. -/
theorem writeDr_named :
    ∀ p ∈ [((0 : BitVec 3), { g with dr0 := v }), (1, { g with dr1 := v }), (2, { g with dr2 := v }),
        (3, { g with dr3 := v }), (6, { g with dr6 := v }), (7, { g with dr7 := v })],
      writeDr g p.1 v = some p.2 := by
  simp [writeDr]

/-- The numbers 4 and 5 name no debug register. -/
theorem dr_unnamed : ∀ n ∈ [(4 : BitVec 3), 5], readDr g n = none ∧ writeDr g n v = none := by
  simp [readDr, writeDr]

/-- A read of TR6 or TR7 finds its value. -/
theorem readTr_named : ∀ p ∈ [((6 : BitVec 3), g.tr6), (7, g.tr7)], readTr g p.1 = some p.2 := by
  simp [readTr]

/-- A write of TR6 or TR7 replaces that register alone. -/
theorem writeTr_named :
    ∀ p ∈ [((6 : BitVec 3), { g with tr6 := v }), (7, { g with tr7 := v })], writeTr g p.1 v = some p.2 := by
  simp [writeTr]

/-- The other six numbers name no test register. -/
theorem tr_unnamed {n : BitVec 3} (h : n ∉ [(6 : BitVec 3), 7]) :
    readTr g n = none ∧ writeTr g n v = none := by
  have others : ∀ n : BitVec 3, n ∉ [(6 : BitVec 3), 7] → n ∈ [(0 : BitVec 3), 1, 2, 3, 4, 5] := by decide
  have hnone : ∀ n ∈ [(0 : BitVec 3), 1, 2, 3, 4, 5], readTr g n = none ∧ writeTr g n v = none := by
    simp [readTr, writeTr]
  exact hnone n (others n h)

end RegisterFiles

/-- Settles O52: each file's read finds the register named or none, and the move follows. -/
theorem systemRegisterReads : Obligations.SystemRegisterReads := by
  intro s dst n v hcpl heff
  refine ⟨fun h => ?cr, fun h => ?dr, fun h => ?tr, fun h => ?noCr, fun h => ?noDr, fun h => ?noTr⟩
  case cr => exact movFromSys_next hcpl heff rfl (readCr_named s.sys _ h)
  case dr => exact movFromSys_next hcpl heff rfl (readDr_named s.sys _ h)
  case tr => exact movFromSys_next hcpl heff rfl (readTr_named s.sys _ h)
  case noCr => exact movFromSys_refused hcpl heff (cr_unnamed s.sys v h).1
  case noDr => exact movFromSys_refused hcpl heff (dr_unnamed s.sys v n h).1
  case noTr => exact movFromSys_refused hcpl heff (tr_unnamed s.sys v h).1

/-- Settles O53: each file's write finds the register named or none, and CR0 as written decides the rest. -/
theorem systemRegisterWrites : Obligations.SystemRegisterWrites := by
  intro s src n g hcpl heff
  refine ⟨fun hpe hpg => ⟨fun h => ?cr, fun h => ?dr, fun h => ?tr⟩, fun h => ?noCr, fun h => ?noDr,
    fun h => ?noTr, fun hpe => ?realMode, fun hpe hpg => ?paging⟩
  case cr => exact movToSys_next hcpl heff hpe hpg rfl (writeCr_named s.sys _ _ h)
  case dr => exact movToSys_next hcpl heff hpe hpg rfl (writeDr_named s.sys _ _ h)
  case tr => exact movToSys_next hcpl heff hpe hpg rfl (writeTr_named s.sys _ _ h)
  case noCr => exact movToSys_refused hcpl heff (cr_unnamed s.sys _ h).2
  case noDr => exact movToSys_refused hcpl heff (dr_unnamed s.sys _ n h).2
  case noTr => exact movToSys_refused hcpl heff (tr_unnamed s.sys _ h).2
  case realMode => exact movToSys_realMode hcpl heff (writeCr_named s.sys _ _ List.mem_cons_self) hpe
  case paging => exact movToSys_paging hcpl heff (writeCr_named s.sys _ _ List.mem_cons_self) hpe hpg

end Sys2Proof.Machine
end

section
/-! Memory and its checks: the little-endian stores (R62), the limits of a segment (R64 to R66, R72), the bounds of a
descriptor table (R73, R74), and the access checks an instruction makes on its operands (R68 to R72, R93, R95). -/

namespace Sys2Proof.Machine

/-! ### Little-endian stores (R62) -/

/-- A word is made of its own two bytes, the first one low. -/
@[simp] theorem half16_bytes (v : Half) : half16 (v.extractLsb' 0 8) (v.extractLsb' 8 8) = v :=
  (BitVec.extractLsb'_append_extractLsb'_eq_extractLsb' rfl).trans BitVec.extractLsb'_eq_self

/-- A doubleword is made of its own four bytes, the first one low. -/
@[simp] theorem word32_bytes (v : Word) :
    word32 (v.extractLsb' 0 8) (v.extractLsb' 8 8) (v.extractLsb' 16 8) (v.extractLsb' 24 8) = v :=
  calc word32 (v.extractLsb' 0 8) (v.extractLsb' 8 8) (v.extractLsb' 16 8) (v.extractLsb' 24 8)
    _ = v.extractLsb' 16 16 ++ v.extractLsb' 8 8 ++ v.extractLsb' 0 8 :=
      congrArg (· ++ v.extractLsb' 8 8 ++ v.extractLsb' 0 8)
        (BitVec.extractLsb'_append_extractLsb'_eq_extractLsb' rfl)
    _ = v.extractLsb' 8 24 ++ v.extractLsb' 0 8 :=
      congrArg (· ++ v.extractLsb' 0 8) (BitVec.extractLsb'_append_extractLsb'_eq_extractLsb' rfl)
    _ = v.extractLsb' 0 32 := BitVec.extractLsb'_append_extractLsb'_eq_extractLsb' rfl
    _ = v := BitVec.extractLsb'_eq_self

/-- The `k`-th byte of a doubleword. -/
theorem bytes32_getElem (v : Word) {k : Nat} (hk : k < (bytes32 v).length) :
    (bytes32 v)[k] = v.extractLsb' (8 * k) 8 := by
  match k, hk with
  | 0, _ | 1, _ | 2, _ | 3, _ => rfl

/-- The `k`-th byte of a word. -/
theorem bytes16_getElem (v : Half) {k : Nat} (hk : k < (bytes16 v).length) :
    (bytes16 v)[k] = v.extractLsb' (8 * k) 8 := by
  match k, hk with
  | 0, _ | 1, _ => rfl

/-- The byte after the `k`-th from an address is the `k`-th from the next address. -/
theorem add_ofNat_succ (a : Word) (k : Nat) : a + BitVec.ofNat 32 (k + 1) = a + 1 + BitVec.ofNat 32 k := by
  rw [BitVec.ofNat_add, BitVec.add_comm (BitVec.ofNat 32 k), ← BitVec.add_assoc]; rfl

/-- Byte stores leave every address they do not reach (R62). -/
theorem linWriteBytes_sameMemOutside {s : State} (h : s.mem.wf = true) (a : Word) (l : List Byte) :
    SameMemOutside s (linWriteBytes s a l) a l.length := by
  intro b hb
  induction l generalizing s a with
  | nil => rfl
  | cons v t ih =>
    have hfirst : b ≠ a := by simpa using hb 0 (Nat.succ_pos _)
    have hrest : ∀ k < t.length, b ≠ a + 1 + BitVec.ofNat 32 k := fun k hk =>
      add_ofNat_succ a k ▸ hb (k + 1) (Nat.succ_lt_succ hk)
    rw [linWriteBytes, ih (linWrite8_wf h a v) (a + 1) hrest, linRead8_linWrite8 h, if_neg hfirst]

/-- Byte stores of no more bytes than there are addresses leave each byte at its own (R62). -/
theorem linRead8_linWriteBytes {s : State} (h : s.mem.wf = true) (a : Word) {l : List Byte}
    (hl : l.length ≤ 2 ^ 32) {k : Nat} (hk : k < l.length) :
    linRead8 (linWriteBytes s a l) (a + BitVec.ofNat 32 k) = l[k] := by
  induction l generalizing s a k with
  | nil => cases hk
  | cons v t ih =>
    simp only [List.length_cons] at hl hk
    cases k with
    | succ k => rw [add_ofNat_succ]; exact ih (linWrite8_wf h a v) (a + 1) (by omega) (Nat.lt_of_succ_lt_succ hk)
    | zero =>
      have hout : ∀ k < t.length, a + BitVec.ofNat 32 0 ≠ a + 1 + BitVec.ofNat 32 k := fun k hk e => by
        rw [← add_ofNat_succ, BitVec.add_right_inj] at e
        have := congrArg BitVec.toNat e
        simp only [BitVec.toNat_ofNat] at this
        omega
      rw [linWriteBytes, linWriteBytes_sameMemOutside (linWrite8_wf h a v) (a + 1) t _ hout, linRead8_linWrite8 h]
      simp

/-- A word read is the value whose bytes lie there, low byte first. -/
theorem linRead16_of_bytes {s : State} {a : Word} {v : Half}
    (h : ∀ k : Nat, k < 2 → linRead8 s (a + BitVec.ofNat 32 k) = v.extractLsb' (8 * k) 8) : linRead16 s a = v := by
  have h0 : linRead8 s a = v.extractLsb' 0 8 := by simpa using h 0 (by decide)
  have h1 : linRead8 s (a + 1) = v.extractLsb' 8 8 := h 1 (by decide)
  rw [linRead16, h0, h1, half16_bytes]

/-- A doubleword read is the value whose bytes lie there, low byte first. -/
theorem linRead32_of_bytes {s : State} {a : Word} {v : Word}
    (h : ∀ k : Nat, k < 4 → linRead8 s (a + BitVec.ofNat 32 k) = v.extractLsb' (8 * k) 8) : linRead32 s a = v := by
  have h0 : linRead8 s a = v.extractLsb' 0 8 := by simpa using h 0 (by decide)
  have h1 : linRead8 s (a + 1) = v.extractLsb' 8 8 := h 1 (by decide)
  have h2 : linRead8 s (a + 2) = v.extractLsb' 16 8 := h 2 (by decide)
  have h3 : linRead8 s (a + 3) = v.extractLsb' 24 8 := h 3 (by decide)
  rw [linRead32, h0, h1, h2, h3, word32_bytes]

/-- Settles O14: the stores are byte stores of the value's bytes, and a read puts them together again. -/
theorem storesAreLittleEndian : Obligations.StoresAreLittleEndian := by
  intro s a h
  refine ⟨fun v => ?doubleword, fun v => ?word⟩
  case doubleword =>
    have hbytes : ∀ k : Nat, k < 4 →
        linRead8 (linWrite32 s a v) (a + BitVec.ofNat 32 k) = v.extractLsb' (8 * k) 8 := fun _ hk =>
      (linRead8_linWriteBytes h a (l := bytes32 v) (by simp) hk).trans (bytes32_getElem v hk)
    exact ⟨hbytes, linRead32_of_bytes hbytes, linWriteBytes_sameMemOutside h a (bytes32 v)⟩
  case word =>
    have hbytes : ∀ k : Nat, k < 2 →
        linRead8 (linWrite16 s a v) (a + BitVec.ofNat 32 k) = v.extractLsb' (8 * k) 8 := fun _ hk =>
      (linRead8_linWriteBytes h a (l := bytes16 v) (by simp) hk).trans (bytes16_getElem v hk)
    exact ⟨hbytes, linRead16_of_bytes hbytes, linWriteBytes_sameMemOutside h a (bytes16 v)⟩

/-! ### The limit of a segment (R64 to R66, R72) -/

/-- Settles O18: appending twelve one-bits is multiplying by 2^12 and adding FFFH. -/
theorem effectiveLimit : Obligations.EffectiveLimit := by
  intro d
  have hfield := d.limit20.isLt
  refine ⟨fun hg => ?bytes, fun hg => ?pages, fun _ => rfl⟩
  case bytes =>
    have : d.effLimit.toNat = d.limit20.toNat := by
      simp only [Descriptor.effLimit, hg, Bool.false_eq_true, if_false, BitVec.toNat_setWidth]
      omega
    omega
  case pages =>
    have : d.effLimit.toNat = d.limit20.toNat * 2 ^ 12 + 0xFFF := by
      simp only [Descriptor.effLimit, hg, if_true, shlOnes, BitVec.toNat_append]
      rw [← Nat.shiftLeft_add_eq_or_of_lt (by decide), Nat.shiftLeft_eq]
      rfl
    omega

/-- Settles O19: the table that TI names decides the bound and the base. -/
theorem descriptorTableBounds : Obligations.DescriptorTableBounds := by
  intro s sel
  refine ⟨fun hti => ?gdt, fun hti => ?ldt⟩
  case gdt | ldt => simp [readDescriptor, inTable, descriptorAddr, hti]

/-- Where a register takes the kind of access, its limit alone decides, with SF(0) through SS (R70, R72). -/
theorem segCheck_of_accessTypeOk {s : State} {r : SReg} {k : Access} (h : accessTypeOk s r k = true) (off : Word)
    (n : Nat) :
    segCheck s r off n k =
      if (s.segs.get r).inLimit off n = true then .ok ()
      else if r = .ss then .error (.fault (.sf 0))
      else .error (.fault (.gp 0)) := by
  split
  · next hin => exact segCheck_ok.2 (by simp [canAccess, h, hin])
  · next hin =>
    have hno : permitted s { seg := r, off := off, bytes := n, kind := k } = false := by
      simp [permitted, canAccess, h, hin]
    have hfault := segCheck_fault hno
    simp only [accessFault, h, and_true] at hfault
    rw [hfault]
    split <;> rfl

/-- A register takes a write iff it is usable and holds writable data (R68, R71). -/
theorem accessTypeOk_write {s : State} {r : SReg} :
    accessTypeOk s r .write = true ↔ (s.segs.get r).attr.valid = true ∧ (s.segs.get r).attr.writable = true := by
  simp [accessTypeOk]

/-- A register takes a read iff it is usable and does not hold unreadable code (R69, R71). -/
theorem accessTypeOk_read {s : State} {r : SReg} :
    accessTypeOk s r .read = true ↔
      (s.segs.get r).attr.valid = true ∧
        ((s.segs.get r).attr.executable = true → (s.segs.get r).attr.readableCode = true) := by
  cases h : (s.segs.get r).attr.executable <;> simp [accessTypeOk, h]

/-- A data segment is not executable (R30). -/
theorem SegAttr.executable_of_data {a : SegAttr} (h : a.data = true) : a.executable = false := by
  simp only [SegAttr.data, Bool.and_eq_true, Bool.not_eq_true'] at h
  simp only [SegAttr.executable, h, Bool.and_false]

/-- An executable segment is never writable (R30, R68). -/
theorem SegAttr.writable_of_executable {a : SegAttr} (h : a.executable = true) : a.writable = false := by
  rw [← Bool.not_eq_true]
  intro hw
  exact Bool.false_ne_true ((executable_of_data (Bool.and_eq_true_iff.1 hw).1).symm.trans h)

/-- An expand-down segment is not executable (R30, R66). -/
theorem SegAttr.executable_of_expandDown {a : SegAttr} (h : a.expandDown = true) : a.executable = false :=
  executable_of_data (Bool.and_eq_true_iff.1 h).1

/-- Outside expand-down segments the last byte must not lie beyond the limit (R65). -/
theorem SegReg.inLimit_up {g : SegReg} (h : g.attr.expandDown = false) (off : Word) (n : Nat) :
    g.inLimit off n = true ↔ off.toNat + n ≤ g.limit.toNat + 1 := by
  simp [SegReg.inLimit, Machine.inLimit, h, inLimitUp]

/-- In an expand-down segment the offset lies above the limit and the last byte within the bound the B-bit sets
(R66). -/
theorem SegReg.inLimit_down {g : SegReg} (h : g.attr.expandDown = true) (off : Word) (n : Nat) :
    g.inLimit off n = true ↔
      g.limit.toNat < off.toNat ∧ off.toNat + n - 1 ≤ if g.attr.db then 0xFFFFFFFF else 0xFFFF := by
  cases hdb : g.attr.db <;>
    simp [SegReg.inLimit, Machine.inLimit, h, hdb, inLimitDown, inLimitUp, upperBound, BitVec.lt_def]

/-- Settles O15: a limit exception is raised exactly where the limit predicate fails. -/
theorem expandUpLimit : Obligations.ExpandUpLimit := by
  intro s r off k hvalid hup hwrite hread
  have htype : accessTypeOk s r k = true := by
    cases k with
    | write => exact accessTypeOk_write.2 ⟨hvalid, hwrite rfl⟩
    | read => exact accessTypeOk_read.2 ⟨hvalid, hread rfl⟩
  have hpass : ∀ n, segCheck s r off n k = .ok () ↔ off.toNat + n ≤ (s.segs.get r).limit.toNat + 1 := fun n => by
    rw [segCheck_ok, canAccess, htype, Bool.true_and, SegReg.inLimit_up hup]
  have hraise : ∀ n, (∃ c, segCheck s r off n k = .error (.fault (if r = .ss then .sf c else .gp c))) ↔
      (s.segs.get r).limit.toNat + 1 < off.toNat + n := fun n => by
    rw [← not_le, ← SegReg.inLimit_up hup, segCheck_of_accessTypeOk htype]
    split
    · next hin => simp [hin]
    · next hout => exact ⟨fun _ => hout, fun _ => ⟨0, by split <;> rfl⟩⟩
  refine ⟨(hraise 1).trans ?_, (hraise 2).trans ?_, (hraise 4).trans ?_, fun n hn =>
    ⟨(hraise n).trans ?_, (hpass n).trans ?_⟩⟩ <;> omega

/-- Settles O16: an expand-down segment is data, so a read is always of a permitted kind, and its limit decides. -/
theorem expandDownLimit : Obligations.ExpandDownLimit := by
  intro s r off n k _ hvalid hdown hwrite
  have htype : accessTypeOk s r k = true := by
    cases k with
    | write => exact accessTypeOk_write.2 ⟨hvalid, hwrite rfl⟩
    | read => exact accessTypeOk_read.2 ⟨hvalid, by simp [SegAttr.executable_of_expandDown hdown]⟩
  rw [segCheck_of_accessTypeOk htype]
  exact if_congr (SegReg.inLimit_down hdown off n) rfl rfl

/-! ### The checks of an instruction's operands (R70, R93, R95) -/

/-- The checks of some accesses in turn: the first that is not permitted ends them with its fault (R70). -/
def checkAccesses (s : State) : List SegAccess → Res Unit
  | [] => .ok ()
  | x :: l => segCheck s x.seg x.off x.bytes x.kind >>= fun _ => checkAccesses s l

section Operands
variable {s : State}

/-- The checks of two lists of accesses, one after the other. -/
theorem checkAccesses_append (l l' : List SegAccess) :
    checkAccesses s (l ++ l') = checkAccesses s l >>= fun _ => checkAccesses s l' := by
  induction l with
  | nil => rfl
  | cons x l ih => simp only [List.cons_append, checkAccesses, ih, bind_assoc]

/-- One access's check. -/
@[simp] theorem checkAccesses_singleton (x : SegAccess) :
    checkAccesses s [x] = segCheck s x.seg x.off x.bytes x.kind := by
  rw [checkAccesses]
  exact bind_pure _

/-- Permitted accesses pass their checks. -/
theorem checkAccesses_permitted {l : List SegAccess} (h : ∀ y ∈ l, permitted s y = true) :
    checkAccesses s l = .ok () := by
  induction l with
  | nil => rfl
  | cons x l ih =>
    have hx : segCheck s x.seg x.off x.bytes x.kind = .ok () := segCheck_ok.2 (h x List.mem_cons_self)
    rw [checkAccesses, hx]
    exact ih fun y hy => h y (List.mem_cons_of_mem x hy)

/-- The first access that is not permitted ends the checks with its fault. -/
theorem checkAccesses_fault {before behind : List SegAccess} {x : SegAccess}
    (hbefore : ∀ y ∈ before, permitted s y = true) (hx : permitted s x = false) :
    checkAccesses s (before ++ x :: behind) = .error (.fault (accessFault s x)) := by
  rw [checkAccesses_append, checkAccesses_permitted hbefore]
  show checkAccesses s (x :: behind) = _
  rw [checkAccesses, segCheck_fault hx]
  rfl

/-! #### Operands that are read

Each is the checks of its accesses, in their order, and then its value. -/

theorem memRead16_eq (r : SReg) (off : Word) :
    memRead16 s r off = checkAccesses s [{ seg := r, off := off, bytes := 2, kind := .read }] >>= fun _ =>
      .ok (linRead16 s (linear s r off)) := by
  rw [checkAccesses_singleton]; rfl

theorem memRead32_eq (r : SReg) (off : Word) :
    memRead32 s r off = checkAccesses s [{ seg := r, off := off, bytes := 4, kind := .read }] >>= fun _ =>
      .ok (linRead32 s (linear s r off)) := by
  rw [checkAccesses_singleton]; rfl

theorem readRM16_eq (rm : RM) :
    readRM16 s rm = checkAccesses s (rmAccesses s 2 rm) >>= fun _ => .ok (valueRM16 s rm) := by
  cases rm with
  | reg r => rfl
  | mem m => exact memRead16_eq _ _

theorem readRM32_eq (rm : RM) :
    readRM32 s rm = checkAccesses s (rmAccesses s 4 rm) >>= fun _ => .ok (valueRM32 s rm) := by
  cases rm with
  | reg r => rfl
  | mem m => exact memRead32_eq _ _

theorem readFarPtr_eq (m : Mem) :
    readFarPtr s m = checkAccesses s (farPtrAccesses s m) >>= fun _ =>
      .ok { sel := farPtrSel s m, off := farPtrOff s m } := by
  simp only [readFarPtr, memRead32_eq, memRead16_eq, farPtrAccesses, checkAccesses, bind_assoc]
  rfl

theorem readTableOperand_eq (m : Mem) :
    readTableOperand s m = checkAccesses s (tableAccesses s m) >>= fun _ => .ok (tableValue s m) := by
  simp only [readTableOperand, memRead32_eq, memRead16_eq, tableAccesses, checkAccesses, bind_assoc]
  rfl

theorem arplOperand_eq {α : Type} (rm : RM) (g : Half → Res α) :
    (checkRM16Write s rm >>= fun _ => readRM16 s rm >>= g) =
      checkAccesses s (arplAccesses s rm) >>= fun _ => g (valueRM16 s rm) := by
  cases rm with
  | reg r => rfl
  | mem m =>
    simp only [checkRM16Write, readRM16_eq, arplAccesses, rmAccesses, checkAccesses, bind_assoc]
    rfl

/-! #### Which checks come first -/

/-- An operation makes the checks of some accesses before anything else decides its outcome. -/
def ChecksFirst {α : Type} (s : State) (l : List SegAccess) (x : Res α) : Prop :=
  ∃ f : Unit → Res α, x = checkAccesses s l >>= f

section ChecksFirst
variable {α β : Type} {l l' : List SegAccess} {x : Res α} {g : α → Res β} {v : α}

/-- Every operation makes no checks first. -/
theorem ChecksFirst.nil (x : Res α) : ChecksFirst s [] x := ⟨fun _ => x, rfl⟩

/-- An operation that begins with the check of one access. -/
theorem ChecksFirst.check (a : SegAccess) (f : Unit → Res α) :
    ChecksFirst s [a] (segCheck s a.seg a.off a.bytes a.kind >>= f) :=
  ⟨f, by rw [checkAccesses_singleton]⟩

/-- A read of an operand, and what comes after it makes its own checks. -/
theorem ChecksFirst.read_append (h : x = checkAccesses s l >>= fun _ => .ok v) (hg : ChecksFirst s l' (g v)) :
    ChecksFirst s (l ++ l') (x >>= g) := by
  obtain ⟨f, hf⟩ := hg
  refine ⟨f, ?_⟩
  rw [h, bind_assoc, checkAccesses_append, bind_assoc, ← hf]
  rfl

/-- A read of an operand before the rest. -/
theorem ChecksFirst.read (h : x = checkAccesses s l >>= fun _ => .ok v) : ChecksFirst s l (x >>= g) :=
  List.append_nil l ▸ read_append h (.nil (g v))

/-- A privileged instruction makes its effect's checks where it has its effect (R251, log entry 4). -/
theorem ChecksFirst.privileged {x : Res State} (hcpl : s.cpl = 0) (heff : s.params.privilegedAtZero = .effect)
    (h : ChecksFirst s l x) : ChecksFirst s l (privileged s x) := by
  rwa [privileged_effect hcpl heff]

/-- An operation that checks first ends with the fault of the first access that is not permitted. -/
theorem ChecksFirst.fault {before behind : List SegAccess} {y : SegAccess}
    (h : ChecksFirst s (before ++ y :: behind) x) (hbefore : ∀ z ∈ before, permitted s z = true)
    (hy : permitted s y = false) : x = .error (.fault (accessFault s y)) := by
  obtain ⟨f, rfl⟩ := h
  rw [checkAccesses_fault hbefore hy]
  rfl

end ChecksFirst

/-! #### The instructions -/

theorem popSreg_checksFirst (r : SReg) (i : Instr) : ChecksFirst s [topAccess s 4] (popSreg s r i) :=
  .read (memRead32_eq _ _)

theorem loadFarPtr_checksFirst (r : SReg) (dst : Reg) (m : Mem) (i : Instr) :
    ChecksFirst s (farPtrAccesses s m) (loadFarPtr s r dst m i) :=
  .read (readFarPtr_eq m)

theorem nearCall_checksFirst (t ret : Word) : ChecksFirst s [slotAccess s] (nearCall s t ret) :=
  .check (slotAccess s) _

theorem nearReturn_checksFirst (n : Word) : ChecksFirst s [topAccess s 4] (nearReturn s n) :=
  .read (memRead32_eq _ _)

theorem readReturnPtr_eq :
    readReturnPtr s = checkAccesses s [topAccess s 8] >>= fun _ =>
      .ok { sel := (linRead32 s (linear s .ss s.regs.esp + 4)).extractLsb' 0 16
            off := linRead32 s (linear s .ss s.regs.esp) } := by
  rw [checkAccesses_singleton]; rfl

theorem farReturn_checksFirst (n : Word) : ChecksFirst s [topAccess s 8] (farReturn s n) :=
  .read readReturnPtr_eq

/-- Every instruction makes the checks of its operand and its stack slot first; a privileged one where it has its
effect (R70, R93, R95, R130, R162, R220, R223). -/
theorem exec_checksFirst {i : Instr}
    (hpriv : isPrivileged i = true → s.cpl = 0 ∧ s.params.privilegedAtZero = .effect) :
    ∃ x, exec i s = finish x ∧ ChecksFirst s (operandAccesses s i) x := by
  cases i with
  | jmpRm32 rm => exact ⟨_, rfl, .read (readRM32_eq rm)⟩
  | callRm32 rm => exact ⟨_, rfl, .read_append (readRM32_eq rm) (nearCall_checksFirst _ _)⟩
  | callRel32 _ => exact ⟨_, rfl, nearCall_checksFirst _ _⟩
  | jmpMem m | callMem m => exact ⟨_, rfl, .read (readFarPtr_eq m)⟩
  | lds _ m | les _ m | lss _ m | lfs _ m | lgs _ m => exact ⟨_, rfl, loadFarPtr_checksFirst _ _ m _⟩
  | ret | retImm _ => exact ⟨_, rfl, nearReturn_checksFirst _⟩
  | retf | retfImm _ => exact ⟨_, rfl, farReturn_checksFirst _⟩
  | popDs | popEs | popSs | popFs | popGs => exact ⟨_, rfl, popSreg_checksFirst _ _⟩
  | movSreg _ rm | lar _ rm | lsl _ rm | verr rm | verw rm => exact ⟨_, rfl, .read (readRM16_eq rm)⟩
  | arpl rm _ => exact ⟨_, rfl, _, arplOperand_eq rm _⟩
  | lldt rm | lmsw rm | ltr rm =>
    obtain ⟨hcpl, heff⟩ := hpriv rfl
    exact ⟨_, rfl, .privileged hcpl heff (.read (readRM16_eq rm))⟩
  | lgdt m | lidt m =>
    obtain ⟨hcpl, heff⟩ := hpriv rfl
    exact ⟨_, rfl, .privileged hcpl heff (.read (readTableOperand_eq m))⟩
  | jmpRel8 _ | jmpRel32 _ | jmpPtr _ _ | callPtr _ _ | clts | hlt | movFromCr _ _ | movToCr _ _ | movFromDr _ _
  | movToDr _ _ | movFromTr _ _ | movToTr _ _ => exact ⟨_, rfl, .nil _⟩
  | int3 | intImm _ | into | iret => exact ⟨interruptStop, rfl, .nil _⟩

end Operands

/-- The last check of an access: within the limit, or the exception of the segment register (R70, R72). -/
theorem stopIf_limit (s : State) (r : SReg) (c : Bool) :
    stopIf (c = false) (raise s (limitException r) .zero) =
      if c = true then .ok ()
      else if r = .ss then .error (.fault (.sf 0))
      else .error (.fault (.gp 0)) := by
  cases c with
  | true => rfl
  | false => cases r <;> rfl

/-- Settles O17: the check is a chain of stops, in which an executable segment is never writable; and every
instruction checks its operands and its stack slot first. -/
theorem accessChecks : Obligations.AccessChecks := by
  refine ⟨fun s r off n k => ?check, fun s i before behind x haccesses hbefore hx hpriv => ?instruction⟩
  case check =>
    have hwrite : (s.segs.get r).attr.writable = false ↔
        (s.segs.get r).attr.executable = true ∨ (s.segs.get r).attr.writable = false :=
      ⟨.inr, fun h => h.elim SegAttr.writable_of_executable id⟩
    simp only [segCheck, stopIf_bind]
    exact if_congr .rfl rfl (if_congr (and_congr_right fun _ => hwrite) rfl
      (if_congr .rfl rfl (stopIf_limit s r _)))
  case instruction =>
    obtain ⟨y, hexec, hfirst⟩ := exec_checksFirst hpriv
    rw [haccesses] at hfirst
    rw [hexec, hfirst.fault hbefore hx]
    rfl

end Sys2Proof.Machine
end

section
/-! The decoder on encodings: what `decode` makes of the bytes of a well-formed instruction and of any proper beginning
of them (R91 to R96), and the fetch of an instruction that runs past CS's limit (R80). -/

namespace Sys2Proof

/-! ### Parsers that read exactly some bytes -/

/-- A parser reads the bytes `code`, and no more, as `a`; where the bytes end before `code` does, it says so (R91). -/
structure ReadsExactly {α : Type} (p : List Byte → Parse (Read α)) (code : List Byte) (a : α) : Prop where
  whole : ∀ rest, p (code ++ rest) = .ok (a, rest)
  cut : ∀ l b t, code = l ++ b :: t → p l = .error .truncated

namespace ReadsExactly
variable {α β : Type} {p : List Byte → Parse (Read α)} {q : List Byte → Parse (Read β)} {c c' : List Byte} {a : α}
  {b : β}

/-- A value that takes no bytes. -/
theorem ok (a : α) : ReadsExactly (fun t => .ok (a, t)) [] a where
  whole _ := rfl
  cut l b t h := by simp at h

/-- A parser whose first byte is known. -/
theorem cons {x : Byte} (hnil : p [] = .error .truncated) (h : ReadsExactly (fun t => p (x :: t)) c a) :
    ReadsExactly p (x :: c) a where
  whole rest := h.whole rest
  cut l b t e := by
    cases l with
    | nil => exact hnil
    | cons y l =>
      obtain ⟨rfl, hc⟩ := List.cons.inj e
      exact h.cut l b t hc

/-- What is left to read once the first byte is known. -/
theorem tail {x : Byte} (h : ReadsExactly p (x :: c) a) : ReadsExactly (fun t => p (x :: t)) c a where
  whole rest := h.whole rest
  cut l b t e := h.cut (x :: l) b t (congrArg (x :: ·) e)

/-- Two parsers in sequence read the bytes of the one and then those of the other. -/
theorem seq {f : Read α → Parse (Read β)} (hp : ReadsExactly p c a) (hq : ∀ l, q l = p l >>= f)
    (hf : ReadsExactly (fun t => f (a, t)) c' b) : ReadsExactly q (c ++ c') b where
  whole rest := by
    rw [List.append_assoc, hq, hp.whole]
    exact hf.whole rest
  cut l y t e := by
    have behind : ∀ u, l = c ++ u → c' = u ++ y :: t → q l = .error .truncated := by
      rintro u rfl hc'
      rw [hq, hp.whole]
      exact hf.cut u y t hc'
    obtain ⟨u, hl, hc'⟩ | ⟨u, rfl, hc'⟩ := List.append_eq_append_iff.1 e
    · exact behind u hl hc'
    · cases u with
      | nil => exact behind [] (by simp) hc'.symm
      | cons z u =>
        rw [hq, hp.cut l z u rfl]
        rfl

/-- A parser whose answer is given to a function. -/
theorem map (k : α → β) (hp : ReadsExactly p c a) (hq : ∀ l, q l = p l >>= fun x => .ok (k x.1, x.2)) :
    ReadsExactly q c (k a) :=
  List.append_nil c ▸ seq hp hq (ok (k a))

end ReadsExactly

/-! ### Immediates -/

/-- A byte read before the rest of a parser. -/
@[simp] theorem take1_cons_bind {α : Type} (b : Byte) (t : List Byte) (f : Read Byte → Parse α) :
    (take1 (b :: t) >>= f) = f (b, t) := rfl

theorem take1_reads (b : Byte) : ReadsExactly take1 [b] b := .cons rfl (.ok b)

/-- A word is read low byte first (R91). -/
theorem take2_reads (v : Half) : ReadsExactly take2 (bytes16 v) v where
  whole rest := by
    show Except.ok (half16 _ _, rest) = _
    rw [Machine.half16_bytes]
  cut l b t h := by
    match l with
    | [] | [_] => rfl
    | _ :: _ :: _ => simp [bytes16] at h

/-- A doubleword is read low byte first (R91). -/
theorem take4_reads (v : Word) : ReadsExactly take4 (bytes32 v) v where
  whole rest := by
    show Except.ok (word32 _ _ _ _, rest) = _
    rw [Machine.word32_bytes]
  cut l b t h := by
    match l with
    | [] | [_] | [_, _] | [_, _, _] => rfl
    | _ :: _ :: _ :: _ :: _ => simp [bytes32] at h

/-- A far pointer is its offset and then its selector (R95). -/
theorem parsePtr_reads (k : Word → Half → Instr) (off : Word) (sel : Half) :
    ReadsExactly (parsePtr k) (bytes32 off ++ bytes16 sel) (k off sel) :=
  .seq (take4_reads off) (fun _ => rfl) (.map (k off) (take2_reads sel) fun _ => rfl)

/-! ### The fields of a ModRM or SIB byte (R93, R94) -/

@[simp] theorem modField_modrm (m : BitVec 2) (r rm : BitVec 3) : modField (modrm m r rm) = m := by
  revert m r rm; decide

@[simp] theorem regField_modrm (m : BitVec 2) (r rm : BitVec 3) : regField (modrm m r rm) = r := by
  revert m r rm; decide

@[simp] theorem rmField_modrm (m : BitVec 2) (r rm : BitVec 3) : rmField (modrm m r rm) = rm := by
  revert m r rm; decide

@[simp] theorem regOf_regNum (r : Reg) : regOf (regNum r) = r := by cases r <;> rfl

@[simp] theorem sregOf_sregNum (r : SReg) : sregOf (sregNum r) = some r := by cases r <;> rfl

@[simp] theorem scaleOf_scaleNum (x : Scale) : scaleOf (scaleNum x) = x := by cases x <;> rfl

theorem regNum_eq_four {r : Reg} : regNum r = 4 ↔ r = .esp := by cases r <;> decide

theorem regNum_eq_five {r : Reg} : regNum r = 5 ↔ r = .ebp := by cases r <;> decide

theorem dispMod_eq_zero {d : Disp} : dispMod d = 0 ↔ d = .none := by cases d <;> simp [dispMod]

/-- No displacement asks for mod = 11, which names a register (R93). -/
theorem dispMod_ne_three (d : Disp) : dispMod d ≠ 3 := by cases d <;> simp [dispMod]

/-- A base and displacement that can be expressed do not take the place of a bare disp32 (R93, R94). -/
theorem not_abs_of_baseDispWf {b : Reg} {d : Disp} (h : baseDispWf b d = true) :
    ¬ (dispMod d = 0 ∧ regNum b = 5) := by
  rw [dispMod_eq_zero, regNum_eq_five]
  rintro ⟨rfl, rfl⟩
  cases h

/-- The index part of a SIB byte is that which was encoded (R94). -/
theorem indexOf_modrm {x : Index} (h : x.wf = true) (b : BitVec 3) :
    indexOf (modrm (scaleNum x.scale) (indexNum x) b) = x := by
  obtain ⟨reg, scale⟩ := x
  cases reg with
  | none => simp [indexOf, indexNum]
  | some r =>
    have hr : ¬ regNum r = 4#3 := fun e => by simp [Index.wf, regNum_eq_four.1 e] at h
    simp [indexOf, indexNum, hr]

/-! ### Operands -/

/-- A displacement is read as its mod field asks (R93). -/
theorem parseDisp_reads (d : Disp) : ReadsExactly (parseDisp (dispMod d)) (encodeDisp d) d := by
  cases d with
  | none => exact .ok _
  | d8 d => exact .map Disp.d8 (take1_reads d) fun _ => rfl
  | d32 d => exact .map Disp.d32 (take4_reads d) fun _ => rfl

theorem parseAddr_base {m : BitVec 2} {rm : BitVec 3} (hsib : rm ≠ 4) (habs : ¬ (m = 0 ∧ rm = 5)) (l : List Byte) :
    parseAddr m rm l = parseDisp m l >>= fun x => .ok (.base (regOf rm) x.1, x.2) := by
  rw [parseAddr, if_neg hsib, if_neg habs]

theorem parseAddr_sib {m : BitVec 2} {sib : Byte} (habs : ¬ (m = 0 ∧ rmField sib = 5)) (l : List Byte) :
    parseAddr m 4 (sib :: l) =
      parseDisp m l >>= fun x => .ok (.sib (regOf (rmField sib)) (indexOf sib) x.1, x.2) := by
  rw [parseAddr, if_pos rfl, take1_cons_bind]
  exact if_neg habs

theorem parseAddr_sibAbs {sib : Byte} (habs : rmField sib = 5) (l : List Byte) :
    parseAddr 0 4 (sib :: l) = take4 l >>= fun x => .ok (.sibAbs (indexOf sib) x.1, x.2) := by
  simp [parseAddr, habs]

/-- A memory operand that can be expressed is read from its ModRM byte on (R93, R94). -/
theorem parseAddr_reads (r : BitVec 3) {a : Addr} (h : a.wf = true) :
    ∃ b t, encodeAddr r a = b :: t ∧ regField b = r ∧ modField b ≠ 3 ∧
      ReadsExactly (parseAddr (modField b) (rmField b)) t a := by
  cases a with
  | base b d =>
    simp only [Addr.wf, Bool.and_eq_true, bne_iff_ne] at h
    obtain ⟨hesp, hdisp⟩ := h
    refine ⟨_, _, rfl, regField_modrm _ _ _, ?_, ?_⟩
    · simpa using dispMod_ne_three d
    · rw [modField_modrm, rmField_modrm]
      have := (parseDisp_reads d).map (Addr.base (regOf (regNum b)))
        (parseAddr_base (mt regNum_eq_four.1 hesp) (not_abs_of_baseDispWf hdisp))
      rwa [regOf_regNum] at this
  | abs d =>
    refine ⟨_, _, rfl, regField_modrm _ _ _, by simp, ?_⟩
    rw [modField_modrm, rmField_modrm]
    exact .map Addr.abs (take4_reads d) fun _ => rfl
  | sib b x d =>
    simp only [Addr.wf, Bool.and_eq_true] at h
    obtain ⟨hindex, hdisp⟩ := h
    refine ⟨_, _, rfl, regField_modrm _ _ _, ?_, ?_⟩
    · simpa using dispMod_ne_three d
    · rw [modField_modrm, rmField_modrm]
      refine .cons rfl ?_
      have habs := not_abs_of_baseDispWf hdisp
      rw [← rmField_modrm (scaleNum x.scale) (indexNum x) (regNum b)] at habs
      have := (parseDisp_reads d).map _ (parseAddr_sib habs)
      rwa [rmField_modrm, regOf_regNum, indexOf_modrm hindex] at this
  | sibAbs x d =>
    refine ⟨_, _, rfl, regField_modrm _ _ _, by simp, ?_⟩
    rw [modField_modrm, rmField_modrm]
    refine .cons rfl ?_
    have := (take4_reads d).map _ (parseAddr_sibAbs (rmField_modrm (scaleNum x.scale) (indexNum x) 5))
    rwa [indexOf_modrm h] at this

/-- A memory operand, if there is one, can be expressed under a segment override (R92 to R94). -/
def ExpressibleUnder (ovr : Option SReg) (o : Option Mem) : Prop := ∀ m, o = some m → m.wf = true ∧ m.ovr = ovr

section Rows
variable {ovr : Option SReg} {p : List Byte → Parse (Read Instr)} {r : BitVec 3}

/-- A row that takes memory only, by what it does with a ModRM byte. -/
theorem ReadsExactly.opMem {k : Mem → Instr} {m : Mem} (h : ExpressibleUnder ovr (some m))
    (hnil : p [] = .error .truncated) (hp : ∀ b t, regField b = r → p (b :: t) = parseOpMem ovr k b t) :
    ReadsExactly p (encodeAddr r m.addr) (k m) := by
  obtain ⟨hwf, rfl⟩ := h m rfl
  obtain ⟨b, t, henc, hreg, hmod, hread⟩ := parseAddr_reads r hwf
  have hmem : ReadsExactly (parseMem m.ovr b) t m := hread.map (Mem.mk m.ovr) fun l => if_neg hmod
  rw [henc]
  exact .cons hnil (.map k hmem fun t => hp b t hreg)

/-- A row that takes a register or memory, by what it does with a ModRM byte. -/
theorem ReadsExactly.opRM {k : RM → Instr} {rm : RM} (h : ExpressibleUnder ovr rm.mem?)
    (hnil : p [] = .error .truncated) (hp : ∀ b t, regField b = r → p (b :: t) = parseOpRM ovr k b t) :
    ReadsExactly p (encodeRM r rm) (k rm) := by
  cases rm with
  | reg g =>
    have hrm : ReadsExactly (parseRM ovr (modrm 3 r (regNum g))) [] (.reg g) := by
      have : parseRM ovr (modrm 3 r (regNum g)) = fun t => .ok (.reg g, t) := by
        funext t; simp [parseRM]
      exact this ▸ .ok _
    exact .cons hnil (.map k hrm fun t => hp _ t (regField_modrm _ _ _))
  | mem m =>
    obtain ⟨hwf, rfl⟩ := h m rfl
    obtain ⟨b, t, henc, hreg, hmod, hread⟩ := parseAddr_reads r hwf
    have hrm : ReadsExactly (parseRM m.ovr b) t (.mem m) :=
      hread.map (fun a => RM.mem { ovr := m.ovr, addr := a }) fun l => if_neg hmod
    rw [encodeRM, henc]
    exact .cons hnil (.map k hrm fun t => hp b t hreg)

end Rows

theorem parseRegRM_reads {ovr : Option SReg} (k : Reg → RM → Instr) (r : Reg) {rm : RM}
    (h : ExpressibleUnder ovr rm.mem?) : ReadsExactly (parseRegRM ovr k) (encodeRM (regNum r) rm) (k r rm) :=
  .opRM h rfl fun b t hb => by
    show parseOpRM ovr (k (regOf (regField b))) b t = _
    rw [hb, regOf_regNum]

theorem parseRegMem_reads {ovr : Option SReg} (k : Reg → Mem → Instr) (r : Reg) {m : Mem}
    (h : ExpressibleUnder ovr (some m)) :
    ReadsExactly (parseRegMem ovr k) (encodeAddr (regNum r) m.addr) (k r m) :=
  .opMem h rfl fun b t hb => by
    show parseOpMem ovr (k (regOf (regField b))) b t = _
    rw [hb, regOf_regNum]

theorem decodeMovSreg_reads {ovr : Option SReg} (sr : SReg) {rm : RM} (h : ExpressibleUnder ovr rm.mem?) :
    ReadsExactly (decodeMovSreg ovr) (encodeRM (sregNum sr) rm) (.movSreg sr rm) :=
  .opRM h rfl fun _ _ hb => by simp [decodeMovSreg, hb]

/-- MOV to and from CRn, DRn and TRn: the number and the general register of the ModRM byte (R95). -/
theorem parseSysMov_reads (k : BitVec 3 → Reg → Instr) (n : BitVec 3) (r : Reg) :
    ReadsExactly (parseSysMov k) [modrm 3 n (regNum r)] (k n r) := by
  have := (take1_reads (modrm 3 n (regNum r))).map (fun b => k (regField b) (regOf (rmField b)))
    (q := parseSysMov k) fun _ => rfl
  rwa [regField_modrm, rmField_modrm, regOf_regNum] at this

/-! ### Rows (R96) -/

/-- The opcode and operand bytes of an instruction are read as that instruction (R95, R96). -/
theorem decodeOpcode_reads {ovr : Option SReg} {i : Instr} (h : ExpressibleUnder ovr i.mem?) :
    ReadsExactly (decodeOpcode ovr) (encodeBody i) i := by
  cases i with
  | ret | retf | popDs | popEs | popSs | hlt | int3 | into | iret => exact .cons rfl (.ok _)
  | popFs | popGs | clts => exact .cons rfl (.cons rfl (.ok _))
  | jmpRel8 d => exact .cons rfl (.map Instr.jmpRel8 (take1_reads d) fun _ => rfl)
  | intImm n => exact .cons rfl (.map Instr.intImm (take1_reads n) fun _ => rfl)
  | jmpRel32 d => exact .cons rfl (.map Instr.jmpRel32 (take4_reads d) fun _ => rfl)
  | callRel32 d => exact .cons rfl (.map Instr.callRel32 (take4_reads d) fun _ => rfl)
  | retImm n => exact .cons rfl (.map Instr.retImm (take2_reads n) fun _ => rfl)
  | retfImm n => exact .cons rfl (.map Instr.retfImm (take2_reads n) fun _ => rfl)
  | jmpPtr off sel => exact .cons rfl (parsePtr_reads Instr.jmpPtr off sel)
  | callPtr off sel => exact .cons rfl (parsePtr_reads Instr.callPtr off sel)
  | jmpRm32 rm | callRm32 rm =>
    exact .cons rfl (.opRM (p := decodeGroup5 ovr) h rfl fun _ _ hb => by simp [decodeGroup5, hb])
  | jmpMem m | callMem m =>
    exact .cons rfl (.opMem (p := decodeGroup5 ovr) h rfl fun _ _ hb => by simp [decodeGroup5, hb])
  | lldt rm | ltr rm | verr rm | verw rm =>
    exact .cons rfl (.cons rfl (.opRM (p := decodeGroup6 ovr) h rfl fun _ _ hb => by simp [decodeGroup6, hb]))
  | lmsw rm =>
    exact .cons rfl (.cons rfl (.opRM (p := decodeGroup7 ovr) h rfl fun _ _ hb => by simp [decodeGroup7, hb]))
  | lgdt m | lidt m =>
    exact .cons rfl (.cons rfl (.opMem (p := decodeGroup7 ovr) h rfl fun _ _ hb => by simp [decodeGroup7, hb]))
  | movSreg sr rm => exact .cons rfl (decodeMovSreg_reads sr h)
  | arpl rm r => exact .cons rfl (parseRegRM_reads (fun r rm => .arpl rm r) r h)
  | lar r rm => exact .cons rfl (.cons rfl (parseRegRM_reads Instr.lar r h))
  | lsl r rm => exact .cons rfl (.cons rfl (parseRegRM_reads Instr.lsl r h))
  | lds r m => exact .cons rfl (parseRegMem_reads Instr.lds r h)
  | les r m => exact .cons rfl (parseRegMem_reads Instr.les r h)
  | lss r m => exact .cons rfl (.cons rfl (parseRegMem_reads Instr.lss r h))
  | lfs r m => exact .cons rfl (.cons rfl (parseRegMem_reads Instr.lfs r h))
  | lgs r m => exact .cons rfl (.cons rfl (parseRegMem_reads Instr.lgs r h))
  | movFromCr r n => exact .cons rfl (.cons rfl (parseSysMov_reads (fun n r => .movFromCr r n) n r))
  | movFromDr r n => exact .cons rfl (.cons rfl (parseSysMov_reads (fun n r => .movFromDr r n) n r))
  | movFromTr r n => exact .cons rfl (.cons rfl (parseSysMov_reads (fun n r => .movFromTr r n) n r))
  | movToCr n r => exact .cons rfl (.cons rfl (parseSysMov_reads Instr.movToCr n r))
  | movToDr n r => exact .cons rfl (.cons rfl (parseSysMov_reads Instr.movToDr n r))
  | movToTr n r => exact .cons rfl (.cons rfl (parseSysMov_reads Instr.movToTr n r))

/-! ### Instructions (R91, R92) -/

/-- An instruction is well formed iff its memory operand, if it has one, is. -/
theorem Instr.wf_iff {i : Instr} : i.wf = true ↔ ∀ m, i.mem? = some m → m.wf = true := by
  unfold Instr.wf
  split <;> simp_all

/-- The opcode byte is no segment override (R96). -/
theorem encodeBody_head (i : Instr) : ∃ b t, encodeBody i = b :: t ∧ overrideOf b = none := by
  cases i <;> exact ⟨_, _, rfl, rfl⟩

/-- An instruction has at least its opcode byte (R91). -/
theorem Instr.length_pos (i : Instr) : 0 < i.length := by
  obtain ⟨b, t, hbody, -⟩ := encodeBody_head i
  simp [Instr.length, encode, hbody]

@[simp] theorem overrideOf_overrideByte (sr : SReg) : overrideOf (overrideByte sr) = some sr := by cases sr <;> rfl

/-- Without a segment override the decoder reads the opcode bytes at once. -/
theorem decode_reads_body {i : Instr} (h : ReadsExactly (decodeOpcode none) (encodeBody i) i) :
    ReadsExactly decode (encodeBody i) i := by
  obtain ⟨b, t, hbody, hover⟩ := encodeBody_head i
  have hdecode : (fun u => decode (b :: u)) = fun u => decodeOpcode none (b :: u) := by
    funext u; simp [decode, hover]
  rw [hbody] at h ⊢
  exact .cons rfl (hdecode ▸ h.tail)

/-- After a segment override the decoder reads the opcode bytes of an instruction with a memory operand (R92). -/
theorem decode_reads_override {i : Instr} {m : Mem} {sr : SReg} (hm : i.mem? = some m)
    (h : ReadsExactly (decodeOpcode (some sr)) (encodeBody i) i) :
    ReadsExactly decode (overrideByte sr :: encodeBody i) i := by
  have hmem : ReadsExactly (fun t => requireMem (i, t)) [] i := by
    have : (fun t => requireMem (i, t)) = fun t => .ok (i, t) := by
      funext t; simp [requireMem, hm]
    exact this ▸ .ok i
  have hseq := h.seq (q := fun u => decode (overrideByte sr :: u)) (fun u => by simp [decode]) hmem
  exact .cons rfl (List.append_nil (encodeBody i) ▸ hseq)

/-- The decoder reads the encoding of a well-formed instruction as that instruction, and finds any proper beginning
of it too short (R91 to R96). -/
theorem decode_reads {i : Instr} (h : i.wf = true) : ReadsExactly decode (encode i) i := by
  have hbody : ∀ ovr, (∀ m, i.mem? = some m → m.ovr = ovr) → ReadsExactly (decodeOpcode ovr) (encodeBody i) i :=
    fun ovr hovr => decodeOpcode_reads fun m hm => ⟨Instr.wf_iff.1 h m hm, hovr m hm⟩
  unfold encode encodeOver
  split
  · next m hm =>
    have hovr : ∀ m', i.mem? = some m' → m'.ovr = m.ovr := fun m' hm' => by
      rw [Option.some.inj (hm'.symm.trans hm)]
    split
    · next sr hsr => exact decode_reads_override hm (hbody _ (hsr ▸ hovr))
    · next hnone => exact decode_reads_body (hbody _ (hnone ▸ hovr))
  · next hm => exact decode_reads_body (hbody none fun m hm' => by rw [hm] at hm'; cases hm')

end Sys2Proof

namespace Sys2Proof.Machine

/-! ### The fetch of a cut instruction (R80) -/

/-- Where the bytes at CS:EIP agree with `l`, the fetch reads as much of `l` as CS's limit lets it (R80). -/
theorem fetchBytes_eq_take {s : State} {l : List Byte}
    (h : ∀ k : Nat, k < l.length → l[k]? = some (linRead8 s (fetchAddr s k))) (hroom : fetchRoom s ≤ l.length) :
    fetchBytes s = l.take (fetchRoom s) := by
  apply List.ext_getElem?
  intro k
  by_cases hk : k < fetchRoom s
  · simp [fetchBytes, hk, h k (by omega)]
  · simp [fetchBytes, hk]

/-- Bytes within CS's limit that end before an instruction does raise GP(0), if none of them was stored to (R80,
R347). -/
theorem fetch_truncated {s : State} (hover : refusedOverride s = none)
    (hdec : decode (fetchBytes s) = .error .truncated)
    (hstored : ∀ k : Nat, k < fetchRoom s → (fetchAddr s k).toNat ∉ s.stored) :
    fetch s = .error (.fault (.gp 0)) := by
  simp only [fetch, hover, fetchDecoded, hdec, fetchTouchesStored_eq_false.2 hstored, stopIf_bind]
  rfl

/-- Outside `Halted`, a step whose mode checks pass ends as its fetch does, where that stops (R12, R80). -/
theorem step_fetch_error {s : State} {e : Stop} (hh : s.halted = false) (hm : modeChecks s = .ok ())
    (hf : fetch s = .error e) : step s = finish (.error e) := by
  have hstop : (modeChecks s >>= fun _ => fetch s) = .error e := by rw [hm]; exact hf
  simp only [step, hh, hstop, Bool.false_eq_true, if_false]

/-- Settles O7: the bytes within CS's limit are a proper beginning of the encoding, which the decoder finds too
short. -/
theorem fetchPastLimitFaults : Obligations.FetchPastLimitFaults := by
  intro s i hh hmode hover hdb hwf hbytes hstored hlimit
  have hpos := i.length_pos
  have hroom : fetchRoom s < (encode i).length := by
    have hle : fetchRoom s ≤ s.segs.cs.limit.toNat + 1 - s.eip.toNat := Nat.min_le_right _ _
    change 0 < (encode i).length at hpos
    change _ < s.eip.toNat + (encode i).length - 1 at hlimit
    omega
  have hcut : encode i = fetchBytes s ++ (encode i)[fetchRoom s] :: (encode i).drop (fetchRoom s + 1) := by
    rw [fetchBytes_eq_take hbytes hroom.le, List.getElem_cons_drop, List.take_append_drop]
  have hf : fetch s = .error (.fault (.gp 0)) :=
    fetch_truncated hover ((decode_reads hwf).cut _ _ _ hcut) fun k hk => hstored k (hk.trans hroom)
  exact step_fetch_error hh (modeChecks_ok.2 ⟨hmode, hdb⟩) hf

end Sys2Proof.Machine
end

section
/-! The encoding of the instructions (R90 to R97): the round trip of the encoder and the decoder, the bytes that a
decoded instruction was read from, and the prefixes that are refused. -/

namespace Sys2Proof

open Machine

/-! ### The round trip -/

/-- Settles O1: the decoder reads exactly the encoding, and leaves what follows it. -/
theorem decodeOfEncode : Obligations.DecodeOfEncode :=
  fun _ rest hwf => (decode_reads hwf).whole rest

/-- Settles O3: each word is the encoding of its instruction, which the round trip gives back. -/
theorem tableWordsDecode : Obligations.TableWordsDecode :=
  ⟨decodeOfEncode (.jmpRel8 0x0A) [] rfl, decodeOfEncode (.callRel32 3) [] rfl,
    decodeOfEncode (.callPtr 0 0x2B) [] rfl, decodeOfEncode (.retfImm 8) [] rfl,
    decodeOfEncode (.movSreg .ds (.reg .eax)) [] rfl, decodeOfEncode .popGs [] rfl,
    decodeOfEncode .hlt [] rfl, decodeOfEncode (.verw (.reg .ebx)) [] rfl,
    decodeOfEncode (.arpl (.reg .ebx) .eax) [] rfl, decodeOfEncode .iret [] rfl⟩

/-! ### Prefixes (R92) -/

/-- A bit field compared with a number, as the decoder compares it. -/
theorem eq_ofNat_of_toNat {w n : Nat} {b : BitVec w} (h : b.toNat = n) : b = BitVec.ofNat w n := by
  rw [← h, BitVec.ofNat_toNat, BitVec.setWidth_eq]

/-- Only the override byte of a segment register names it (R92). -/
theorem overrideOf_eq_some {b : Byte} {sr : SReg} : overrideOf b = some sr ↔ b = overrideByte sr := by
  refine ⟨fun h => ?_, fun h => h ▸ overrideOf_overrideByte sr⟩
  unfold overrideOf at h
  split at h
  case h_7 => cases h
  all_goals
    next hb =>
      cases h
      exact eq_ofNat_of_toNat hb

/-- After a segment override the decoder reads a row and asks it for a memory operand (R92). -/
theorem decode_override (sr : SReg) (t : List Byte) :
    decode (overrideByte sr :: t) = decodeOpcode (some sr) t >>= requireMem := by
  simp only [decode, overrideOf_overrideByte]

/-- A first byte that is no segment override begins a row (R92, R96). -/
theorem decode_of_not_override {b : Byte} (h : overrideOf b = none) (t : List Byte) :
    decode (b :: t) = decodeOpcode none (b :: t) := by
  simp only [decode, h]

/-- The operand-size, address-size, LOCK and repeat prefixes begin no row, and name no segment register (R92, D5). -/
theorem refusedPrefix_decodeOpcode {b : Byte} (h : b ∈ [(0x66 : Byte), 0x67, 0xF0, 0xF2, 0xF3]) :
    overrideOf b = none ∧ ∀ ovr t, decodeOpcode ovr (b :: t) = .error (.refusedPrefix b) := by
  simp only [List.mem_cons, List.not_mem_nil, or_false] at h
  obtain rfl | rfl | rfl | rfl | rfl := h <;> exact ⟨rfl, fun _ _ => rfl⟩

/-- Under the parameter that follows D5, a segment override at CS:EIP is the refused one (log entry 6). -/
theorem refusedOverride_eq_some {s : State} {r : SReg} (hparam : s.params.segmentOverride = .refused)
    (hbyte : (fetchBytes s).head? = some (overrideByte r)) : refusedOverride s = some (overrideByte r) := by
  simp [refusedOverride, hparam, hbyte]

/-- Settles O4: the prefixes are refused where a row should begin, and an override by the fetch. -/
theorem sizeAndLockPrefixesRefused : Obligations.SizeAndLockPrefixesRefused := by
  refine ⟨fun b t hb => ?prefixes, fun s r hh hmode hdb hparam hbyte => ?overrides⟩
  case prefixes =>
    obtain ⟨hover, hrow⟩ := refusedPrefix_decodeOpcode hb
    refine ⟨?_, fun r => ?_⟩
    · rw [decode_of_not_override hover, hrow]
    · rw [decode_override, hrow]; rfl
  case overrides =>
    have hfetch : fetch s = .error (.refused (.undecodable (.refusedPrefix (overrideByte r)))) := by
      simp only [fetch, refusedOverride_eq_some hparam hbyte]
    exact step_fetch_error hh (modeChecks_ok.2 ⟨hmode, hdb⟩) hfetch

/-! ### What a parser has read -/

/-- Where the bytes `pre` have been read and `t` is left, all the bytes read once `x` has answered stand in the
relation `S` to its answer. -/
def ReadOff {α : Type} (S : List Byte → α → Prop) (pre t : List Byte) (x : Parse (Read α)) : Prop :=
  ∀ a rest, x = .ok (a, rest) → ∃ code, t = code ++ rest ∧ S (pre ++ code) a

namespace ReadOff
variable {α β : Type} {R : List Byte → α → Prop} {S : List Byte → β → Prop} {pre t : List Byte}

/-- An answer that takes no bytes. -/
theorem ok {b : β} (h : S pre b) : ReadOff S pre t (.ok (b, t)) := by
  rintro _ _ ⟨⟩
  exact ⟨[], rfl, (List.append_nil pre).symm ▸ h⟩

/-- A refusal answers nothing. -/
theorem error (e : DecodeRefusal) : ReadOff S pre t (.error e) := fun _ _ h => by cases h

/-- A byte that was read before the rest. -/
theorem cons {b : Byte} {x : Parse (Read β)} (h : ReadOff S (pre ++ [b]) t x) : ReadOff S pre (b :: t) x := by
  intro a rest hx
  obtain ⟨code, rfl, hc⟩ := h a rest hx
  exact ⟨b :: code, rfl, by rwa [List.append_assoc] at hc⟩

/-- Two parsers in sequence: what the second answers is said of the bytes of both. -/
theorem seq {x : Parse (Read α)} {f : Read α → Parse (Read β)} (hx : ReadOff R [] t x)
    (hf : ∀ c a u, R c a → ReadOff S (pre ++ c) u (f (a, u))) : ReadOff S pre t (x >>= f) := by
  intro b rest h
  cases x with
  | error e => cases h
  | ok p =>
    obtain ⟨a, u⟩ := p
    obtain ⟨c, rfl, hc⟩ := hx a u rfl
    obtain ⟨c', rfl, hc'⟩ := hf c a u hc b rest h
    exact ⟨c ++ c', (List.append_assoc c c' rest).symm, by rwa [← List.append_assoc]⟩

/-- A parser that begins with one byte. -/
theorem byte {f : Read Byte → Parse (Read β)} (hf : ∀ b u, ReadOff S (pre ++ [b]) u (f (b, u))) :
    ReadOff S pre t (take1 t >>= f) := by
  refine seq (R := fun c b => c = [b]) ?_ fun c b u hc => hc ▸ hf b u
  intro b rest h
  cases t with
  | nil => cases h
  | cons x u => cases h; exact ⟨[b], rfl, rfl⟩

end ReadOff

/-! ### Immediates (R91) -/

/-- A word of two bytes has them as its bytes. -/
theorem bytes16_half16 (b0 b1 : Byte) : bytes16 (half16 b0 b1) = [b0, b1] := by
  simp only [bytes16, half16, List.cons.injEq, and_true]
  exact ⟨BitVec.extractLsb'_append_eq_right, BitVec.extractLsb'_append_eq_left⟩

/-- What lies above the low byte of a value. -/
theorem extractLsb'_append_byte {w k : Nat} {hi : BitVec w} {lo : Byte} :
    (hi ++ lo).extractLsb' (8 + k) 8 = hi.extractLsb' k 8 := by
  rw [BitVec.extractLsb'_append_eq_of_le (Nat.le_add_right 8 k), Nat.add_sub_cancel_left]

/-- A doubleword of four bytes has them as its bytes. -/
theorem bytes32_word32 (b0 b1 b2 b3 : Byte) : bytes32 (word32 b0 b1 b2 b3) = [b0, b1, b2, b3] := by
  simp only [bytes32, word32, List.cons.injEq, and_true]
  exact ⟨BitVec.extractLsb'_append_eq_right,
    (extractLsb'_append_byte (k := 0)).trans BitVec.extractLsb'_append_eq_right,
    (extractLsb'_append_byte (k := 8)).trans <|
      (extractLsb'_append_byte (k := 0)).trans BitVec.extractLsb'_append_eq_right,
    (extractLsb'_append_byte (k := 16)).trans <|
      (extractLsb'_append_byte (k := 8)).trans BitVec.extractLsb'_append_eq_left⟩

section Immediates
variable {β : Type} {S : List Byte → β → Prop} {pre t : List Byte}

theorem take2_readOff : ReadOff (fun c v => c = bytes16 v) [] t (take2 t) := by
  intro v rest h
  match t, h with
  | b0 :: b1 :: u, h => cases h; exact ⟨[b0, b1], rfl, (bytes16_half16 b0 b1).symm⟩

theorem take4_readOff : ReadOff (fun c v => c = bytes32 v) [] t (take4 t) := by
  intro v rest h
  match t, h with
  | b0 :: b1 :: b2 :: b3 :: u, h => cases h; exact ⟨[b0, b1, b2, b3], rfl, (bytes32_word32 b0 b1 b2 b3).symm⟩

theorem ReadOff.half {f : Read Half → Parse (Read β)} (hf : ∀ v u, ReadOff S (pre ++ bytes16 v) u (f (v, u))) :
    ReadOff S pre t (take2 t >>= f) :=
  .seq take2_readOff fun _ v u hc => hc ▸ hf v u

theorem ReadOff.word {f : Read Word → Parse (Read β)} (hf : ∀ v u, ReadOff S (pre ++ bytes32 v) u (f (v, u))) :
    ReadOff S pre t (take4 t >>= f) :=
  .seq take4_readOff fun _ v u hc => hc ▸ hf v u

end Immediates

/-! ### The fields of a ModRM or SIB byte (R93, R94) -/

/-- A ModRM or SIB byte is made of its own fields. -/
theorem modrm_fields (b : Byte) : modrm (modField b) (regField b) (rmField b) = b := by revert b; decide

/-- The ModRM byte of a system move, its `mod` bits set to 11 (R95). -/
theorem modrm_three_fields (b : Byte) : modrm 3 (regField b) (rmField b) = b ||| 0xC0 := by revert b; decide

theorem mod_eq_two {m : BitVec 2} (h0 : m ≠ 0) (h1 : m ≠ 1) (h3 : m ≠ 3) : m = 2 := by revert m; decide

@[simp] theorem regNum_regOf (n : BitVec 3) : regNum (regOf n) = n := by revert n; decide

@[simp] theorem scaleNum_scaleOf (n : BitVec 2) : scaleNum (scaleOf n) = n := by revert n; decide

theorem sregNum_of_sregOf {n : BitVec 3} {sr : SReg} (h : sregOf n = some sr) : sregNum sr = n := by
  revert n; cases sr <;> decide

/-- The index part of a SIB byte is never ESP (R94). -/
theorem indexOf_wf (sib : Byte) : (indexOf sib).wf = true := by
  unfold indexOf
  split
  case isTrue => rfl
  case isFalse h => simpa [Index.wf, ← regNum_eq_four] using h

/-- The index part of a SIB byte is encoded as it stood (R94). -/
theorem modrm_indexOf (sib : Byte) :
    modrm (scaleNum (indexOf sib).scale) (indexNum (indexOf sib)) (rmField sib) = sib := by
  have hindex : indexNum (indexOf sib) = regField sib := by
    unfold indexOf
    split
    case isTrue h => exact h.symm
    case isFalse => exact regNum_regOf _
  rw [hindex, show (indexOf sib).scale = scaleOf (modField sib) from rfl, scaleNum_scaleOf, modrm_fields]

/-- A base and displacement read where no bare disp32 stands can be expressed (R93, R94). -/
theorem baseDispWf_regOf {d : Disp} {n : BitVec 3} (h : ¬ (dispMod d = 0 ∧ n = 5)) :
    baseDispWf (regOf n) d = true := by
  rw [dispMod_eq_zero, ← regNum_regOf n, regNum_eq_five] at h
  simpa [baseDispWf, imp_iff_not_or, or_comm] using h

/-! ### Operands -/

/-- A displacement is that which the mod field asks for (R93). -/
theorem parseDisp_readOff {m : BitVec 2} (hm : m ≠ 3) {t : List Byte} :
    ReadOff (fun c d => dispMod d = m ∧ c = encodeDisp d) [] t (parseDisp m t) := by
  unfold parseDisp
  split
  case h_1 h0 => exact .ok ⟨(eq_ofNat_of_toNat h0).symm, rfl⟩
  case h_2 h1 => exact .byte fun d u => .ok ⟨(eq_ofNat_of_toNat h1).symm, rfl⟩
  case h_3 h0 h1 =>
    obtain rfl : m = 2 := mod_eq_two (fun h => h0 (h ▸ rfl)) (fun h => h1 (h ▸ rfl)) hm
    exact .word fun d u => .ok ⟨rfl, rfl⟩

/-- A memory operand, from behind its ModRM byte on, is well formed and encoded by the bytes read (R93, R94). -/
theorem parseAddr_readOff {m : BitVec 2} (hm : m ≠ 3) (rm : BitVec 3) {t : List Byte} :
    ReadOff (fun c a => a.wf = true ∧ ∀ r, encodeAddr r a = modrm m r rm :: c) [] t (parseAddr m rm t) := by
  unfold parseAddr
  split
  case isTrue hsib =>
    subst hsib
    refine .byte fun sib u => ?_
    dsimp only
    split
    case isTrue habs =>
      obtain ⟨rfl, hbase⟩ := habs
      refine .word fun d v => .ok ⟨indexOf_wf sib, fun r => ?_⟩
      rw [encodeAddr, ← hbase, modrm_indexOf]
      rfl
    case isFalse hbase =>
      refine .seq (parseDisp_readOff hm) ?_
      rintro c d v ⟨rfl, rfl⟩
      refine .ok ⟨?_, fun r => ?_⟩
      · simp [Addr.wf, indexOf_wf, baseDispWf_regOf hbase]
      · simp [encodeAddr, modrm_indexOf]
  case isFalse hsib =>
    split
    case isTrue habs =>
      obtain ⟨rfl, rfl⟩ := habs
      exact .word fun d v => .ok ⟨rfl, fun r => rfl⟩
    case isFalse habs =>
      refine .seq (parseDisp_readOff hm) ?_
      rintro c d v ⟨rfl, rfl⟩
      have hesp : regOf rm ≠ .esp := by rwa [ne_eq, ← regNum_eq_four, regNum_regOf]
      refine .ok ⟨?_, fun r => ?_⟩
      · simp [Addr.wf, hesp, baseDispWf_regOf habs]
      · simp [encodeAddr]

theorem expressibleUnder_none {ovr : Option SReg} : ExpressibleUnder ovr none := fun _ h => by cases h

section Operands
variable {ovr : Option SReg} {b : Byte} {t : List Byte}

theorem parseMem_readOff :
    ReadOff (fun c m => ExpressibleUnder ovr (some m) ∧ b :: c = encodeAddr (regField b) m.addr) [] t
      (parseMem ovr b t) := by
  unfold parseMem
  split
  case isTrue => exact .error _
  case isFalse hm =>
    refine .seq (parseAddr_readOff hm (rmField b)) fun c a u ⟨hwf, henc⟩ => .ok ⟨?_, ?_⟩
    · rintro _ ⟨⟩
      exact ⟨hwf, rfl⟩
    · rw [henc, modrm_fields]; rfl

theorem parseRM_readOff :
    ReadOff (fun c rm => ExpressibleUnder ovr rm.mem? ∧ b :: c = encodeRM (regField b) rm) [] t
      (parseRM ovr b t) := by
  unfold parseRM
  split
  case isTrue hm =>
    refine .ok ⟨expressibleUnder_none, ?_⟩
    rw [encodeRM, regNum_regOf, ← hm, modrm_fields]
  case isFalse hm =>
    refine .seq (parseAddr_readOff hm (rmField b)) fun c a u ⟨hwf, henc⟩ => .ok ⟨?_, ?_⟩
    · rintro _ ⟨⟩
      exact ⟨hwf, rfl⟩
    · rw [encodeRM, henc, modrm_fields]; rfl

end Operands

/-! ### Rows (R96) -/

section Rows
variable {ovr : Option SReg} {S : List Byte → Instr → Prop} {pre t : List Byte}

/-- A row that takes a register or memory, read from behind its ModRM byte on. -/
theorem parseOpRM_readOff {k : RM → Instr} {b : Byte} {r : BitVec 3} (hr : regField b = r)
    (h : ∀ rm, ExpressibleUnder ovr rm.mem? → S (pre ++ encodeRM r rm) (k rm)) :
    ReadOff S (pre ++ [b]) t (parseOpRM ovr k b t) := by
  refine .seq parseRM_readOff fun c rm u ⟨hrm, henc⟩ => .ok ?_
  rw [List.append_assoc, List.singleton_append, henc, hr]
  exact h rm hrm

/-- A row that takes memory only, read from behind its ModRM byte on. -/
theorem parseOpMem_readOff {k : Mem → Instr} {b : Byte} {r : BitVec 3} (hr : regField b = r)
    (h : ∀ m, ExpressibleUnder ovr (some m) → S (pre ++ encodeAddr r m.addr) (k m)) :
    ReadOff S (pre ++ [b]) t (parseOpMem ovr k b t) := by
  refine .seq parseMem_readOff fun c m u ⟨hm, henc⟩ => .ok ?_
  rw [List.append_assoc, List.singleton_append, henc, hr]
  exact h m hm

theorem parseRegRM_readOff {k : Reg → RM → Instr}
    (h : ∀ r rm, ExpressibleUnder ovr rm.mem? → S (pre ++ encodeRM (regNum r) rm) (k r rm)) :
    ReadOff S pre t (parseRegRM ovr k t) :=
  .byte fun b _ => parseOpRM_readOff (k := k (regOf (regField b))) (regNum_regOf _).symm (h _)

theorem parseRegMem_readOff {k : Reg → Mem → Instr}
    (h : ∀ r m, ExpressibleUnder ovr (some m) → S (pre ++ encodeAddr (regNum r) m.addr) (k r m)) :
    ReadOff S pre t (parseRegMem ovr k t) :=
  .byte fun b _ => parseOpMem_readOff (k := k (regOf (regField b))) (regNum_regOf _).symm (h _)

/-- MOV to and from CRn, DRn and TRn: the ModRM byte, whatever its `mod` bits (R95). -/
theorem parseSysMov_readOff {k : BitVec 3 → Reg → Instr}
    (h : ∀ b : Byte, S (pre ++ [b]) (k (regField b) (regOf (rmField b)))) :
    ReadOff S pre t (parseSysMov k t) :=
  .byte fun b _ => .ok (h b)

theorem parsePtr_readOff {k : Word → Half → Instr}
    (h : ∀ off sel, S (pre ++ (bytes32 off ++ bytes16 sel)) (k off sel)) :
    ReadOff S pre t (parsePtr k t) :=
  .word fun off _ => .half fun sel _ => .ok (List.append_assoc pre _ _ ▸ h off sel)

end Rows

/-- The bytes `used` are the bytes `enc` of the instruction; in a system move, but for the ignored `mod` bits (R95). -/
def SameBytes (i : Instr) (used enc : List Byte) : Prop :=
  (isSystemMove i = false → used = enc) ∧
    (isSystemMove i = true → ∃ b0 b1 b2 : Byte, used = [b0, b1, b2] ∧ enc = [b0, b1, b2 ||| 0xC0])

theorem SameBytes.refl {i : Instr} (hsys : isSystemMove i = false) {bytes : List Byte} : SameBytes i bytes bytes :=
  ⟨fun _ => rfl, fun hi => Bool.noConfusion (hsys.symm.trans hi)⟩

/-- The bytes of a row: its memory operand, if it has one, can be expressed under the override before it, and its
opcode and operand bytes are those of the instruction. -/
def RowOf (ovr : Option SReg) (used : List Byte) (i : Instr) : Prop :=
  ExpressibleUnder ovr i.mem? ∧ SameBytes i used (encodeBody i)

section Opcodes
variable {ovr : Option SReg}

/-- A row whose `mod` bits are not ignored. -/
theorem RowOf.encoded {i : Instr} (hsys : isSystemMove i = false) (h : ExpressibleUnder ovr i.mem?) :
    RowOf ovr (encodeBody i) i :=
  ⟨h, .refl hsys⟩

/-- A row with no memory operand. -/
theorem RowOf.noMem {i : Instr} (hsys : isSystemMove i = false) (h : i.mem? = none) : RowOf ovr (encodeBody i) i :=
  .encoded hsys (h ▸ expressibleUnder_none)

/-- A row whose `mod` bits are ignored (R95). -/
theorem RowOf.systemMove {i : Instr} {op b : Byte} (hsys : isSystemMove i = true) (hmem : i.mem? = none)
    (h : encodeBody i = [0x0F, op, modrm 3 (regField b) (regNum (regOf (rmField b)))]) :
    RowOf ovr [0x0F, op, b] i := by
  refine ⟨hmem ▸ expressibleUnder_none, fun hi => Bool.noConfusion (hsys.symm.trans hi), fun _ => ?_⟩
  exact ⟨0x0F, op, b, rfl, by rw [h, regNum_regOf, modrm_three_fields]⟩

theorem decodeGroup6_readOff {t : List Byte} : ReadOff (RowOf ovr) [0x0F, 0x00] t (decodeGroup6 ovr t) := by
  refine .byte fun b u => ?_
  dsimp only
  split
  case h_1 hr => exact parseOpRM_readOff (eq_ofNat_of_toNat hr) fun rm h => .encoded (i := .lldt rm) rfl h
  case h_2 hr => exact parseOpRM_readOff (eq_ofNat_of_toNat hr) fun rm h => .encoded (i := .ltr rm) rfl h
  case h_3 hr => exact parseOpRM_readOff (eq_ofNat_of_toNat hr) fun rm h => .encoded (i := .verr rm) rfl h
  case h_4 hr => exact parseOpRM_readOff (eq_ofNat_of_toNat hr) fun rm h => .encoded (i := .verw rm) rfl h
  case h_5 => exact .error _

theorem decodeGroup7_readOff {t : List Byte} : ReadOff (RowOf ovr) [0x0F, 0x01] t (decodeGroup7 ovr t) := by
  refine .byte fun b u => ?_
  dsimp only
  split
  case h_1 hr => exact parseOpMem_readOff (eq_ofNat_of_toNat hr) fun m h => .encoded (i := .lgdt m) rfl h
  case h_2 hr => exact parseOpMem_readOff (eq_ofNat_of_toNat hr) fun m h => .encoded (i := .lidt m) rfl h
  case h_3 hr => exact parseOpRM_readOff (eq_ofNat_of_toNat hr) fun rm h => .encoded (i := .lmsw rm) rfl h
  case h_4 => exact .error _

theorem decodeGroup5_readOff {t : List Byte} : ReadOff (RowOf ovr) [0xFF] t (decodeGroup5 ovr t) := by
  refine .byte fun b u => ?_
  dsimp only
  split
  case h_1 hr => exact parseOpRM_readOff (eq_ofNat_of_toNat hr) fun rm h => .encoded (i := .callRm32 rm) rfl h
  case h_2 hr => exact parseOpMem_readOff (eq_ofNat_of_toNat hr) fun m h => .encoded (i := .callMem m) rfl h
  case h_3 hr => exact parseOpRM_readOff (eq_ofNat_of_toNat hr) fun rm h => .encoded (i := .jmpRm32 rm) rfl h
  case h_4 hr => exact parseOpMem_readOff (eq_ofNat_of_toNat hr) fun m h => .encoded (i := .jmpMem m) rfl h
  case h_5 => exact .error _

theorem decodeMovSreg_readOff {t : List Byte} : ReadOff (RowOf ovr) [0x8E] t (decodeMovSreg ovr t) := by
  refine .byte fun b u => ?_
  dsimp only
  split
  case h_1 sr hr =>
    exact parseOpRM_readOff (sregNum_of_sregOf hr).symm fun rm h => .encoded (i := .movSreg sr rm) rfl h
  case h_2 => exact .error _

theorem decodeTwoByte_readOff {t : List Byte} : ReadOff (RowOf ovr) [0x0F] t (decodeTwoByte ovr t) := by
  refine .byte fun b u => ?_
  dsimp only
  split <;> try obtain rfl := eq_ofNat_of_toNat ‹b.toNat = _›
  · exact decodeGroup6_readOff
  · exact decodeGroup7_readOff
  · exact parseRegRM_readOff fun r rm h => .encoded (i := .lar r rm) rfl h
  · exact parseRegRM_readOff fun r rm h => .encoded (i := .lsl r rm) rfl h
  · exact .ok (.noMem (i := .clts) rfl rfl)
  · exact parseSysMov_readOff fun _ => .systemMove rfl rfl rfl
  · exact parseSysMov_readOff fun _ => .systemMove rfl rfl rfl
  · exact parseSysMov_readOff fun _ => .systemMove rfl rfl rfl
  · exact parseSysMov_readOff fun _ => .systemMove rfl rfl rfl
  · exact parseSysMov_readOff fun _ => .systemMove rfl rfl rfl
  · exact parseSysMov_readOff fun _ => .systemMove rfl rfl rfl
  · exact .ok (.noMem (i := .popFs) rfl rfl)
  · exact .ok (.noMem (i := .popGs) rfl rfl)
  · exact parseRegMem_readOff fun r m h => .encoded (i := .lss r m) rfl h
  · exact parseRegMem_readOff fun r m h => .encoded (i := .lfs r m) rfl h
  · exact parseRegMem_readOff fun r m h => .encoded (i := .lgs r m) rfl h
  · exact .error _

/-- The bytes a row is read from are those of the instruction it makes (R95, R96). -/
theorem decodeOpcode_readOff {t : List Byte} : ReadOff (RowOf ovr) [] t (decodeOpcode ovr t) := by
  refine .byte fun b u => ?_
  dsimp only
  split <;> try obtain rfl := eq_ofNat_of_toNat ‹b.toNat = _›
  · exact .ok (.noMem (i := .popEs) rfl rfl)
  · exact decodeTwoByte_readOff
  · exact .ok (.noMem (i := .popSs) rfl rfl)
  · exact .ok (.noMem (i := .popDs) rfl rfl)
  · exact parseRegRM_readOff fun r rm h => .encoded (i := .arpl rm r) rfl h
  · exact decodeMovSreg_readOff
  · exact parsePtr_readOff fun off sel => .noMem (i := .callPtr off sel) rfl rfl
  · exact .half fun n _ => .ok (.noMem (i := .retImm n) rfl rfl)
  · exact .ok (.noMem (i := .ret) rfl rfl)
  · exact parseRegMem_readOff fun r m h => .encoded (i := .les r m) rfl h
  · exact parseRegMem_readOff fun r m h => .encoded (i := .lds r m) rfl h
  · exact .half fun n _ => .ok (.noMem (i := .retfImm n) rfl rfl)
  · exact .ok (.noMem (i := .retf) rfl rfl)
  · exact .ok (.noMem (i := .int3) rfl rfl)
  · exact .byte fun n _ => .ok (.noMem (i := .intImm n) rfl rfl)
  · exact .ok (.noMem (i := .into) rfl rfl)
  · exact .ok (.noMem (i := .iret) rfl rfl)
  · exact .word fun d _ => .ok (.noMem (i := .callRel32 d) rfl rfl)
  · exact .word fun d _ => .ok (.noMem (i := .jmpRel32 d) rfl rfl)
  · exact parsePtr_readOff fun off sel => .noMem (i := .jmpPtr off sel) rfl rfl
  · exact .byte fun d _ => .ok (.noMem (i := .jmpRel8 d) rfl rfl)
  · exact .ok (.noMem (i := .hlt) rfl rfl)
  · exact decodeGroup5_readOff
  · split
    · exact .error _
    · split <;> exact .error _

end Opcodes

/-! ### Instructions (R91, R92) -/

theorem encode_of_no_override {i : Instr} (h : ∀ m, i.mem? = some m → m.ovr = none) : encode i = encodeBody i := by
  unfold encode encodeOver
  split
  case h_1 m hm => rw [h m hm]; rfl
  case h_2 => rfl

theorem encode_of_override {i : Instr} {m : Mem} {sr : SReg} (hm : i.mem? = some m) (hovr : m.ovr = some sr) :
    encode i = overrideByte sr :: encodeBody i := by
  simp only [encode, encodeOver, hm, hovr, List.singleton_append]

/-- A move to or from a system register names no memory operand (R95). -/
theorem isSystemMove_of_mem {i : Instr} {m : Mem} (hm : i.mem? = some m) : isSystemMove i = false := by
  cases i with
  | movFromCr | movToCr | movFromDr | movToDr | movFromTr | movToTr => cases hm
  | _ => rfl

/-- Bytes that are those of the instruction are as many as its length says (R90, R95). -/
theorem SameBytes.length_eq {i : Instr} {used : List Byte} (h : SameBytes i used (encode i)) :
    used.length = i.length := by
  obtain ⟨hplain, hsystem⟩ := h
  cases hi : isSystemMove i with
  | false => rw [hplain hi]; rfl
  | true =>
    obtain ⟨b0, b1, b2, rfl, -⟩ := hsystem hi
    exact (length_systemMove hi).symm

/-- What decodes is well formed, and the bytes used up are its own (R90 to R92, R95, R96). -/
theorem decode_readOff (bs : List Byte) :
    ReadOff (fun used i => i.wf = true ∧ SameBytes i used (encode i)) [] bs (decode bs) := by
  cases bs with
  | nil => exact .error _
  | cons b t =>
    cases hover : overrideOf b with
    | none =>
      rw [decode_of_not_override hover]
      intro i rest h
      obtain ⟨used, hused, hmem, hsame⟩ := decodeOpcode_readOff i rest h
      refine ⟨used, hused, Instr.wf_iff.2 fun m hm => (hmem m hm).1, ?_⟩
      rwa [encode_of_no_override fun m hm => (hmem m hm).2]
    | some sr =>
      obtain rfl := overrideOf_eq_some.1 hover
      rw [decode_override]
      refine .cons (.seq decodeOpcode_readOff fun c i u ⟨hmem, hsame⟩ => ?_)
      unfold requireMem
      split
      case isFalse => exact .error _
      case isTrue hsome =>
        obtain ⟨m, hm⟩ := Option.isSome_iff_exists.1 hsome
        refine .ok ⟨Instr.wf_iff.2 fun m hm => (hmem m hm).1, ?_⟩
        rw [encode_of_override hm (hmem m hm).2, hsame.1 (isSystemMove_of_mem hm)]
        exact .refl (isSystemMove_of_mem hm)

/-- Settles O2: the decoder's reading of each row, under the override before it. -/
theorem decodeUsesLength : Obligations.DecodeUsesLength := by
  intro bs rest i h
  obtain ⟨used, hused, hwf, hsame⟩ := decode_readOff bs i rest h
  exact ⟨hwf, used, hused, hsame.length_eq, hsame.1, hsame.2⟩

end Sys2Proof
end

section
/-! Loads of segment registers by a program (R121 to R124, R129 to R133): what a permitted load leaves, by each
instruction that makes one, and where a load that is not permitted stops. -/

namespace Sys2Proof.Machine

/-! ### The accessed bit (R133) -/

/-- A load stores to the access byte exactly where `setsAccessedBit` says. -/
theorem setAccessed_eq (s : State) (sel : Half) :
    setAccessed s sel (descOf s sel) =
      if setsAccessedBit s sel then linWrite8 s (accessAddr s sel) (accessAfter s sel) else s := by
  by_cases h : s.params.setsAccessed = true ∧ (descOf s sel).attr.accessed = false
  · have hset : setsAccessedBit s sel = true := by simp [setsAccessedBit, h]
    rw [setAccessed, if_pos h, if_pos hset, accessAfter, if_pos hset]; rfl
  · have hset : ¬ setsAccessedBit s sel = true := by simpa [setsAccessedBit] using h
    rw [setAccessed, if_neg h, if_neg hset]

/-- The accessed-bit update of a load leaves every byte but the access byte. -/
theorem setAccessed_accessedUpdate {s : State} (hmem : s.mem.wf = true) (sel : Half) :
    AccessedUpdate s (setAccessed s sel (descOf s sel)) sel := by
  rw [setAccessed_eq]
  split
  · refine ⟨linWriteBytes_sameMemOutside hmem (accessAddr s sel) [accessAfter s sel], ?_⟩
    rw [linRead8_linWrite8 hmem, if_pos rfl]
  · next hset => exact ⟨fun _ _ => rfl, (if_neg hset).symm⟩

/-! ### Loads that are permitted (R122 to R124) -/

/-- A load that is permitted answers. -/
theorem loadSreg_of_canLoad {s : State} {r : SReg} {sel : Half} (h : canLoad s r sel = true) :
    ∃ t, loadSreg s r sel = .ok t := by
  cases r with
  | cs => cases h
  | ss => exact ⟨_, bind_ok.2 ⟨_, ssChecks_ok.2 ⟨h, rfl⟩, rfl⟩⟩
  | es | ds | fs | gs =>
    cases hn : isNull sel with
    | true => exact ⟨_, if_pos hn⟩
    | false =>
      exact ⟨_, (if_neg (by simp [hn])).trans (bind_ok.2 ⟨_, (dataSegChecks_ok hn).2 ⟨h, rfl⟩, rfl⟩)⟩

/-- A load that is permitted changes its register and at most the access byte of the descriptor. -/
theorem loadSreg_next {s : State} {r : SReg} {sel : Half} (hmem : s.mem.wf = true) (h : canLoad s r sel = true) :
    ∃ t, loadSreg s r sel = .ok t ∧ LoadMemory s t sel ∧
      t = { s with segs := s.segs.set r (loadedSeg s r sel), mem := t.mem, stored := t.stored } := by
  obtain ⟨t, hload⟩ := loadSreg_of_canLoad h
  refine ⟨t, hload, ?_⟩
  obtain ⟨-, ⟨hn, rfl⟩ | ⟨hn, rfl⟩⟩ := loadSreg_ok hload
  · exact ⟨(if_pos hn).mpr fun _ => rfl, rfl⟩
  · refine ⟨(if_neg (by simp [hn])).mpr (setAccessed_accessedUpdate hmem sel), ?_⟩
    rw [setAccessed_frame]; rfl

/-! ### The instructions that load a segment register (R129 to R131) -/

/-- MOV Sreg with an operand that can be read is the load of its value (R129). -/
theorem exec_movSreg_load {s : State} {r : SReg} {rm : RM} (hread : canReadRM16 s rm = true) :
    exec (.movSreg r rm) s =
      finish (loadSreg s r (valueRM16 s rm) >>= fun t => .ok { t with eip := nextEip t (.movSreg r rm) }) := by
  simp only [exec, execMovSreg, readRM16_ok.2 ⟨hread, rfl⟩]; rfl

/-- POP Sreg with a slot that can be read is the load of the slot's low half, and then raises ESP (R130). -/
theorem popSreg_load {s : State} {r : SReg} {i : Instr} (hread : canAccess s .ss s.regs.esp 4 .read = true) :
    popSreg s r i =
      loadSreg s r (stackTopSel s) >>= fun t =>
        .ok { t with regs := { t.regs with esp := s.regs.esp + 4 }, eip := nextEip t i } := by
  simp only [popSreg, memRead32_ok.2 ⟨hread, rfl⟩]; rfl

/-- LDS and its like with an operand that can be read are the load of its selector, and then put its offset into the
general register (R131). -/
theorem loadFarPtr_load {s : State} {r : SReg} {dst : Reg} {m : Mem} {i : Instr}
    (hread : canReadFarPtr s m = true) :
    loadFarPtr s r dst m i =
      loadSreg s r (farPtrSel s m) >>= fun t =>
        .ok { t with regs := t.regs.set dst (farPtrOff s m), eip := nextEip t i } := by
  simp only [loadFarPtr, readFarPtr_ok.2 ⟨hread, rfl⟩]; rfl

/-- An instruction that makes a permitted load and then updates the general registers and EIP completes, and changes
nothing else. -/
theorem finish_load_next {s : State} {i : Instr} {r : SReg} {sel : Half} (g : Regs → Regs) (hmem : s.mem.wf = true)
    (h : canLoad s r sel = true) :
    ∃ t, finish (loadSreg s r sel >>= fun t => .ok { t with regs := g t.regs, eip := nextEip t i }) = .next t ∧
      LoadMemory s t sel ∧
      t = { s with
            regs := g s.regs
            segs := s.segs.set r (loadedSeg s r sel)
            eip := after s i
            mem := t.mem
            stored := t.stored } := by
  obtain ⟨t, hload, hmemory, hframe⟩ := loadSreg_next hmem h
  refine ⟨{ t with regs := g t.regs, eip := nextEip t i }, ?_, hmemory, ?_⟩
  · rw [hload]; rfl
  · rw [hframe]; rfl

/-- Settles O20: MOV Sreg is the load of its operand. -/
theorem movSregLoads : Obligations.MovSregLoads := by
  rintro s r rm sel hmem hread rfl hload
  rw [exec_movSreg_load hread]
  exact finish_load_next id hmem hload

/-- Settles O21: each POP Sreg is the load of the selector in its slot and then a write of ESP. -/
theorem popSregLoads : Obligations.PopSregLoads := by
  rintro s i r sel hform hmem hread rfl hload
  rw [exec_popSreg hform, popSreg_load hread]
  exact finish_load_next (fun g => { g with esp := s.regs.esp + 4 }) hmem hload

/-- Settles O22: each form is the load of the pointer's selector and then a write of the general register. -/
theorem farPointerLoads : Obligations.FarPointerLoads := by
  rintro s i r dst m sel hform hmem hread rfl hload
  rw [exec_loadFarPtr hform, loadFarPtr_load hread]
  exact finish_load_next (fun g => g.set dst (farPtrOff s m)) hmem hload

/-! ### Chains of checks -/

section Checks
variable {α β : Type} {e : Stop}

/-- A stop of the first part is the stop of the whole sequence. -/
theorem bind_stop {x : Res α} (h : x = .error e) (f : α → Res β) : (x >>= f) = .error e := by
  rw [h]; rfl

/-- A check that does not apply drops out of a sequence. -/
theorem stopIf_bind_pass {c : Prop} [Decidable c] (h : ¬ c) (f : Unit → Res β) : (stopIf c e >>= f) = f () :=
  stopIf_bind.trans (if_neg h)

/-- A sequence that begins with a check ends in that check's stop iff the check applies or the rest ends so too. -/
theorem stopIf_bind_stop {c : Prop} [Decidable c] {f : Unit → Res β} :
    (stopIf c e >>= f) = .error e ↔ c ∨ f () = .error e := by
  rw [stopIf_bind]
  split <;> simp [*]

/-- A table lookup before the rest of a sequence: as `stopIf_bind_stop`, for a selector outside its table. -/
theorem readDescriptor_bind_stop {s : State} {sel : Half} {f : Descriptor → Res β} :
    (orStop (readDescriptor s sel) e >>= f) = .error e ↔
      inTable s sel = false ∨ f (descOf s sel) = .error e := by
  rw [readDescriptor_bind]
  split <;> simp [*]

/-- A table lookup of a selector within its table gives its descriptor. -/
theorem readDescriptor_bind_pass {s : State} {sel : Half} (h : inTable s sel = true) (f : Descriptor → Res β) :
    (orStop (readDescriptor s sel) e >>= f) = f (descOf s sel) :=
  readDescriptor_bind.trans (if_pos h)

end Checks

/-- A load that stops ends its instruction with that stop. -/
theorem exec_loadsSreg_stop {s : State} {i : Instr} {r : SReg} {sel : Half} {e : Stop} (h : loadsSreg s i r sel)
    (hstop : loadSreg s r sel = .error e) : exec i s = finish (.error e) := by
  obtain ⟨f, hexec⟩ := exec_loadsSreg h
  rw [hexec, bind_stop hstop]

/-- Settles O26: the load of CS is refused whatever its selector. -/
theorem movToCsRefused : Obligations.MovToCsRefused :=
  fun _ rm hread => exec_loadsSreg_stop (r := .cs) (e := .refused .movToCs) (.inl ⟨rm, rfl, hread, rfl⟩) rfl

/-! ### Loads of a data-segment register that stop (R121, R122) -/

/-- A level is less than the larger of two iff it is less than one of them. -/
theorem lt_maxLevel {a b c : Level} : c < maxLevel a b ↔ c < a ∨ c < b := by
  rw [← BitVec.not_le, maxLevel_le, not_and_or, BitVec.not_le, BitVec.not_le]

/-- Data and readable code are the segments with S = 1 that are not execute-only code (R30). -/
theorem SegAttr.data_or_readableCode {a : SegAttr} :
    a.data = true ∨ a.readableCode = true ↔ ¬ a.s = false ∧ ¬ (a.executable = true ∧ a.readableCode = false) := by
  unfold SegAttr.data SegAttr.readableCode SegAttr.executable
  cases a.s <;> cases a.typ.getLsbD 3 <;> simp

/-- A load of a data-segment register with a non-null selector stops where its checks do. -/
theorem loadSreg_data_stop {s : State} {r : SReg} {sel : Half} {e : Stop} (hr : r ∈ [SReg.ds, .es, .fs, .gs])
    (hn : isNull sel = false) (h : dataSegChecks s sel = .error e) : loadSreg s r sel = .error e := by
  have hdata : loadData s r sel = .error e := (if_neg (by simp [hn])).trans (bind_stop h _)
  cases r with
  | ds | es | fs | gs => exact hdata
  | cs | ss => simp at hr

/-- The checks of `LoadDataSeg` raise GP(selector) where the table, the type or the privilege rule fails. -/
theorem dataSegChecks_gp {s : State} {sel : Half}
    (h : inTable s sel = false ∨ (descOf s sel).attr.s = false ∨
      (descOf s sel).attr.executable = true ∧ (descOf s sel).attr.readableCode = false ∨
      (descOf s sel).attr.conforming = false ∧
        ((descOf s sel).attr.dpl < s.cpl ∨ (descOf s sel).attr.dpl < selRpl sel)) :
    dataSegChecks s sel = .error (raise s .gp (.selector sel)) := by
  simp only [dataSegChecks, readDescriptor_bind_stop, stopIf_bind_stop, lt_maxLevel]
  exact h.imp_right (.imp_right (.imp_right .inl))

/-- The checks of `LoadDataSeg` raise NP(selector) where all but the last pass and P = 0. -/
theorem dataSegChecks_np {s : State} {sel : Half} (htable : inTable s sel = true)
    (htype : (descOf s sel).attr.data = true ∨ (descOf s sel).attr.readableCode = true)
    (hlevel : (descOf s sel).attr.conforming = true ∨
      s.cpl ≤ (descOf s sel).attr.dpl ∧ selRpl sel ≤ (descOf s sel).attr.dpl)
    (hp : (descOf s sel).attr.p = false) : dataSegChecks s sel = .error (raise s .np (.selector sel)) := by
  obtain ⟨hs, hcode⟩ := SegAttr.data_or_readableCode.1 htype
  have hmax : ¬ ((descOf s sel).attr.conforming = false ∧
      (descOf s sel).attr.dpl < maxLevel s.cpl (selRpl sel)) := by
    rintro ⟨hc, hlt⟩
    obtain hc' | hle := hlevel
    · simp [hc] at hc'
    · exact BitVec.not_lt.2 (maxLevel_le.2 hle) hlt
  rw [dataSegChecks, readDescriptor_bind_pass htable, stopIf_bind_pass hs, stopIf_bind_pass hcode,
    stopIf_bind_pass hmax, stopIf_bind_stop]
  exact .inl hp

/-- Settles O24: the load's checks stop, so the load and its instruction do. -/
theorem dataLoadPrivilege : Obligations.DataLoadPrivilege := by
  intro s i r sel hr hload hn
  refine ⟨fun hbad => ?gp, fun htable htype hlevel hp => ?np⟩
  case gp => exact exec_loadsSreg_stop hload (loadSreg_data_stop hr hn (dataSegChecks_gp hbad))
  case np => exact exec_loadsSreg_stop hload (loadSreg_data_stop hr hn (dataSegChecks_np htable htype hlevel hp))

/-! ### Loads of SS that stop (R123) -/

/-- The checks of `LoadSS` raise GP(selector) where the selector, its table, a level or the type is wrong. -/
theorem ssChecks_gp {s : State} {sel : Half}
    (h : isNull sel = true ∨ inTable s sel = false ∨ selRpl sel ≠ s.cpl ∨ (descOf s sel).attr.writable = false ∨
      (descOf s sel).attr.dpl ≠ s.cpl) : ssChecks s sel = .error (raise s .gp (.selector sel)) := by
  simp only [ssChecks, readDescriptor_bind_stop, stopIf_bind_stop]
  exact h.imp_right (.imp_right (.imp_right (.imp_right .inl)))

/-- Where those pass, P and then B decide. -/
theorem ssChecks_presence {s : State} {sel : Half} (hn : isNull sel = false) (htable : inTable s sel = true)
    (hrpl : selRpl sel = s.cpl) (hw : (descOf s sel).attr.writable = true) (hdpl : (descOf s sel).attr.dpl = s.cpl) :
    ssChecks s sel =
      if (descOf s sel).attr.p = false then .error (raise s .sf (.selector sel))
      else if (descOf s sel).attr.db = false then .error (.refused .stackSegment16)
      else .ok (descOf s sel) := by
  rw [ssChecks, stopIf_bind_pass (by simp [hn]), readDescriptor_bind_pass htable, stopIf_bind_pass (not_not.2 hrpl),
    stopIf_bind_pass (by simp [hw]), stopIf_bind_pass (not_not.2 hdpl), stopIf_bind, stopIf_bind]

/-- Settles O25: the checks of `LoadSS` stop, so the load and its instruction do. -/
theorem stackSegmentLoadStops : Obligations.StackSegmentLoadStops := by
  intro s i sel hload
  have stops (e : Stop) (he : ssChecks s sel = .error e) : exec i s = finish (.error e) :=
    exec_loadsSreg_stop hload (bind_stop he _)
  refine ⟨fun hbad => stops _ (ssChecks_gp hbad), fun hn htable hrpl hw hdpl => ?_⟩
  have hlast := ssChecks_presence hn htable hrpl hw hdpl
  refine ⟨fun hp => stops (raise s .sf (.selector sel)) ?absent, fun hp hb => stops (.refused .stackSegment16) ?small⟩
  case absent => rw [hlast, if_pos hp]
  case small => rw [hlast, if_neg (by simp [hp]), if_pos hb]

end Sys2Proof.Machine
end

section
/-! Near and far transfers without a gate (R161 to R172): what a push leaves on the stack, the chain of checks of a
direct far transfer, what it leaves, and the CPL after every far JMP and CALL. -/

namespace Sys2Proof.Machine

/-! ### Pushes (R78) -/

section Pushes
variable {s : State}

/-- A push is permitted iff B = 1 and its slot can be written (R78). -/
theorem canPush_iff {n : Nat} :
    canPush s n = true ↔
      s.segs.ss.attr.db = true ∧ canAccess s .ss (s.regs.esp - BitVec.ofNat 32 n) n .write = true := by
  rw [canPush, Bool.and_eq_true]

/-- A slot outside the limit of a writable SS raises SF(0) (R72). -/
theorem segCheck_push_noRoom {n : Nat} (hvalid : s.segs.ss.attr.valid = true)
    (hwrite : s.segs.ss.attr.writable = true) (hroom : s.segs.ss.inLimit (s.regs.esp - BitVec.ofNat 32 n) n = false) :
    segCheck s .ss (s.regs.esp - BitVec.ofNat 32 n) n .write = .error (.fault (.sf 0)) := by
  have htype : accessTypeOk s .ss .write = true := accessTypeOk_write.2 ⟨hvalid, hwrite⟩
  rw [segCheck_of_accessTypeOk htype, if_neg (by simpa [Segs.get] using hroom), if_pos rfl]

/-- A push without room raises SF(0), once B = 1 (R78). -/
theorem pushCheck_noRoom {n : Nat} (hdb : s.segs.ss.attr.db = true) (hvalid : s.segs.ss.attr.valid = true)
    (hwrite : s.segs.ss.attr.writable = true) (hroom : s.segs.ss.inLimit (s.regs.esp - BitVec.ofNat 32 n) n = false) :
    pushCheck s n = .error (.fault (.sf 0)) := by
  rw [pushCheck, stopIf_bind_pass (by simp [hdb]), segCheck_push_noRoom hvalid hwrite hroom]

@[simp] theorem storePush_segs (s : State) (v : Word) : (storePush s v).segs = s.segs := by
  rw [storePush_frame]

@[simp] theorem storePush_cpl (s : State) (v : Word) : (storePush s v).cpl = s.cpl := by
  rw [storePush_frame]

@[simp] theorem storePush_esp (s : State) (v : Word) : (storePush s v).regs.esp = s.regs.esp - 4 := rfl

theorem storePush_wf (hmem : s.mem.wf = true) (v : Word) : (storePush s v).mem.wf = true :=
  linWriteBytes_wf hmem _ _

/-- A push leaves its value in the slot. -/
theorem linRead32_storePush (hmem : s.mem.wf = true) (v : Word) :
    linRead32 (storePush s v) (s.segs.ss.base + (s.regs.esp - 4)) = v :=
  ((storesAreLittleEndian s _ hmem).1 v).2.1

/-- A push leaves every byte outside the slot. -/
theorem storePush_sameMemOutside (hmem : s.mem.wf = true) (v : Word) :
    SameMemOutside s (storePush s v) (s.segs.ss.base + (s.regs.esp - 4)) 4 :=
  ((storesAreLittleEndian s _ hmem).1 v).2.2

end Pushes

/-! ### Near transfers (R161, R162) -/

/-- A near JMP goes to its target unless it lies beyond CS's limit (R161). -/
theorem nearJump_eq (s : State) (t : Word) :
    nearJump s t = if s.segs.cs.limit < t then .error (.fault (.gp 0)) else .ok { s with eip := t } :=
  stopIf_bind

/-- A near CALL whose push is permitted pushes and goes to its target unless that lies beyond CS's limit (R162). -/
theorem nearCall_of_canPush {s : State} (hpush : canPush s 4 = true) (t ret : Word) :
    nearCall s t ret =
      if s.segs.cs.limit < t then .error (.fault (.gp 0)) else .ok (setEip (storePush s ret) t) := by
  have hslot : segCheck s .ss (s.regs.esp - 4) 4 .write = .ok () := segCheck_ok.2 (canPush_iff.1 hpush).2
  have hstore : push32 s ret = .ok (storePush s ret) := push32_ok.2 ⟨hpush, rfl⟩
  rw [nearCall, hslot, hstore]
  exact stopIf_bind

/-- A near CALL pushes the return offset on the present stack, and changes ESP, EIP and that slot alone (R162). -/
theorem nearCall_frame (s : State) (t ret : Word) :
    setEip (storePush s ret) t =
      { s with
        regs := { s.regs with esp := s.regs.esp - 4 }
        eip := t
        mem := (storePush s ret).mem
        stored := (storePush s ret).stored } := by
  conv_lhs => rw [storePush_frame]
  rfl

/-- Settles O27: each form is a near jump to the target its operand gives. -/
theorem nearJumps : Obligations.NearJumps := by
  intro s i target hform
  have hexec : exec i s = finish (nearJump s target) := by
    obtain ⟨rel, rfl, rfl⟩ | ⟨rel, rfl, rfl⟩ | ⟨rm, rfl, hread, rfl⟩ := hform
    · rfl
    · rfl
    · simp only [exec, execJmpRm32, readRM32_ok.2 ⟨hread, rfl⟩]; rfl
  rw [hexec, nearJump_eq]
  refine ⟨fun hin => ?_, fun hout => ?_⟩
  · rw [if_neg (BitVec.not_lt.2 hin)]; rfl
  · rw [if_pos hout]; rfl

/-- Settles O28: each form is a near call of the target its operand gives, which checks the slot first. -/
theorem nearCalls : Obligations.NearCalls := by
  intro s i target hmem hform
  have hexec : exec i s = finish (nearCall s target (after s i)) := by
    obtain ⟨rel, rfl, rfl⟩ | ⟨rm, rfl, hread, rfl⟩ := hform
    · rfl
    · simp only [exec, execCallRm32, readRM32_ok.2 ⟨hread, rfl⟩]; rfl
  rw [hexec]
  refine ⟨fun hpush hin => ?next, fun hvalid hwrite hroom => ?noRoom, fun hpush hout => ?beyond⟩
  case next =>
    refine ⟨setEip (storePush s (after s i)) target, ?_, linRead32_storePush hmem _, storePush_sameMemOutside hmem _,
      nearCall_frame s target _⟩
    rw [nearCall_of_canPush hpush, if_neg (BitVec.not_lt.2 hin)]; rfl
  case noRoom => exact congrArg finish (bind_stop (segCheck_push_noRoom hvalid hwrite hroom) _)
  case beyond => rw [nearCall_of_canPush hpush, if_pos hout]; rfl

/-! ### Interrupt instructions (R170) -/

/-- Settles O60: their opcode bytes are rows of their own, and their meaning is the refusal. -/
theorem interruptInstructionsRefused : Obligations.InterruptInstructionsRefused :=
  fun _ _ _ => ⟨rfl, rfl, rfl, rfl, rfl, rfl, rfl, rfl⟩

/-! ### Where a far transfer leads (R163) -/

section Dispatch
variable {s : State} {k : FarKind} {sel : Half} {off ret : Word}

/-- A null selector raises GP(0). -/
theorem farTransfer_null (h : isNull sel = true) :
    farTransfer s k { sel := sel, off := off } ret = .error (raise s .gp .zero) :=
  stopIf_bind_stop.2 (.inl h)

/-- A selector outside its table raises GP(selector). -/
theorem farTransfer_outOfTable (hn : isNull sel = false) (h : inTable s sel = false) :
    farTransfer s k { sel := sel, off := off } ret = .error (raise s .gp (.selector sel)) := by
  rw [farTransfer, stopIf_bind_pass (by simp [hn]), readDescriptor_bind_stop]
  exact .inl h

/-- A selector within its table leads where its descriptor says. -/
theorem farTransfer_inTable (hn : isNull sel = false) (ht : inTable s sel = true) :
    farTransfer s k { sel := sel, off := off } ret =
      if (descOf s sel).attr.executable then farDirect s k sel off ret (descOf s sel)
      else if (descOf s sel).attr.data then .error (raise s .gp (.selector sel))
      else farSystem s k sel ret (descOf s sel) := by
  rw [farTransfer, stopIf_bind_pass (by simp [hn]), readDescriptor_bind_pass ht]

/-- An executable segment is entered directly. -/
theorem farTransfer_direct (hn : isNull sel = false) (ht : inTable s sel = true)
    (hx : (descOf s sel).attr.executable = true) :
    farTransfer s k { sel := sel, off := off } ret = farDirect s k sel off ret (descOf s sel) := by
  rw [farTransfer_inTable hn ht, if_pos hx]

/-- A data segment raises GP(selector). -/
theorem farTransfer_data (hn : isNull sel = false) (ht : inTable s sel = true)
    (hd : (descOf s sel).attr.data = true) :
    farTransfer s k { sel := sel, off := off } ret = .error (raise s .gp (.selector sel)) := by
  rw [farTransfer_inTable hn ht, SegAttr.executable_of_data hd, if_pos hd]; rfl

/-- A system descriptor leads where its type says. -/
theorem farTransfer_system (hn : isNull sel = false) (ht : inTable s sel = true)
    (hs : (descOf s sel).attr.s = false) :
    farTransfer s k { sel := sel, off := off } ret = farSystem s k sel ret (descOf s sel) := by
  rw [farTransfer_inTable hn ht, if_neg (by simp [SegAttr.executable, hs]), if_neg (by simp [SegAttr.data, hs])]

/-- The system types that are no TSS, task gate or call gate raise GP(selector). -/
theorem farSystem_invalid {d : Descriptor}
    (h : d.attr.typ ∈ [(0x0 : BitVec 4), 0x2, 0x6, 0x7, 0x8, 0xA, 0xD, 0xE, 0xF]) :
    farSystem s k sel ret d = .error (raise s .gp (.selector sel)) := by
  have hy : sysType d.attr.typ ∈ [SysType.reserved, .ldt, .interruptGate286, .trapGate286, .interruptGate386,
      .trapGate386] := by
    generalize d.attr.typ = y at h
    revert h; revert y; decide
  unfold farSystem Descriptor.sysType
  split <;> simp_all

/-- A TSS or a task gate is refused as a task switch (R169). -/
theorem farSystem_task {d : Descriptor} (h : d.attr.typ ∈ [(0x1 : BitVec 4), 0x3, 0x5, 0x9, 0xB]) :
    farSystem s k sel ret d = .error (.refused .taskSwitch) := by
  simp only [List.mem_cons, List.not_mem_nil, or_false] at h
  obtain h | h | h | h | h := h <;> simp [farSystem, Descriptor.sysType, h, sysType]

/-- An 80286 call gate is refused (R202). -/
theorem farSystem_callGate286 {d : Descriptor} (h : d.attr.typ = 0x4) :
    farSystem s k sel ret d = .error (.refused .callGate286) := by
  simp [farSystem, Descriptor.sysType, h, sysType]

end Dispatch

/-- Settles O33: the transfer stops where its selector leads nowhere. -/
theorem farTransferFaults : Obligations.FarTransferFaults := by
  intro s k i sel off hreach
  rw [exec_reachesFar hreach]
  refine ⟨fun hnull => ?null, fun hn hbad => ?nowhere⟩
  case null => rw [farTransfer_null hnull]; rfl
  case nowhere =>
    have hstop : farTransfer s k { sel := sel, off := off } (nextEip s i) = .error (raise s .gp (.selector sel)) := by
      cases ht : inTable s sel with
      | false => exact farTransfer_outOfTable hn ht
      | true =>
        obtain hout | hdata | ⟨hs, htype⟩ := hbad
        · simp [ht] at hout
        · exact farTransfer_data hn ht hdata
        · exact (farTransfer_system hn ht hs).trans (farSystem_invalid htype)
    rw [hstop]; rfl

/-- Settles O34: the type of the system descriptor names the refusal. -/
theorem taskAndOldGateTransfersRefused : Obligations.TaskAndOldGateTransfersRefused := by
  intro s k i sel off hreach hn ht hs
  rw [exec_reachesFar hreach, farTransfer_system hn ht hs]
  refine ⟨fun htask => ?_, fun hgate => ?_⟩
  · rw [farSystem_task htask]; rfl
  · rw [farSystem_callGate286 hgate]; rfl

/-! ### The checks of a direct far transfer (R164, R165, R167, R172) -/

section Direct
variable {s : State} {sel : Half} {off ret : Word}

/-- The privilege rules of a direct transfer are `DirectOK` and `RplOK` (R164, R172). -/
theorem directAllowed_iff :
    directAllowed s sel = true ↔
      directOk s.cpl (descOf s sel).attr = true ∧ rplOk s.cpl sel (descOf s sel).attr = true := by
  unfold directAllowed directOk rplOk
  cases (descOf s sel).attr.conforming with
  | false => simp
  | true =>
    have : (descOf s sel).attr.dpl = s.cpl → (descOf s sel).attr.dpl ≤ s.cpl := fun h => h ▸ BitVec.le_refl _
    simpa using this

/-- The privilege rules reject nonconforming code of another DPL or through a larger RPL, and conforming code of a DPL
above the CPL (D16, D24). -/
theorem directAllowed_eq_false :
    directAllowed s sel = false ↔
      (descOf s sel).attr.conforming = false ∧ ((descOf s sel).attr.dpl ≠ s.cpl ∨ s.cpl < selRpl sel) ∨
        (descOf s sel).attr.conforming = true ∧ s.cpl < (descOf s sel).attr.dpl := by
  unfold directAllowed
  cases (descOf s sel).attr.conforming <;> simp [Decidable.imp_iff_not_or]

/-- The checks of a direct transfer in their order: the privilege rules, then P, then D. -/
theorem directChecks_eq :
    directChecks s sel (descOf s sel) =
      if directAllowed s sel = false then .error (raise s .gp (.selector sel))
      else if (descOf s sel).attr.p = false then .error (raise s .np (.selector sel))
      else if (descOf s sel).attr.db = false then .error (.refused .codeSegment16)
      else .ok () := by
  have hrule : directOk s.cpl (descOf s sel).attr = false ∨ rplOk s.cpl sel (descOf s sel).attr = false ↔
      directAllowed s sel = false := by
    rw [← Bool.not_eq_true (directAllowed s sel), directAllowed_iff, not_and_or, Bool.not_eq_true, Bool.not_eq_true]
  rw [directChecks, stopIf_bind, stopIf_bind]
  exact if_congr hrule rfl rfl

/-- A stop of the checks is the stop of the transfer. -/
theorem farDirect_stop {k : FarKind} {e : Stop} (h : directChecks s sel (descOf s sel) = .error e) :
    farDirect s k sel off ret (descOf s sel) = .error e := by
  cases k with
  | jmp | call => exact bind_stop h _

/-- The checks pass on a present 32-bit segment that the privilege rules allow. -/
theorem directChecks_pass (hallow : directAllowed s sel = true) (hp : (descOf s sel).attr.p = true)
    (hdb : (descOf s sel).attr.db = true) : directChecks s sel (descOf s sel) = .ok () := by
  simp [directChecks_eq, hallow, hp, hdb]

/-- After its checks a direct JMP looks at the limit of its segment (R167). -/
theorem farJumpDirect_eq (hcheck : directChecks s sel (descOf s sel) = .ok ()) :
    farDirect s .jmp sel off ret (descOf s sel) =
      if (descOf s sel).effLimit < off then .error (raise s .gp .zero)
      else .ok (enterCode s sel (descOf s sel) off) := by
  rw [farDirect, farJumpDirect, hcheck]
  exact stopIf_bind

/-- After its checks a direct CALL whose push has room looks at the limit of its segment (R165). -/
theorem farCallDirect_eq (hcheck : directChecks s sel (descOf s sel) = .ok ()) (hpush : canPush s 8 = true) :
    farDirect s .call sel off ret (descOf s sel) =
      if (descOf s sel).effLimit < off then .error (raise s .gp .zero)
      else .ok (enterCode (storeReturn s ret) sel (descOf s sel) off) := by
  rw [farDirect, farCallDirect, hcheck, (pushCheck_ok (u := ())).2 hpush]
  exact stopIf_bind

/-- What a direct transfer needs: a non-null selector of an executable segment whose checks pass, and an offset within
its limit. -/
theorem canGoDirect_checks (h : canGoDirect s sel off = true) :
    isNull sel = false ∧ inTable s sel = true ∧ (descOf s sel).attr.executable = true ∧
      directChecks s sel (descOf s sel) = .ok () ∧ ¬ (descOf s sel).effLimit < off := by
  simp only [canGoDirect, Bool.and_eq_true, Bool.not_eq_true', decide_eq_true_eq] at h
  obtain ⟨⟨⟨⟨⟨⟨hn, ht⟩, hx⟩, hallow⟩, hp⟩, hdb⟩, hlimit⟩ := h
  exact ⟨hn, ht, hx, directChecks_pass hallow hp hdb, BitVec.not_lt.2 hlimit⟩

end Direct

/-- Settles O32: the checks of a direct transfer stop in their order, then a CALL looks at its push, then both at the
limit. -/
theorem directTransferPrivilege : Obligations.DirectTransferPrivilege := by
  intro s k i sel off hreach hn ht hx
  rw [exec_reachesFar hreach, farTransfer_direct hn ht hx]
  refine ⟨fun hbad => ?privilege, fun hallow => ⟨fun hp => ?absent, fun hp hdb => ?small, fun hp hdb =>
    ⟨fun hroom hlimit => ?beyond, fun hcall hssdb hvalid hwrite hroom => ?noRoom⟩⟩⟩
  case privilege => rw [farDirect_stop (directChecks_eq.trans (if_pos (directAllowed_eq_false.2 hbad)))]; rfl
  case absent => rw [farDirect_stop (e := raise s .np (.selector sel)) (by simp [directChecks_eq, hallow, hp])]; rfl
  case small => rw [farDirect_stop (e := .refused .codeSegment16) (by simp [directChecks_eq, hallow, hp, hdb])]; rfl
  case beyond =>
    have hcheck := directChecks_pass hallow hp hdb
    cases k with
    | jmp => rw [farJumpDirect_eq hcheck, if_pos hlimit]; rfl
    | call =>
      have hpush : canPush s 8 = true := hroom.resolve_left (by simp)
      rw [farCallDirect_eq hcheck hpush, if_pos hlimit]; rfl
  case noRoom =>
    subst hcall
    rw [farDirect, farCallDirect, directChecks_pass hallow hp hdb]
    exact congrArg finish (bind_stop (pushCheck_noRoom hssdb hvalid hwrite hroom) _)

/-! ### Loading CS (R36, R166) -/

/-- Replacing the RPL field leaves the rest of a selector. -/
theorem extractLsb'_withRpl (sel : Half) (p : Level) : (withRpl sel p).extractLsb' 2 14 = sel.extractLsb' 2 14 :=
  BitVec.extractLsb'_append_eq_left

/-- The RPL field of a selector has no part in naming the descriptor (R21, R73). -/
theorem descriptorAddr_withRpl (s : State) (sel : Half) (p : Level) :
    descriptorAddr s (withRpl sel p) = descriptorAddr s sel := by
  have hti (x : Half) : selTi x = (x.extractLsb' 2 14).getLsbD 0 := by simp [selTi]
  have hindex (x : Half) : selIndex x = (x.extractLsb' 2 14).extractLsb' 1 13 := by
    ext k hk
    have hbit : 3 + k = 2 + (1 + k) := by omega
    have hin : 1 + k < 14 := by omega
    simp [selIndex, hbit, hin]
  simp only [descriptorAddr, hti, hindex, extractLsb'_withRpl]

/-- The accessed-bit update through a selector with its RPL field replaced is the one through the selector. -/
theorem setAccessed_withRpl (s : State) (sel : Half) (p : Level) (d : Descriptor) :
    setAccessed s (withRpl sel p) d = setAccessed s sel d := by
  rw [setAccessed, setAccessed, descriptorAddr_withRpl]

@[simp] theorem loadCs_cs (s : State) (sel : Half) (d : Descriptor) (p : Level) :
    (loadCs s sel d p).segs.cs = d.segReg (withRpl sel p) := rfl

@[simp] theorem loadCs_cpl (s : State) (sel : Half) (d : Descriptor) (p : Level) : (loadCs s sel d p).cpl = p := rfl

@[simp] theorem enterCode_cs (s : State) (sel : Half) (d : Descriptor) (off : Word) :
    (enterCode s sel d off).segs.cs = d.segReg (withRpl sel s.cpl) := rfl

@[simp] theorem enterCode_cpl (s : State) (sel : Half) (d : Descriptor) (off : Word) :
    (enterCode s sel d off).cpl = s.cpl := rfl

/-- Entering code changes CS and EIP, and memory as the accessed-bit update does (R166). -/
theorem enterCode_eq (s : State) (sel : Half) (d : Descriptor) (off : Word) :
    enterCode s sel d off =
      { s with
        segs := { s.segs with cs := d.segReg (withRpl sel s.cpl) }
        eip := off
        mem := (setAccessed s sel d).mem
        stored := (setAccessed s sel d).stored } := by
  rw [enterCode, loadCs, commitSeg, setAccessed_withRpl]
  conv_lhs => rw [setAccessed_frame]
  rfl

/-- Memory reads after entering code as after the accessed-bit update. -/
theorem linRead8_enterCode (s : State) (sel : Half) (d : Descriptor) (off a : Word) :
    linRead8 (enterCode s sel d off) a = linRead8 (setAccessed s sel d) a := by
  rw [enterCode_eq]; rfl

/-- Entering code changes CS, EIP, memory and the stored set alone. -/
theorem enterCode_frame (s : State) (sel : Half) (d : Descriptor) (off : Word) :
    enterCode s sel d off =
      { s with
        segs := { s.segs with cs := d.segReg (withRpl sel s.cpl) }
        eip := off
        mem := (enterCode s sel d off).mem
        stored := (enterCode s sel d off).stored } := by
  rw [enterCode_eq]

/-- Settles O30: the checks pass, and the transfer enters the segment. -/
theorem farJumpsDirect : Obligations.FarJumpsDirect := by
  intro s i sel off hmem hreach hgo
  obtain ⟨hn, ht, hx, hcheck, hlimit⟩ := canGoDirect_checks hgo
  obtain ⟨houtside, haccess⟩ := setAccessed_accessedUpdate hmem sel
  refine ⟨enterCode s sel (descOf s sel) off, ?next, ⟨fun a ha => ?outside, ?access⟩, enterCode_frame _ _ _ _⟩
  case next =>
    rw [exec_reachesFar hreach, farTransfer_direct hn ht hx, farJumpDirect_eq hcheck, if_neg hlimit]; rfl
  case outside => rw [linRead8_enterCode, houtside a ha]
  case access => rw [linRead8_enterCode, haccess]

/-! ### The return pointer of a far CALL (R165, R195) -/

/-- A doubleword whose four bytes read as before reads as before. -/
theorem linRead32_congr {s t : State} {a : Word}
    (h : ∀ j : Nat, j < 4 → linRead8 t (a + BitVec.ofNat 32 j) = linRead8 s (a + BitVec.ofNat 32 j)) :
    linRead32 t a = linRead32 s a := by
  have h0 : linRead8 t a = linRead8 s a := by simpa using h 0 (by decide)
  have h1 : linRead8 t (a + 1) = linRead8 s (a + 1) := h 1 (by decide)
  have h2 : linRead8 t (a + 2) = linRead8 s (a + 2) := h 2 (by decide)
  have h3 : linRead8 t (a + 3) = linRead8 s (a + 3) := h 3 (by decide)
  rw [linRead32, linRead32, h0, h1, h2, h3]

/-- The `m`-th byte from an address is one of the first `n` iff `m` is below `n`. -/
theorem inBytes_add_ofNat {b : Word} {n m : Nat} (hn : n ≤ 2 ^ 32) (hm : m < 2 ^ 32) :
    inBytes b n (b + BitVec.ofNat 32 m) ↔ m < n := by
  refine ⟨fun ⟨k, hk, e⟩ => ?_, fun h => ⟨m, h, rfl⟩⟩
  have := congrArg BitVec.toNat ((BitVec.add_right_inj b).1 e)
  simp only [BitVec.toNat_ofNat] at this
  omega

/-- The two doublewords of a return pointer lie one below the other. -/
theorem sub_four_sub_four (x : Word) : x - 4 - 4 = x - 8 := by
  rw [BitVec.sub_sub]; rfl

/-- The bytes of the upper doubleword of a return pointer, counted from its lowest byte. -/
theorem upperSlot_byte (b x : Word) (j : Nat) :
    b + (x - 4) + BitVec.ofNat 32 j = b + (x - 8) + BitVec.ofNat 32 (4 + j) := by
  have hhigh : x - 4 = x - 8 + 4 := by rw [← sub_four_sub_four, BitVec.sub_add_cancel]
  rw [hhigh, BitVec.ofNat_add, ← BitVec.add_assoc, ← BitVec.add_assoc]
  rfl

section ReturnPointer
variable {s : State}

@[simp] theorem storePushSel_segs (s : State) (sel : Half) : (storePushSel s sel).segs = s.segs := storePush_segs _ _

@[simp] theorem storePushSel_cpl (s : State) (sel : Half) : (storePushSel s sel).cpl = s.cpl := storePush_cpl _ _

@[simp] theorem storePushSel_esp (s : State) (sel : Half) : (storePushSel s sel).regs.esp = s.regs.esp - 4 :=
  storePush_esp _ _

theorem storePushSel_wf (hmem : s.mem.wf = true) (sel : Half) : (storePushSel s sel).mem.wf = true :=
  storePush_wf (s := countDraw s) hmem _

/-- A push of a selector leaves a doubleword of which it is the low half (D15). -/
theorem linRead32_storePushSel (hmem : s.mem.wf = true) (sel : Half) :
    (linRead32 (storePushSel s sel) (s.segs.ss.base + (s.regs.esp - 4))).extractLsb' 0 16 = sel := by
  have hslot := linRead32_storePush (s := countDraw s) hmem (Config.drawHalf s.draws ++ sel)
  rw [countDraw_segs, countDraw_regs] at hslot
  rw [storePushSel, hslot]
  exact BitVec.extractLsb'_append_eq_right

theorem storePushSel_sameMemOutside (hmem : s.mem.wf = true) (sel : Half) :
    SameMemOutside s (storePushSel s sel) (s.segs.ss.base + (s.regs.esp - 4)) 4 :=
  storePush_sameMemOutside (s := countDraw s) hmem _

@[simp] theorem storeReturn_cpl (s : State) (ret : Word) : (storeReturn s ret).cpl = s.cpl := by
  simp [storeReturn]

theorem storeReturn_wf (hmem : s.mem.wf = true) (ret : Word) : (storeReturn s ret).mem.wf = true :=
  storePush_wf (storePushSel_wf hmem _) ret

/-- Pushing a return pointer lowers ESP by eight, draws one free value, and else changes memory and the stored set
alone. -/
theorem storeReturn_frame (s : State) (ret : Word) :
    storeReturn s ret =
      { s with
        regs := { s.regs with esp := s.regs.esp - 8 }
        mem := (storeReturn s ret).mem
        stored := (storeReturn s ret).stored
        draws := s.draws + 1 } := by
  rw [← sub_four_sub_four]
  refine (storePush_frame (storePushSel s s.segs.cs.sel) ret).trans ?_
  rw [storePushSel, storePush_frame (countDraw s)]
  rfl

/-- The second push of a return pointer, in terms of the state before the first. -/
theorem storeReturn_sameMemOutside_low (hmem : s.mem.wf = true) (ret : Word) :
    SameMemOutside (storePushSel s s.segs.cs.sel) (storeReturn s ret) (s.segs.ss.base + (s.regs.esp - 8)) 4 := by
  have h := storePush_sameMemOutside (storePushSel_wf hmem s.segs.cs.sel) ret
  rwa [storePushSel_segs, storePushSel_esp, sub_four_sub_four] at h

/-- The lower doubleword of a return pointer is the return offset. -/
theorem linRead32_storeReturn_low (hmem : s.mem.wf = true) (ret : Word) :
    linRead32 (storeReturn s ret) (s.segs.ss.base + (s.regs.esp - 8)) = ret := by
  have h := linRead32_storePush (storePushSel_wf hmem s.segs.cs.sel) ret
  rwa [storePushSel_segs, storePushSel_esp, sub_four_sub_four] at h

/-- The upper doubleword of a return pointer holds CS. -/
theorem linRead32_storeReturn_high (hmem : s.mem.wf = true) (ret : Word) :
    (linRead32 (storeReturn s ret) (s.segs.ss.base + (s.regs.esp - 4))).extractLsb' 0 16 = s.segs.cs.sel := by
  have hkept : linRead32 (storeReturn s ret) (s.segs.ss.base + (s.regs.esp - 4)) =
      linRead32 (storePushSel s s.segs.cs.sel) (s.segs.ss.base + (s.regs.esp - 4)) := by
    refine linRead32_congr fun j hj => storeReturn_sameMemOutside_low hmem ret _ fun k hk e => ?_
    rw [upperSlot_byte] at e
    have hin := (inBytes_add_ofNat (by decide) (by omega)).1 ⟨k, hk, e⟩
    omega
  rw [hkept, linRead32_storePushSel hmem]

/-- Pushing a return pointer leaves every byte but its eight. -/
theorem storeReturn_sameMemOutside (hmem : s.mem.wf = true) (ret : Word) :
    SameMemOutside s (storeReturn s ret) (s.segs.ss.base + (s.regs.esp - 8)) 8 := by
  intro a ha
  rw [storeReturn_sameMemOutside_low hmem ret a fun k hk => ha k (by omega)]
  refine storePushSel_sameMemOutside hmem _ a fun k hk => ?_
  rw [upperSlot_byte]
  exact ha (4 + k) (by omega)

end ReturnPointer

/-! ### Far CALLs at the same level (R165, R166, R195) -/

/-- The accessed-bit update of a load from a descriptor read in an earlier state: the two states differ in no
descriptor-table register and no parameter. -/
theorem linRead8_setAccessed {s t : State} (hmem : t.mem.wf = true) (hsys : t.systemPart = s.systemPart) (sel : Half)
    (a : Word) :
    linRead8 (setAccessed t sel (descOf s sel)) a =
      if setsAccessedBit s sel = true ∧ a = accessAddr s sel then accessAfter s sel else linRead8 t a := by
  obtain ⟨hgdtr, hldtr, -, -, -, -, hparams⟩ := systemPart_eq_iff.1 hsys
  have haddr : descriptorAddr t sel + 5 = accessAddr s sel := by
    rw [accessAddr, descriptorAddr, descriptorAddr, hgdtr, hldtr]
  by_cases h : s.params.setsAccessed = true ∧ (descOf s sel).attr.accessed = false
  · have hset : setsAccessedBit s sel = true := by simp [setsAccessedBit, h]
    rw [setAccessed, hparams, if_pos h, haddr, linRead8_linWrite8 hmem, accessAfter, if_pos hset]
    simp only [hset, true_and]
  · have hset : ¬ setsAccessedBit s sel = true := by simpa [setsAccessedBit] using h
    rw [setAccessed, hparams, if_neg h, if_neg fun hand => hset hand.1]

/-- The state a far CALL at the same level leaves: the return pointer pushed, then the code segment entered through
the descriptor read before the pushes (R165, R195). -/
def calledState (s : State) (sel : Half) (off ret : Word) : State :=
  enterCode (storeReturn s ret) sel (descOf s sel) off

section Called
variable {s : State}

/-- Memory after such a CALL: the access byte as the load leaves it, else as the pushes leave it. -/
theorem linRead8_calledState (hmem : s.mem.wf = true) (sel : Half) (off ret a : Word) :
    linRead8 (calledState s sel off ret) a =
      if setsAccessedBit s sel = true ∧ a = accessAddr s sel then accessAfter s sel
      else linRead8 (storeReturn s ret) a := by
  rw [calledState, linRead8_enterCode, linRead8_setAccessed (storeReturn_wf hmem ret) (storeReturn_systemPart s ret)]

/-- Where the access byte is not written or lies elsewhere, the slots hold the return pointer. -/
theorem calledState_slots (hmem : s.mem.wf = true) (sel : Half) (off ret : Word)
    (h : setsAccessedBit s sel = true → ¬ inBytes (s.segs.ss.base + (s.regs.esp - 8)) 8 (accessAddr s sel)) :
    linRead32 (calledState s sel off ret) (s.segs.ss.base + (s.regs.esp - 8)) = ret ∧
      (linRead32 (calledState s sel off ret) (s.segs.ss.base + (s.regs.esp - 4))).extractLsb' 0 16 = s.segs.cs.sel := by
  have hbyte (a : Word) (ha : inBytes (s.segs.ss.base + (s.regs.esp - 8)) 8 a) :
      linRead8 (calledState s sel off ret) a = linRead8 (storeReturn s ret) a := by
    rw [linRead8_calledState hmem, if_neg]
    rintro ⟨hset, rfl⟩
    exact h hset ha
  have hlow : linRead32 (calledState s sel off ret) (s.segs.ss.base + (s.regs.esp - 8)) =
      linRead32 (storeReturn s ret) (s.segs.ss.base + (s.regs.esp - 8)) :=
    linRead32_congr fun j hj => hbyte _ ⟨j, by omega, rfl⟩
  have hhigh : linRead32 (calledState s sel off ret) (s.segs.ss.base + (s.regs.esp - 4)) =
      linRead32 (storeReturn s ret) (s.segs.ss.base + (s.regs.esp - 4)) :=
    linRead32_congr fun j hj => hbyte _ ⟨4 + j, by omega, upperSlot_byte _ _ j⟩
  rw [hlow, hhigh]
  exact ⟨linRead32_storeReturn_low hmem ret, linRead32_storeReturn_high hmem ret⟩

/-- An access byte that the load writes is as the load leaves it. -/
theorem calledState_accessByte (hmem : s.mem.wf = true) (sel : Half) (off ret : Word)
    (hset : setsAccessedBit s sel = true) :
    linRead8 (calledState s sel off ret) (accessAddr s sel) = accessAfter s sel := by
  rw [linRead8_calledState hmem, if_pos ⟨hset, rfl⟩]

/-- Outside the slots only the access byte can change. -/
theorem calledState_outside (hmem : s.mem.wf = true) (sel : Half) (off ret a : Word)
    (ha : ¬ inBytes (s.segs.ss.base + (s.regs.esp - 8)) 8 a) :
    linRead8 (calledState s sel off ret) a = if a = accessAddr s sel then accessAfter s sel else linRead8 s a := by
  have hpush : linRead8 (storeReturn s ret) a = linRead8 s a :=
    storeReturn_sameMemOutside hmem ret a fun k hk e => ha ⟨k, hk, e⟩
  rw [linRead8_calledState hmem, hpush]
  by_cases haddr : a = accessAddr s sel
  · subst haddr
    cases hset : setsAccessedBit s sel <;> simp [accessAfter, hset]
  · simp [haddr]

/-- Beside memory and the stored set, such a CALL changes ESP, CS, EIP and the count of free values alone. -/
theorem calledState_frame (s : State) (sel : Half) (off ret : Word) :
    calledState s sel off ret =
      { s with
        regs := { s.regs with esp := s.regs.esp - 8 }
        segs := { s.segs with cs := enteredCode s sel s.cpl }
        eip := off
        mem := (calledState s sel off ret).mem
        stored := (calledState s sel off ret).stored
        draws := s.draws + 1 } := by
  calc calledState s sel off ret
    _ = { storeReturn s ret with
          segs := { (storeReturn s ret).segs with cs := enteredCode s sel (storeReturn s ret).cpl }
          eip := off
          mem := (calledState s sel off ret).mem
          stored := (calledState s sel off ret).stored } := enterCode_frame _ _ _ _
    _ = _ := by rw [storeReturn_cpl, storeReturn_frame]

end Called

/-- Settles O31: the checks pass and the push has room, so the transfer pushes the return pointer and enters the
segment. -/
theorem farCallsDirect : Obligations.FarCallsDirect := by
  intro s i sel off hmem hreach hgo hpush
  obtain ⟨hn, ht, hx, hcheck, hlimit⟩ := canGoDirect_checks hgo
  refine ⟨calledState s sel off (after s i), ?next, calledState_slots hmem sel off _,
    calledState_accessByte hmem sel off _, calledState_outside hmem sel off _, calledState_frame s sel off _⟩
  rw [exec_reachesFar hreach, farTransfer_direct hn ht hx, farCallDirect_eq hcheck hpush, if_neg hlimit]; rfl

/-! ### The CPL after a far transfer (R164, R171, R196) -/

/-- The code segment in CS decides what a far transfer may have done to the CPL (R171). -/
def LevelFits (s t : State) : Prop :=
  (t.segs.cs.attr.conforming = true → t.cpl = s.cpl) ∧
    (t.segs.cs.attr.conforming = false → t.cpl = t.segs.cs.attr.dpl)

section Levels
variable {s t : State} {k : FarKind} {sel : Half} {off ret : Word}

/-- An operation on an answer that always answers. -/
theorem bind_return_ok {α : Type} {x : Res α} {f : α → State} :
    (x >>= fun a => .ok (f a)) = .ok t ↔ ∃ a, x = .ok a ∧ t = f a := by
  simp only [bind_ok, Except.ok.injEq, eq_comm (b := t)]

/-- Code entered at the present CPL fits where nonconforming code has the CPL as its DPL. -/
theorem enterCode_levelFits {u : State} {d : Descriptor} (hcpl : u.cpl = s.cpl)
    (h : d.attr.conforming = false → d.attr.dpl = s.cpl) : LevelFits s (enterCode u sel d off) := by
  rw [LevelFits, enterCode_cs, enterCode_cpl, hcpl]
  exact ⟨fun _ => rfl, fun hc => (h hc).symm⟩

/-- `DirectOK` allows nonconforming code of the CPL alone (R164). -/
theorem directOk_nonconforming {cpl : Level} {a : SegAttr} (h : directOk cpl a = true) (hc : a.conforming = false) :
    a.dpl = cpl := by
  simpa [directOk, hc] using h

/-- A direct transfer enters code of a fitting level (R164). -/
theorem farDirect_levelFits {d : Descriptor} (h : farDirect s k sel off ret d = .ok t) : LevelFits s t := by
  have hlevel {u : Unit} (hcheck : directChecks s sel d = .ok u) :
      d.attr.conforming = false → d.attr.dpl = s.cpl := by
    obtain ⟨hrule, -⟩ := stopIf_bind_ok.1 hcheck
    obtain ⟨hdirect, -⟩ := not_or.1 hrule
    exact directOk_nonconforming (by simpa using hdirect)
  cases k with
  | jmp =>
    obtain ⟨_, hcheck, h⟩ := bind_ok.1 h
    obtain ⟨_, -, rfl⟩ := bind_return_ok.1 h
    exact enterCode_levelFits rfl (hlevel hcheck)
  | call =>
    obtain ⟨_, hcheck, h⟩ := bind_ok.1 h
    obtain ⟨_, -, h⟩ := bind_ok.1 h
    obtain ⟨_, -, rfl⟩ := bind_return_ok.1 h
    exact enterCode_levelFits (storeReturn_cpl s ret) (hlevel hcheck)

@[simp] theorem storeParams_segs (s : State) (l : List Word) : (storeParams s l).segs = s.segs := by
  induction l with
  | nil => rfl
  | cons v l ih => exact (storePush_segs (storeParams s l) v).trans ih

@[simp] theorem storeParams_cpl (s : State) (l : List Word) : (storeParams s l).cpl = s.cpl := by
  induction l with
  | nil => rfl
  | cons v l ih => exact (storePush_cpl (storeParams s l) v).trans ih

/-- A stack switch enters its target at the target's DPL (R197). -/
theorem commitSwitch_levelFits {ns : StackPtr} {g : GateTarget} {params : List Word}
    (hc : g.desc.attr.conforming = false) : LevelFits s (commitSwitch s ns g params ret off) := by
  have hcs : (commitSwitch s ns g params ret off).segs.cs = g.desc.segReg (withRpl g.sel g.desc.attr.dpl) := by
    simp [commitSwitch]
  have hcpl : (commitSwitch s ns g params ret off).cpl = g.desc.attr.dpl := by
    simp [commitSwitch]
  rw [LevelFits, hcs, hcpl]
  exact ⟨fun h => absurd (hc.symm.trans h) (by decide), fun _ => rfl⟩

/-- A transfer through a gate enters code of a fitting level (R192, R196). -/
theorem farGate_levelFits {g : Descriptor} (h : farGate s k sel ret g = .ok t) : LevelFits s t := by
  cases k with
  | jmp =>
    obtain ⟨e, hgate, rfl⟩ := bind_return_ok.1 h
    obtain ⟨-, -, -, -, -, -, htarget, -⟩ := gateChecks_ok hgate
    exact enterCode_levelFits rfl fun hc => by simpa [targetOk, hc] using htarget
  | call =>
    obtain ⟨e, hgate, h⟩ := bind_ok.1 h
    obtain ⟨-, -, -, -, -, -, htarget, -⟩ := gateChecks_ok hgate
    have hle : e.desc.attr.dpl ≤ s.cpl := by simpa [targetOk] using htarget
    split at h
    · next hinner =>
      obtain ⟨ns, -, h⟩ := bind_ok.1 h
      obtain ⟨_, -, h⟩ := bind_ok.1 h
      obtain ⟨params, -, rfl⟩ := bind_return_ok.1 h
      exact commitSwitch_levelFits (by simpa using (Bool.and_eq_true_iff.1 hinner).1)
    · next hsame =>
      obtain ⟨_, -, rfl⟩ := bind_return_ok.1 h
      refine enterCode_levelFits (storeReturn_cpl s ret) fun hc => BitVec.le_antisymm hle ?_
      simpa [isInterlevel, hc] using hsame

/-- Every far transfer that answers enters code of a fitting level (R163). -/
theorem farTransfer_levelFits {p : FarPtr} (h : farTransfer s k p ret = .ok t) : LevelFits s t := by
  obtain ⟨_, -, h⟩ := bind_ok.1 h
  obtain ⟨d, -, h⟩ := bind_ok.1 h
  split at h
  · exact farDirect_levelFits h
  · split at h
    · cases h
    · unfold farSystem at h
      split at h
      · exact farGate_levelFits h
      all_goals cases h

end Levels

/-- Settles O41: the form is a far transfer, and every one of them enters code of a fitting level. -/
theorem conformingKeepsCpl : Obligations.ConformingKeepsCpl := by
  intro s t k i sel off hreach hexec
  rw [exec_reachesFar hreach] at hexec
  exact farTransfer_levelFits (finish_next.1 hexec)

end Sys2Proof.Machine
end

section
/-! Far transfers through a call gate (R190 to R197): the checks of the gate and of its target in their order, what a
gated JMP and a gated CALL at the same level leave, and where a gated transfer stops. -/

namespace Sys2Proof.Machine

/-! ### The checks of a gate and its target (R192, R193) -/

section GateChecks
variable {s : State} {k : FarKind} {sel : Half} {off ret : Word}

/-- A usable gate is a descriptor of type C that passes its own checks. -/
theorem gateUsable_iff :
    gateUsable s sel = true ↔
      isNull sel = false ∧ inTable s sel = true ∧ (descOf s sel).attr.s = false ∧ (descOf s sel).attr.typ = 0xC ∧
        gateOk s.cpl sel (descOf s sel).attr = true ∧ (descOf s sel).attr.p = true := by
  simp only [gateUsable, gateOk, Bool.and_eq_true, Bool.not_eq_true', beq_iff_eq, decide_eq_true_eq, maxLevel_le,
    and_assoc]

/-- A usable target is present 32-bit code, named by a non-null selector within its table, that reaches to the entry
point. -/
theorem gateTargetUsable_iff :
    gateTargetUsable s sel = true ↔
      isNull (gateSel s sel) = false ∧ inTable s (gateSel s sel) = true ∧ (gateDesc s sel).attr.executable = true ∧
        (gateDesc s sel).attr.p = true ∧ (gateDesc s sel).attr.db = true ∧
        (descOf s sel).gateOffset ≤ (gateDesc s sel).effLimit := by
  simp only [gateTargetUsable, Bool.and_eq_true, Bool.not_eq_true', decide_eq_true_eq, and_assoc]

/-- `TargetOK` of a gate's target is the privilege rule for it. -/
theorem targetOk_gateDesc : targetOk s.cpl k (gateDesc s sel).attr = gateTargetAllowed s k sel := by
  unfold targetOk gateTargetAllowed
  cases k <;> cases (gateDesc s sel).attr.conforming <;> rfl

/-- The privilege rule rejects a target of a DPL above the CPL and, for a JMP, nonconforming code of another DPL. -/
theorem gateTargetAllowed_eq_false :
    gateTargetAllowed s k sel = false ↔
      k = .jmp ∧ (gateDesc s sel).attr.conforming = false ∧ (gateDesc s sel).attr.dpl ≠ s.cpl ∨
        s.cpl < (gateDesc s sel).attr.dpl := by
  unfold gateTargetAllowed
  cases k with
  | call => simp
  | jmp =>
    cases (gateDesc s sel).attr.conforming with
    | true => simp
    | false =>
      have hother : s.cpl < (gateDesc s sel).attr.dpl → (gateDesc s sel).attr.dpl ≠ s.cpl :=
        fun hlt e => BitVec.lt_irrefl _ (e ▸ hlt)
      simpa using hother

/-- Nonconforming code of the CPL and conforming code no less privileged is a target for both kinds of transfer. -/
theorem gateTargetAllowed_sameLevel
    (hnon : (gateDesc s sel).attr.conforming = false → (gateDesc s sel).attr.dpl = s.cpl)
    (hconf : (gateDesc s sel).attr.conforming = true → (gateDesc s sel).attr.dpl ≤ s.cpl) :
    gateTargetAllowed s k sel = true := by
  rw [← Bool.not_eq_false, gateTargetAllowed_eq_false]
  rintro (⟨-, hc, hne⟩ | hlt)
  · exact hne (hnon hc)
  · cases hc : (gateDesc s sel).attr.conforming with
    | false => exact BitVec.lt_irrefl _ (hnon hc ▸ hlt)
    | true => exact BitVec.not_lt.2 (hconf hc) hlt

/-- A gate that the CPL or the RPL may not use raises GP(gate) (R192). -/
theorem gateChecks_denied
    (h : (descOf s sel).attr.dpl < s.cpl ∨ (descOf s sel).attr.dpl < selRpl sel) :
    gateChecks s k sel (descOf s sel) = .error (raise s .gp (.selector sel)) := by
  have hrule : gateOk s.cpl sel (descOf s sel).attr = false := by
    simpa [gateOk, lt_maxLevel] using h
  exact stopIf_bind_stop.2 (.inl hrule)

/-- A gate with P = 0 that they may use raises NP(gate) (R193). -/
theorem gateChecks_absent (hcpl : s.cpl ≤ (descOf s sel).attr.dpl) (hrpl : selRpl sel ≤ (descOf s sel).attr.dpl)
    (hp : (descOf s sel).attr.p = false) :
    gateChecks s k sel (descOf s sel) = .error (raise s .np (.selector sel)) := by
  have hrule : gateOk s.cpl sel (descOf s sel).attr = true := by simp [gateOk, maxLevel_le, hcpl, hrpl]
  rw [gateChecks, stopIf_bind_pass (by simp [hrule]), stopIf_bind_stop]
  exact .inl hp

/-- The checks of a usable gate's target in their order: null selector, table, type and privilege, then P, then D, then
the entry point (R193). -/
theorem gateChecks_eq (hgate : gateUsable s sel = true) :
    gateChecks s k sel (descOf s sel) =
      if isNull (gateSel s sel) = true then .error (raise s .gp .zero)
      else if inTable s (gateSel s sel) = false ∨ (gateDesc s sel).attr.executable = false ∨
          gateTargetAllowed s k sel = false then
        .error (raise s .gp (.selector (gateSel s sel)))
      else if (gateDesc s sel).attr.p = false then .error (raise s .np (.selector (gateSel s sel)))
      else if (gateDesc s sel).attr.db = false then .error (.refused .codeSegment16)
      else if (gateDesc s sel).effLimit < (descOf s sel).gateOffset then .error (raise s .gp .zero)
      else .ok { sel := gateSel s sel, desc := gateDesc s sel } := by
  obtain ⟨-, -, -, -, hrule, hp⟩ := gateUsable_iff.1 hgate
  have hsel : (descOf s sel).gateSelector = gateSel s sel := rfl
  have hdesc : descOf s (gateSel s sel) = gateDesc s sel := rfl
  rw [gateChecks, stopIf_bind_pass (by simp [hrule]), stopIf_bind_pass (by simp [hp]), stopIf_bind, hsel]
  refine if_congr Iff.rfl rfl ?_
  rw [← targetOk_gateDesc]
  split
  · next hbad =>
    simp only [readDescriptor_bind_stop, stopIf_bind_stop, hdesc]
    exact hbad.imp_right (.imp_right .inl)
  · next hgood =>
    obtain ⟨htable, hgood⟩ := not_or.1 hgood
    obtain ⟨hcode, hallow⟩ := not_or.1 hgood
    rw [readDescriptor_bind_pass (Bool.eq_true_of_not_eq_false htable), hdesc, stopIf_bind_pass hcode,
      stopIf_bind_pass hallow, stopIf_bind, stopIf_bind, farTargetCheck, stopIf_bind]

/-- The checks pass on a usable target that the privilege rule allows. -/
theorem gateChecks_pass (hgate : gateUsable s sel = true) (htarget : gateTargetUsable s sel = true)
    (hallow : gateTargetAllowed s k sel = true) :
    gateChecks s k sel (descOf s sel) = .ok { sel := gateSel s sel, desc := gateDesc s sel } := by
  obtain ⟨hn, htable, hcode, hp, hdb, hentry⟩ := gateTargetUsable_iff.1 htarget
  rw [gateChecks_eq hgate, hn, htable, hcode, hallow, hp, hdb]
  simpa using hentry

/-- A stop of the checks is the stop of the transfer. -/
theorem farGate_stop {g : Descriptor} {e : Stop} (h : gateChecks s k sel g = .error e) :
    farGate s k sel ret g = .error e := by
  cases k with
  | jmp | call => exact bind_stop h _

/-- Every far JMP or CALL whose selector names a call gate goes through it (R191). -/
theorem exec_gate {i : Instr} (hreach : reachesFar s k i sel off) (hn : isNull sel = false)
    (ht : inTable s sel = true) (hs : (descOf s sel).attr.s = false) (hy : (descOf s sel).attr.typ = 0xC) :
    exec i s = finish (farGate s k sel (after s i) (descOf s sel)) :=
  (exec_reachesFar hreach).trans (congrArg finish (farTransfer_gate hn ht hs hy))

/-- As `exec_gate`, for a usable gate. -/
theorem exec_usableGate {i : Instr} (hreach : reachesFar s k i sel off) (hgate : gateUsable s sel = true) :
    exec i s = finish (farGate s k sel (after s i) (descOf s sel)) := by
  obtain ⟨hn, ht, hs, hy, -, -⟩ := gateUsable_iff.1 hgate
  exact exec_gate hreach hn ht hs hy

/-- A CALL whose gate and target pass switches stacks where the target is more privileged nonconforming code (R196). -/
theorem farGate_call_eq (hgate : gateUsable s sel = true) (htarget : gateTargetUsable s sel = true)
    (hallow : gateTargetAllowed s .call sel = true) :
    farGate s .call sel ret (descOf s sel) =
      if entersInner s sel then
        farCallGateInter s (descOf s sel) ret { sel := gateSel s sel, desc := gateDesc s sel }
      else farCallGateSame s (descOf s sel) ret { sel := gateSel s sel, desc := gateDesc s sel } := by
  rw [farGate, farCallGate, gateChecks_pass hgate htarget hallow]; rfl

/-- A CALL that stays at its level needs room for the return pointer alone (R195). -/
theorem farGate_call_same (hgate : gateUsable s sel = true) (htarget : gateTargetUsable s sel = true)
    (hallow : gateTargetAllowed s .call sel = true) (hsame : entersInner s sel = false) :
    farGate s .call sel ret (descOf s sel) =
      pushCheck s 8 >>= fun _ => .ok (calledState s (gateSel s sel) (descOf s sel).gateOffset ret) := by
  rw [farGate_call_eq hgate htarget hallow, hsame]; rfl

end GateChecks

/-! ### Gated transfers at the same level (R194, R195) -/

/-- Settles O35: the checks pass, and the JMP enters the gate's target. -/
theorem gatedJumps : Obligations.GatedJumps := by
  intro s i sel off hmem hreach hgate htarget hnon hconf
  obtain ⟨houtside, haccess⟩ := setAccessed_accessedUpdate hmem (gateSel s sel)
  refine ⟨enterCode s (gateSel s sel) (gateDesc s sel) (descOf s sel).gateOffset, ?next,
    ⟨fun a ha => ?outside, ?access⟩, enterCode_frame _ _ _ _⟩
  case next =>
    have hcheck := gateChecks_pass hgate htarget (gateTargetAllowed_sameLevel (k := .jmp) hnon hconf)
    rw [exec_usableGate hreach hgate, farGate, farJumpGate, hcheck]; rfl
  case outside => exact (linRead8_enterCode _ _ _ _ a).trans (houtside a ha)
  case access => exact (linRead8_enterCode _ _ _ _ _).trans haccess

/-- Settles O36: the checks pass and the push has room, so the CALL leaves what a direct one to the gate's entry point
would. -/
theorem gatedCallsSameLevel : Obligations.GatedCallsSameLevel := by
  intro s i sel off hmem hreach hgate htarget hpush hnon hconf
  have hallow : gateTargetAllowed s .call sel = true := gateTargetAllowed_sameLevel hnon hconf
  have hsame : entersInner s sel = false := by
    cases hc : (gateDesc s sel).attr.conforming with
    | true => simp [entersInner, hc]
    | false => simp [entersInner, hnon hc]
  refine ⟨calledState s (gateSel s sel) (descOf s sel).gateOffset (after s i), ?next, calledState_slots hmem _ _ _,
    calledState_accessByte hmem _ _ _, calledState_outside hmem _ _ _, calledState_frame s _ _ _⟩
  rw [exec_usableGate hreach hgate, farGate_call_same hgate htarget hallow hsame, (pushCheck_ok (u := ())).2 hpush]
  rfl

/-! ### Gated transfers that stop (R192, R193, R195) -/

/-- Settles O39: the checks of the gate and of its target stop in their order, then a CALL at the same level looks at
its push. -/
theorem gatePrivilege : Obligations.GatePrivilege := by
  intro s k i sel off hreach hn ht hs hy
  dsimp only
  have stops {e : Stop} (he : gateChecks s k sel (descOf s sel) = .error e) : exec i s = finish (.error e) := by
    rw [exec_gate hreach hn ht hs hy, farGate_stop he]
  refine ⟨fun hbad => stops (gateChecks_denied hbad), fun hcpl hrpl hp => stops (gateChecks_absent hcpl hrpl hp),
    fun hgate => ⟨fun hnull => ?null, fun hts => ⟨fun hbad => ?target, fun htable hcode hallow =>
      ⟨fun hp => ?absent, fun hp hdb => ?small, fun hp hdb hentry => ?beyond⟩⟩, ?noRoom⟩⟩
  case null => exact stops (e := raise s .gp .zero) ((gateChecks_eq hgate).trans (if_pos hnull))
  case target =>
    rw [← gateTargetAllowed_eq_false] at hbad
    exact stops (e := raise s .gp (.selector (gateSel s sel)))
      ((gateChecks_eq hgate).trans ((if_neg (by simp [hts])).trans (if_pos hbad)))
  case absent =>
    exact stops (e := raise s .np (.selector (gateSel s sel)))
      (by simp [gateChecks_eq hgate, hts, htable, hcode, hallow, hp])
  case small =>
    exact stops (e := .refused .codeSegment16) (by simp [gateChecks_eq hgate, hts, htable, hcode, hallow, hp, hdb])
  case beyond =>
    exact stops (e := raise s .gp .zero)
      (by simp [gateChecks_eq hgate, hts, htable, hcode, hallow, hp, hdb, hentry])
  case noRoom =>
    rintro rfl htarget hlevel hsame hssdb hvalid hwrite hroom
    have hallow : gateTargetAllowed s .call sel = true := decide_eq_true hlevel
    rw [exec_gate hreach hn ht hs hy, farGate_call_same hgate htarget hallow hsame]
    exact congrArg finish (bind_stop (pushCheck_noRoom hssdb hvalid hwrite hroom) _)

/-! ### Where a gated transfer leads (R191) -/

/-- A stack switch goes to the offset it is given. -/
@[simp] theorem commitSwitch_eip (s : State) (ns : StackPtr) (t : GateTarget) (params : List Word) (ret off : Word) :
    (commitSwitch s ns t params ret off).eip = off := rfl

/-- A stack switch enters its target at the target's DPL (R197). -/
@[simp] theorem commitSwitch_cs (s : State) (ns : StackPtr) (t : GateTarget) (params : List Word) (ret off : Word) :
    (commitSwitch s ns t params ret off).segs.cs = t.desc.segReg (withRpl t.sel t.desc.attr.dpl) := by
  simp [commitSwitch]

/-- A state whose EIP is a gate's offset and whose CS selector is the gate's but for the RPL (R191). -/
def AtGateEntry (g : Descriptor) (t : State) : Prop :=
  t.eip = g.gateOffset ∧ t.segs.cs.sel.extractLsb' 2 14 = g.gateSelector.extractLsb' 2 14

section Entry
variable {s t : State} {g : Descriptor} {k : FarKind} {sel : Half} {ret : Word}

/-- Entering code through the gate's selector at its offset arrives there. -/
theorem enterCode_atGateEntry (u : State) (d : Descriptor) :
    AtGateEntry g (enterCode u g.gateSelector d g.gateOffset) :=
  ⟨rfl, extractLsb'_withRpl _ _⟩

/-- A stack switch to the gate's selector and offset arrives there. -/
theorem commitSwitch_atGateEntry (ns : StackPtr) (d : Descriptor) (params : List Word) :
    AtGateEntry g (commitSwitch s ns { sel := g.gateSelector, desc := d } params ret g.gateOffset) :=
  ⟨commitSwitch_eip _ _ _ _ _ _, by rw [commitSwitch_cs]; exact extractLsb'_withRpl _ _⟩

/-- Every transfer through a gate that is made arrives at the gate's entry point. -/
theorem farGate_atGateEntry (h : farGate s k sel ret g = .ok t) : AtGateEntry g t := by
  cases k with
  | jmp =>
    obtain ⟨e, hgate, rfl⟩ := bind_return_ok.1 h
    obtain ⟨-, -, -, -, rfl, -⟩ := gateChecks_ok hgate
    exact enterCode_atGateEntry s _
  | call =>
    obtain ⟨e, hgate, h⟩ := bind_ok.1 h
    obtain ⟨-, -, -, -, rfl, -⟩ := gateChecks_ok hgate
    split at h
    · obtain ⟨ns, -, h⟩ := bind_ok.1 h
      obtain ⟨_, -, h⟩ := bind_ok.1 h
      obtain ⟨params, -, rfl⟩ := bind_return_ok.1 h
      exact commitSwitch_atGateEntry ns _ params
    · obtain ⟨_, -, rfl⟩ := bind_return_ok.1 h
      exact enterCode_atGateEntry (storeReturn s ret) _

end Entry

/-- Settles O40: the transfer through the gate takes no offset of its own, and the forms with another pointer offset
have the same length. -/
theorem gateIgnoresOffset : Obligations.GateIgnoresOffset := by
  intro s sel hn ht hs hy
  refine ⟨fun k i off t hreach hexec => ?entry, fun off off' => ⟨?jmp, ?call⟩⟩
  case entry =>
    rw [exec_gate hreach hn ht hs hy] at hexec
    exact farGate_atGateEntry (finish_next.1 hexec)
  case jmp =>
    have through (o : Word) : exec (.jmpPtr o sel) s = finish (farGate s .jmp sel (s.eip + 7) (descOf s sel)) :=
      exec_gate (k := .jmp) (off := o) (.inl rfl) hn ht hs hy
    rw [through, through]
  case call =>
    have through (o : Word) : exec (.callPtr o sel) s = finish (farGate s .call sel (s.eip + 7) (descOf s sel)) :=
      exec_gate (k := .call) (off := o) (.inl rfl) hn ht hs hy
    rw [through, through]

end Sys2Proof.Machine
end

section
/-! CALLs through a gate to a more privileged level (R196 to R203): the checks of the new stack, the parameters read
from the caller's stack, the frame of doublewords pushed on the new one, and the state they leave. -/

namespace Sys2Proof.Machine

/-! ### The new stack (R198) -/

/-- The stack the current TSS gives for a level: the selector, the ESP and the descriptor it names (R33, R198). -/
def innerStack (s : State) (p : Level) : StackPtr :=
  { sel := tssSs s p, esp := tssEsp s p, desc := descOf s (tssSs s p) }

/-- A gate's selector with the descriptor it names (R193). -/
def gateTarget (s : State) (sel : Half) : GateTarget := { sel := gateSel s sel, desc := gateDesc s sel }

section NewStack
variable {s : State} {p : Level}

/-- SSp lies four bytes above ESPp in the TSS (R33). -/
theorem linRead16_tssStackAddr : linRead16 s (tssStackAddr s p + 4) = tssSs s p := by
  have hslot : tssStackAddr s p + 4 = s.tr.base + 8 + 8 * p.setWidth 32 := by
    rw [tssStackAddr]; bv_omega
  rw [hslot, tssSs]

/-- The checks of a new stack in their order (R198, D5, D23). -/
theorem newStack_eq (s : State) (p : Level) :
    newStack s p =
      if isTss286 s.tr.typ = true then .error (.refused .tss286)
      else if s.tr.limit.toNat < 8 * p.toNat + 11 then .error (raise s .invalidTss (.selector s.tr.sel))
      else if isNull (tssSs s p) = true ∨ inTable s (tssSs s p) = false ∨ selRpl (tssSs s p) ≠ p then
        .error (raise s .invalidTss (.selector (tssSs s p)))
      else if (descOf s (tssSs s p)).attr.dpl ≠ p then .error (raise s .sf (.selector (tssSs s p)))
      else if (descOf s (tssSs s p)).attr.writable = false then
        .error (raise s .invalidTss (.selector (tssSs s p)))
      else if (descOf s (tssSs s p)).attr.p = false then .error (raise s .sf (.selector (tssSs s p)))
      else if (descOf s (tssSs s p)).attr.db = false then .error (.refused .stackSegment16)
      else .ok (innerStack s p) := by
  rw [newStack, stopIf_bind, stopIf_bind]
  refine if_congr Iff.rfl rfl (if_congr Iff.rfl rfl ?_)
  rw [linRead16_tssStackAddr]
  split
  · next hbad =>
    simp only [readDescriptor_bind_stop, stopIf_bind_stop]
    exact hbad.imp_right (.imp_right .inl)
  · next hgood =>
    obtain ⟨hnull, hgood⟩ := not_or.1 hgood
    obtain ⟨htable, hrpl⟩ := not_or.1 hgood
    rw [stopIf_bind_pass hnull, readDescriptor_bind_pass (Bool.eq_true_of_not_eq_false htable),
      stopIf_bind_pass hrpl, stopIf_bind, stopIf_bind, stopIf_bind, stopIf_bind]
    rfl

/-- The checks of R198 pass on a new stack that keeps to them. -/
theorem newStack_pass (h : newStackOk s p = true) : newStack s p = .ok (innerStack s p) := by
  simp only [newStackOk, Bool.and_eq_true, Bool.not_eq_true', decide_eq_true_eq, beq_iff_eq, and_assoc] at h
  obtain ⟨htss, hlimit, hn, ht, hrpl, hdpl, hw, hp, hdb⟩ := h
  simp [newStack_eq, htss, Nat.not_lt.2 hlimit, hn, ht, hrpl, hdpl, hw, hp, hdb]

end NewStack

/-! ### The parameters on the caller's stack (R197, R200) -/

/-- The `k`-th doubleword from the top of the caller's stack. -/
def callerParam (s : State) (k : Nat) : Word :=
  linRead32 s (s.segs.ss.base + (s.regs.esp + BitVec.ofNat 32 (4 * k)))

section Params
variable {s : State}

/-- Parameters that can be read are the doublewords on the caller's stack, the topmost first. -/
theorem readParams_eq (n i : Nat)
    (h : ∀ k, i ≤ k → k < i + n → canAccess s .ss (s.regs.esp + BitVec.ofNat 32 (4 * k)) 4 .read = true) :
    readParams s i n = .ok ((List.range' i n).map (callerParam s)) := by
  induction n generalizing i with
  | zero => rfl
  | succ n ih =>
    rw [readParams, memRead32_ok.2 ⟨h i (Nat.le_refl i) (by omega), rfl⟩,
      ih (i + 1) fun k hk hn => h k (by omega) (by omega)]
    rfl

/-- All parameters of an interlevel CALL. -/
theorem readParams_readable {n : Nat} (h : paramsReadable s n = true) :
    readParams s 0 n = .ok ((List.range n).map (callerParam s)) := by
  rw [List.range_eq_range']
  refine readParams_eq n 0 fun k _ hk => ?_
  rw [paramsReadable, List.all_eq_true] at h
  exact h k (List.mem_range.2 (by omega))

/-- A parameter beyond the limit of a readable caller's stack raises SF(0). -/
theorem readParams_outside (htype : accessTypeOk s .ss .read = true) (n i : Nat)
    (h : ∃ k, i ≤ k ∧ k < i + n ∧ s.segs.ss.inLimit (s.regs.esp + BitVec.ofNat 32 (4 * k)) 4 = false) :
    readParams s i n = .error (.fault (.sf 0)) := by
  induction n generalizing i with
  | zero => obtain ⟨k, hi, hk, -⟩ := h; omega
  | succ n ih =>
    have hcheck := segCheck_of_accessTypeOk htype (s.regs.esp + BitVec.ofNat 32 (4 * i)) 4
    rw [readParams, memRead32, hcheck]
    split
    · next hin =>
      obtain ⟨k, hi, hk, hout⟩ := h
      have hne : k ≠ i := by
        rintro rfl
        exact Bool.false_ne_true (hout.symm.trans hin)
      exact bind_stop (ih (i + 1) ⟨k, by omega, by omega, hout⟩) _
    · rfl

end Params

/-! ### Interlevel CALLs that stop (R197 step 1, R198) -/

section Interlevel
variable {s : State} {sel : Half} {ret : Word}

/-- A far CALL through a usable gate to a more privileged nonconforming segment switches stacks (R196). -/
theorem exec_interlevel {i : Instr} {off : Word} (hreach : reachesFar s .call i sel off)
    (hgate : gateUsable s sel = true) (htarget : gateTargetUsable s sel = true) (hinner : entersInner s sel = true) :
    exec i s = finish (farCallGateInter s (descOf s sel) (after s i) (gateTarget s sel)) := by
  have hlt : (gateDesc s sel).attr.dpl < s.cpl := of_decide_eq_true (Bool.and_eq_true_iff.1 hinner).2
  have hallow : gateTargetAllowed s .call sel = true := decide_eq_true (BitVec.le_of_lt hlt)
  rw [exec_usableGate hreach hgate, farGate_call_eq hgate htarget hallow, if_pos hinner]; rfl

/-- On a stack that passes its checks the CALL looks at its room, then reads the parameters, then switches (R197). -/
theorem farCallGateInter_eq (hstack : newStackOk s (gateDesc s sel).attr.dpl = true) :
    farCallGateInter s (descOf s sel) ret (gateTarget s sel) =
      if newStackRoom s (gateDesc s sel).attr.dpl (16 + 4 * (descOf s sel).gateCount.toNat) = false then
        .error (.fault (.sf 0))
      else
        readParams s 0 (descOf s sel).gateCount.toNat >>= fun params =>
          .ok (commitSwitch s (innerStack s (gateDesc s sel).attr.dpl) (gateTarget s sel) params ret
            (descOf s sel).gateOffset) := by
  have hpass : newStack s (gateTarget s sel).desc.attr.dpl = .ok (innerStack s (gateDesc s sel).attr.dpl) :=
    newStack_pass hstack
  rw [farCallGateInter, hpass]
  exact stopIf_bind

end Interlevel

/-- Settles O38: the checks of the new stack stop in their order, then its room and the parameters decide. -/
theorem interlevelCallStops : Obligations.InterlevelCallStops := by
  rintro s i sel off p n hreach hgate htarget hinner hlevel rfl
  dsimp only
  have hexec := exec_interlevel hreach hgate htarget hinner
  have stops {e : Stop} (he : newStack s p = .error e) : exec i s = finish (.error e) :=
    hexec.trans (congrArg finish (bind_stop (hlevel ▸ he) _))
  rw [newStack_eq] at stops
  refine ⟨fun htss => ?tss286, fun htss => ⟨fun hlimit => ?ends, fun hlimit => ⟨fun hbad => ?selector,
    fun hn ht hrpl => ⟨fun hdpl => ?level, fun hdpl hw => ?type, fun hdpl hw hp => ?absent,
      fun hdpl hw hp hdb => ?small⟩⟩⟩, fun hstack => ⟨fun hroom => ?noRoom, fun hroom hvalid hread hout => ?param⟩⟩
  case tss286 => exact stops (if_pos htss)
  case ends => exact stops (e := raise s .invalidTss (.selector s.tr.sel)) (by simp [htss, hlimit])
  case selector =>
    exact stops (e := raise s .invalidTss (.selector (tssSs s p)))
      (by simp [htss, Nat.not_lt.2 hlimit, hbad])
  case level =>
    exact stops (e := raise s .sf (.selector (tssSs s p)))
      (by simp [htss, Nat.not_lt.2 hlimit, hn, ht, hrpl, hdpl])
  case type =>
    exact stops (e := raise s .invalidTss (.selector (tssSs s p)))
      (by simp [htss, Nat.not_lt.2 hlimit, hn, ht, hrpl, hdpl, hw])
  case absent =>
    exact stops (e := raise s .sf (.selector (tssSs s p)))
      (by simp [htss, Nat.not_lt.2 hlimit, hn, ht, hrpl, hdpl, hw, hp])
  case small =>
    exact stops (e := .refused .stackSegment16)
      (by simp [htss, Nat.not_lt.2 hlimit, hn, ht, hrpl, hdpl, hw, hp, hdb])
  case noRoom =>
    subst hlevel
    rw [hexec, farCallGateInter_eq hstack, if_pos hroom]; rfl
  case param =>
    subst hlevel
    obtain ⟨k, hk, hlimit⟩ := hout
    have hparams := readParams_outside (accessTypeOk_read.2 ⟨hvalid, hread⟩) (descOf s sel).gateCount.toNat 0
      ⟨k, Nat.zero_le k, by omega, hlimit⟩
    rw [hexec, farCallGateInter_eq hstack, if_neg (by simp [hroom]), hparams]; rfl

end Sys2Proof.Machine
end

section
/-! The state an interlevel CALL leaves (R197 to R199, R133): a frame of doublewords pushed on a stack, the new stack
and code segment with the access bytes of their descriptors, and the frame the CALL leaves on the new stack. -/

namespace Sys2Proof.Machine

/-! ### Frames of doublewords (R78, R197) -/

/-- The linear address `n` doublewords below another. -/
def slotBelow (top : Word) (n : Nat) : Word := top - BitVec.ofNat 32 (4 * n)

/-- Counting `j` doublewords up from a deeper slot. -/
theorem slotBelow_add (top : Word) {j n m : Nat} (h : j + n = m) :
    slotBelow top m + BitVec.ofNat 32 (4 * j) = slotBelow top n := by
  rw [← h, slotBelow, slotBelow, Nat.mul_add, BitVec.ofNat_add]
  bv_omega

/-- The `j`-th byte counted from a slot is the one four further from the slot below. -/
theorem slotBelow_byte (top : Word) (n j : Nat) :
    slotBelow top n + BitVec.ofNat 32 j = slotBelow top (1 + n) + BitVec.ofNat 32 (4 + j) := by
  rw [← slotBelow_add top (j := 1) rfl, BitVec.ofNat_add, BitVec.add_assoc]

/-- The linear address SS:ESP. -/
def stackTop (s : State) : Word := s.segs.ss.base + s.regs.esp

section Frames
variable {s : State}

theorem storeParams_nil (s : State) : storeParams s [] = s := rfl

/-- The first doubleword of a list is pushed last. -/
theorem storeParams_cons (s : State) (v : Word) (l : List Word) :
    storeParams s (v :: l) = storePush (storeParams s l) v := rfl

/-- The second of two lists is pushed first. -/
theorem storeParams_append (s : State) (l l' : List Word) :
    storeParams s (l ++ l') = storeParams (storeParams s l') l := List.foldr_append

@[simp] theorem storeParams_esp (s : State) (l : List Word) :
    (storeParams s l).regs.esp = s.regs.esp - BitVec.ofNat 32 (4 * l.length) := by
  induction l with
  | nil => simp [storeParams]
  | cons v l ih =>
    have hpush : (storeParams s (v :: l)).regs.esp = (storeParams s l).regs.esp - 4 := rfl
    rw [hpush, ih, List.length_cons, Nat.mul_add, BitVec.ofNat_add, BitVec.sub_sub]
    rfl

theorem storeParams_wf (hmem : s.mem.wf = true) (l : List Word) : (storeParams s l).mem.wf = true := by
  induction l with
  | nil => exact hmem
  | cons v l ih => exact storePush_wf ih v

/-- Pushing doublewords changes ESP, memory and the stored set alone. -/
theorem storeParams_frame (s : State) (l : List Word) :
    storeParams s l =
      { s with
        regs := { s.regs with esp := s.regs.esp - BitVec.ofNat 32 (4 * l.length) }
        mem := (storeParams s l).mem
        stored := (storeParams s l).stored } := by
  rw [← storeParams_esp]
  induction l with
  | nil => rfl
  | cons v l ih =>
    calc storeParams s (v :: l)
      _ = { storeParams s l with
            regs := { (storeParams s l).regs with esp := (storeParams s l).regs.esp - 4 }
            mem := (storeParams s (v :: l)).mem
            stored := (storeParams s (v :: l)).stored } := storePush_frame _ v
      _ = _ := by rw [ih]; rfl

/-- The slot of a push that follows `l` others. -/
theorem storeParams_slot (s : State) (l : List Word) :
    (storeParams s l).segs.ss.base + ((storeParams s l).regs.esp - 4) = slotBelow (stackTop s) (1 + l.length) := by
  rw [storeParams_segs, storeParams_esp, slotBelow, stackTop, Nat.mul_add, BitVec.ofNat_add]
  bv_omega

/-- The last of the pushes leaves every byte outside its slot. -/
theorem storeParams_cons_sameMemOutside (hmem : s.mem.wf = true) (v : Word) (l : List Word) :
    SameMemOutside (storeParams s l) (storeParams s (v :: l)) (slotBelow (stackTop s) (1 + l.length)) 4 :=
  storeParams_slot s l ▸ storePush_sameMemOutside (storeParams_wf hmem l) v

/-- Pushing doublewords leaves every byte below and above their frame. -/
theorem storeParams_sameMemOutside (hmem : s.mem.wf = true) (l : List Word) :
    SameMemOutside s (storeParams s l) (slotBelow (stackTop s) l.length) (4 * l.length) := by
  induction l with
  | nil => exact fun _ _ => rfl
  | cons v l ih =>
    intro a ha
    rw [List.length_cons, Nat.add_comm] at ha
    rw [storeParams_cons_sameMemOutside hmem v l a fun k hk => ha k (by omega)]
    refine ih a fun k hk => ?_
    rw [slotBelow_byte]
    exact ha (4 + k) (by omega)

/-- Each of the doublewords pushed lies in its slot, the first of the list lowest. -/
theorem linRead32_storeParams (hmem : s.mem.wf = true) {l : List Word} (hlen : 4 * l.length ≤ 2 ^ 32) {k : Nat}
    {v : Word} (hk : l[k]? = some v) :
    linRead32 (storeParams s l) (slotBelow (stackTop s) l.length + BitVec.ofNat 32 (4 * k)) = v := by
  induction l generalizing k with
  | nil => cases hk
  | cons w l ih =>
    rw [List.length_cons] at hlen
    rw [List.length_cons, Nat.add_comm]
    cases k with
    | zero =>
      obtain rfl : w = v := by simpa using hk
      rw [Nat.mul_zero, BitVec.add_zero, ← storeParams_slot]
      exact linRead32_storePush (storeParams_wf hmem l) w
    | succ k =>
      rw [List.getElem?_cons_succ] at hk
      have hkl : k < l.length := (List.getElem?_eq_some_iff.1 hk).1
      have hslot : slotBelow (stackTop s) (1 + l.length) + BitVec.ofNat 32 (4 * (k + 1)) =
          slotBelow (stackTop s) l.length + BitVec.ofNat 32 (4 * k) := by
        rw [slotBelow_byte (stackTop s) l.length, Nat.mul_add_one, Nat.add_comm (4 * k)]
      rw [← ih (by omega) hk, ← hslot]
      refine linRead32_congr fun j hj => storeParams_cons_sameMemOutside hmem w l _ fun b hb e => ?_
      rw [BitVec.add_assoc, ← BitVec.ofNat_add] at e
      have hin := (inBytes_add_ofNat (by decide) (by omega)).1 ⟨b, hb, e⟩
      omega

end Frames

/-! ### Pushes and the count of free values (D15, U7) -/

theorem linWriteBytes_countDraw (s : State) (a : Word) (l : List Byte) :
    linWriteBytes (countDraw s) a l = countDraw (linWriteBytes s a l) := by
  induction l generalizing s a with
  | nil => rfl
  | cons b l ih => exact ih (linWrite8 s a b) (a + 1)

theorem storePush_countDraw (s : State) (v : Word) : storePush (countDraw s) v = countDraw (storePush s v) :=
  congrArg (setEsp · (s.regs.esp - 4)) (linWriteBytes_countDraw s _ _)

theorem storeParams_countDraw (s : State) (l : List Word) :
    storeParams (countDraw s) l = countDraw (storeParams s l) := by
  induction l with
  | nil => rfl
  | cons v l ih => exact (congrArg (storePush · v) ih).trans (storePush_countDraw _ v)

@[simp] theorem storePush_draws (s : State) (v : Word) : (storePush s v).draws = s.draws := by
  rw [storePush_frame]

@[simp] theorem storeParams_draws (s : State) (l : List Word) : (storeParams s l).draws = s.draws := by
  rw [storeParams_frame]

/-- Pushing a selector is pushing a doubleword with a free high half. -/
theorem storePushSel_eq (s : State) (sel : Half) :
    storePushSel s sel = countDraw (storePush s (Config.drawHalf s.draws ++ sel)) :=
  storePush_countDraw s _

/-! ### The new stack and code segment (R166, R197) -/

/-- The access byte of a writable segment's descriptor is not that of an executable one's. -/
theorem accessAddr_ne {s : State} {a b : Half} (hw : (descOf s a).attr.writable = true)
    (hx : (descOf s b).attr.executable = true) : accessAddr s a ≠ accessAddr s b := by
  intro e
  have haddr : descriptorAddr s a = descriptorAddr s b := (BitVec.add_left_inj 5).1 e
  have hdesc : descOf s a = descOf s b := congrArg (descriptorAt s) haddr
  rw [hdesc, SegAttr.writable_of_executable hx] at hw
  exact Bool.false_ne_true hw

/-- The accessed-bit update of a load where the access byte still reads as when its descriptor was read. -/
theorem linRead8_setAccessed_unchanged {s t : State} (hmem : t.mem.wf = true) (hsys : t.systemPart = s.systemPart)
    {sel : Half} (hsame : linRead8 t (accessAddr s sel) = linRead8 s (accessAddr s sel)) (a : Word) :
    linRead8 (setAccessed t sel (descOf s sel)) a =
      if a = accessAddr s sel then accessAfter s sel else linRead8 t a := by
  rw [linRead8_setAccessed hmem hsys]
  by_cases ha : a = accessAddr s sel
  · subst ha
    cases hset : setsAccessedBit s sel <;> simp [accessAfter, hset, hsame]
  · simp [ha]

/-- Loading CS changes CS, the CPL, memory and the stored set alone (R166). -/
theorem loadCs_frame (s : State) (sel : Half) (d : Descriptor) (p : Level) :
    loadCs s sel d p =
      { s with
        segs := { s.segs with cs := d.segReg (withRpl sel p) }
        cpl := p
        mem := (loadCs s sel d p).mem
        stored := (loadCs s sel d p).stored } := by
  conv_lhs => rw [loadCs, commitSeg, setAccessed_frame]
  rfl

/-- Memory reads after loading CS as after the accessed-bit update. -/
theorem linRead8_loadCs (s : State) (sel : Half) (d : Descriptor) (p : Level) (a : Word) :
    linRead8 (loadCs s sel d p) a = linRead8 (setAccessed s sel d) a := by
  rw [loadCs, commitSeg, setAccessed_withRpl]; rfl

/-- The state of a stack switch to level `p` once SS and ESP are those of the new stack (R197 step 2). -/
def newStackState (s : State) (p : Level) : State :=
  setEsp (commitSeg s .ss (tssSs s p) (descOf s (tssSs s p))) (tssEsp s p)

/-- The state of a stack switch before its pushes, once CS is the gate's target at level `p` (R197 step 3). -/
def switchedState (s : State) (sel : Half) (p : Level) : State :=
  loadCs (newStackState s p) (gateSel s sel) (gateDesc s sel) p

section Switched
variable {s : State} {sel : Half} {p : Level}

@[simp] theorem newStackState_systemPart (s : State) (p : Level) : (newStackState s p).systemPart = s.systemPart := by
  simp [newStackState]

/-- A new stack changes SS, ESP, memory and the stored set alone. -/
theorem newStackState_frame (s : State) (p : Level) :
    newStackState s p =
      { s with
        regs := { s.regs with esp := tssEsp s p }
        segs := { s.segs with ss := (descOf s (tssSs s p)).segReg (tssSs s p) }
        mem := (newStackState s p).mem
        stored := (newStackState s p).stored } := by
  conv_lhs => rw [newStackState, commitSeg, setAccessed_frame]
  rfl

/-- Before its pushes a stack switch has changed ESP, CS, SS, the CPL, memory and the stored set alone. -/
theorem switchedState_frame (s : State) (sel : Half) (p : Level) :
    switchedState s sel p =
      { s with
        regs := { s.regs with esp := tssEsp s p }
        segs :=
          { s.segs with
            cs := enteredCode s (gateSel s sel) p
            ss := (descOf s (tssSs s p)).segReg (tssSs s p) }
        cpl := p
        mem := (switchedState s sel p).mem
        stored := (switchedState s sel p).stored } := by
  calc switchedState s sel p
    _ = { newStackState s p with
          segs := { (newStackState s p).segs with cs := enteredCode s (gateSel s sel) p }
          cpl := p
          mem := (switchedState s sel p).mem
          stored := (switchedState s sel p).stored } := loadCs_frame _ _ _ _
    _ = _ := by rw [newStackState_frame]

theorem setAccessed_wf (hmem : s.mem.wf = true) (sel : Half) (d : Descriptor) :
    (setAccessed s sel d).mem.wf = true := by
  unfold setAccessed
  split
  · exact linWrite8_wf hmem _ _
  · exact hmem

theorem newStackState_wf (hmem : s.mem.wf = true) (p : Level) : (newStackState s p).mem.wf = true :=
  setAccessed_wf hmem _ _

theorem switchedState_wf (hmem : s.mem.wf = true) (sel : Half) (p : Level) : (switchedState s sel p).mem.wf = true :=
  setAccessed_wf (newStackState_wf hmem p) _ _

/-- Memory after a new stack: the access byte of its descriptor as the load leaves it. -/
theorem linRead8_newStackState (hmem : s.mem.wf = true) (p : Level) (a : Word) :
    linRead8 (newStackState s p) a =
      if a = accessAddr s (tssSs s p) then accessAfter s (tssSs s p) else linRead8 s a :=
  linRead8_setAccessed_unchanged hmem rfl rfl a

/-- Memory before the pushes: the access bytes of the new SS and CS descriptors as their loads leave them (R133). -/
theorem linRead8_switchedState (hmem : s.mem.wf = true) (hw : (descOf s (tssSs s p)).attr.writable = true)
    (hx : (gateDesc s sel).attr.executable = true) (a : Word) :
    linRead8 (switchedState s sel p) a =
      if a = accessAddr s (tssSs s p) then accessAfter s (tssSs s p)
      else if a = accessAddr s (gateSel s sel) then accessAfter s (gateSel s sel)
      else linRead8 s a := by
  have hne : accessAddr s (tssSs s p) ≠ accessAddr s (gateSel s sel) := accessAddr_ne hw hx
  have hsame : linRead8 (newStackState s p) (accessAddr s (gateSel s sel)) =
      linRead8 s (accessAddr s (gateSel s sel)) := by
    rw [linRead8_newStackState hmem, if_neg hne.symm]
  have hcode : linRead8 (switchedState s sel p) a =
      if a = accessAddr s (gateSel s sel) then accessAfter s (gateSel s sel) else linRead8 (newStackState s p) a :=
    (linRead8_loadCs _ _ _ _ a).trans
      (linRead8_setAccessed_unchanged (newStackState_wf hmem p) (newStackState_systemPart s p) hsame a)
  rw [hcode, linRead8_newStackState hmem]
  split
  · next ha => rw [if_neg (ha ▸ hne.symm)]
  · rfl

end Switched

/-! ### The frame on the new stack (R199) -/

/-- The linear address at which the new stack of a level begins (R33, R198). -/
def innerTop (s : State) (p : Level) : Word := (descOf s (tssSs s p)).base + tssEsp s p

/-- The doublewords an interlevel CALL pushes, the lowest first: the return offset, the old CS, the parameters in
their order, the old ESP and the old SS (R197, R199). -/
def innerFrameWords (s : State) (ret : Word) (params : List Word) : List Word :=
  ret :: (Config.drawHalf (s.draws + 1) ++ s.segs.cs.sel) ::
    (params ++ [s.regs.esp, Config.drawHalf s.draws ++ s.segs.ss.sel])

/-- A stack switch loads the new stack and code segment, pushes the frame, drawing two free values for it, and sets
EIP. -/
theorem commitSwitch_eq {s : State} {sel : Half} {p : Level} (hp : p = (gateDesc s sel).attr.dpl) (params : List Word)
    (ret off : Word) :
    commitSwitch s (innerStack s p) (gateTarget s sel) params ret off =
      setEip (countDraw (countDraw (storeParams (switchedState s sel p) (innerFrameWords s ret params)))) off := by
  subst hp
  have hdraws : (switchedState s sel (gateDesc s sel).attr.dpl).draws = s.draws := by rw [switchedState_frame]
  calc commitSwitch s (innerStack s _) (gateTarget s sel) params ret off
    _ = setEip (storePush (storePushSel (storeParams (storePush (storePushSel
          (switchedState s sel (gateDesc s sel).attr.dpl) s.segs.ss.sel) s.regs.esp) params) s.segs.cs.sel) ret) off :=
      rfl
    _ = _ := by
      simp only [storePushSel_eq, storePush_countDraw, storeParams_countDraw, countDraw_draws, storeParams_draws,
        storePush_draws, hdraws, innerFrameWords, storeParams_cons, storeParams_append, storeParams_nil]

section SwitchCommitted
variable {s : State} {sel : Half} {p : Level} {params : List Word} {ret off : Word}

theorem length_innerFrameWords : (innerFrameWords s ret params).length = params.length + 4 := by
  simp [innerFrameWords]

/-- The parameters begin two doublewords above the lowest. -/
theorem innerFrameWords_param {k : Nat} {v : Word} (hk : params[k]? = some v) :
    (innerFrameWords s ret params)[k + 2]? = some v := by
  have hlt : k < params.length := (List.getElem?_eq_some_iff.1 hk).1
  simpa [innerFrameWords, List.getElem?_append_left hlt] using hk

theorem innerFrameWords_oldEsp : (innerFrameWords s ret params)[params.length + 2]? = some s.regs.esp := by
  simp [innerFrameWords]

theorem innerFrameWords_oldSs :
    (innerFrameWords s ret params)[params.length + 3]? = some (Config.drawHalf s.draws ++ s.segs.ss.sel) := by
  simp [innerFrameWords]

/-- Before its pushes ESP of a stack switch is that of the TSS. -/
theorem stackTop_switchedState (s : State) (sel : Half) (p : Level) :
    stackTop (switchedState s sel p) = innerTop s p := by
  rw [stackTop, switchedState_frame]; rfl

/-- Memory after a stack switch is that after its pushes. -/
theorem linRead8_commitSwitch (hp : p = (gateDesc s sel).attr.dpl) (a : Word) :
    linRead8 (commitSwitch s (innerStack s p) (gateTarget s sel) params ret off) a =
      linRead8 (storeParams (switchedState s sel p) (innerFrameWords s ret params)) a := by
  rw [linRead8, linRead8, commitSwitch_eq hp, setEip_mem, countDraw_mem, countDraw_mem]

/-- The `k`-th doubleword of the frame, counted from its lowest slot, lies in the `m`-th slot below the top (R199). -/
theorem linRead32_commitSwitch (hmem : s.mem.wf = true) (hp : p = (gateDesc s sel).attr.dpl)
    (hlen : params.length < 32) {k m : Nat} {v : Word} (hk : (innerFrameWords s ret params)[k]? = some v)
    (hm : k + m = params.length + 4) :
    linRead32 (commitSwitch s (innerStack s p) (gateTarget s sel) params ret off) (slotBelow (innerTop s p) m) = v := by
  have hframe : 4 * (innerFrameWords s ret params).length ≤ 2 ^ 32 := by rw [length_innerFrameWords]; omega
  have hslot := linRead32_storeParams (switchedState_wf hmem sel p) hframe hk
  rw [stackTop_switchedState, length_innerFrameWords, slotBelow_add _ hm] at hslot
  rw [linRead32_congr fun j _ => linRead8_commitSwitch hp _, hslot]

/-- The old SS lies in the topmost slot. -/
theorem commitSwitch_oldSs (hmem : s.mem.wf = true) (hp : p = (gateDesc s sel).attr.dpl) (hlen : params.length < 32) :
    (linRead32 (commitSwitch s (innerStack s p) (gateTarget s sel) params ret off)
      (slotBelow (innerTop s p) 1)).extractLsb' 0 16 = s.segs.ss.sel := by
  rw [linRead32_commitSwitch hmem hp hlen innerFrameWords_oldSs (by omega)]
  exact BitVec.extractLsb'_append_eq_right

/-- The old CS lies in the slot above the lowest. -/
theorem commitSwitch_oldCs (hmem : s.mem.wf = true) (hp : p = (gateDesc s sel).attr.dpl) (hlen : params.length < 32) :
    (linRead32 (commitSwitch s (innerStack s p) (gateTarget s sel) params ret off)
      (slotBelow (innerTop s p) (params.length + 4) + 4)).extractLsb' 0 16 = s.segs.cs.sel := by
  have haddr : slotBelow (innerTop s p) (params.length + 4) + 4 = slotBelow (innerTop s p) (params.length + 3) :=
    slotBelow_add _ (j := 1) (by omega)
  rw [haddr, linRead32_commitSwitch hmem hp hlen (k := 1) rfl (by omega)]
  exact BitVec.extractLsb'_append_eq_right

/-- The parameters lie above the return pointer, in their order (R200). -/
theorem commitSwitch_param (hmem : s.mem.wf = true) (hp : p = (gateDesc s sel).attr.dpl) (hlen : params.length < 32)
    {k : Nat} {v : Word} (hk : params[k]? = some v) :
    linRead32 (commitSwitch s (innerStack s p) (gateTarget s sel) params ret off)
      (slotBelow (innerTop s p) (params.length + 4) + 8 + BitVec.ofNat 32 (4 * k)) = v := by
  have hlt : k < params.length := (List.getElem?_eq_some_iff.1 hk).1
  have hreturn : slotBelow (innerTop s p) (params.length + 4) + 8 = slotBelow (innerTop s p) (params.length + 2) :=
    slotBelow_add _ (j := 2) (by omega)
  have hdepth : k + (params.length - k + 2) = params.length + 2 := by omega
  rw [hreturn, slotBelow_add _ hdepth]
  exact linRead32_commitSwitch hmem hp hlen (innerFrameWords_param hk) (by omega)

/-- Outside the frame memory is as the loads of SS and CS leave it (R133). -/
theorem commitSwitch_outside (hmem : s.mem.wf = true) (hp : p = (gateDesc s sel).attr.dpl)
    (hw : (descOf s (tssSs s p)).attr.writable = true) (hx : (gateDesc s sel).attr.executable = true) {a : Word}
    (ha : ¬ inBytes (slotBelow (innerTop s p) (params.length + 4)) (4 * (params.length + 4)) a) :
    linRead8 (commitSwitch s (innerStack s p) (gateTarget s sel) params ret off) a =
      if a = accessAddr s (tssSs s p) then accessAfter s (tssSs s p)
      else if a = accessAddr s (gateSel s sel) then accessAfter s (gateSel s sel)
      else linRead8 s a := by
  have hpushes := storeParams_sameMemOutside (switchedState_wf hmem sel p) (innerFrameWords s ret params)
  rw [stackTop_switchedState, length_innerFrameWords] at hpushes
  rw [linRead8_commitSwitch hp, hpushes a fun k hk e => ha ⟨k, hk, e⟩, linRead8_switchedState hmem hw hx]

/-- Drawing two free values and setting EIP change nothing else. -/
theorem drawsAndEip_frame {t u : State} (h : t = setEip (countDraw (countDraw u)) off) :
    t = { u with eip := off, mem := t.mem, stored := t.stored, draws := u.draws + 2 } := by
  rw [h]; rfl

/-- A stack switch changes ESP, CS, SS, the CPL, EIP, the count of free values, memory and the stored set alone. -/
theorem commitSwitch_frame (hp : p = (gateDesc s sel).attr.dpl) :
    commitSwitch s (innerStack s p) (gateTarget s sel) params ret off =
      { s with
        regs := { s.regs with esp := tssEsp s p - BitVec.ofNat 32 (4 * (params.length + 4)) }
        segs :=
          { s.segs with
            cs := enteredCode s (gateSel s sel) p
            ss := (descOf s (tssSs s p)).segReg (tssSs s p) }
        cpl := p
        eip := off
        mem := (commitSwitch s (innerStack s p) (gateTarget s sel) params ret off).mem
        stored := (commitSwitch s (innerStack s p) (gateTarget s sel) params ret off).stored
        draws := s.draws + 2 } := by
  calc commitSwitch s (innerStack s p) (gateTarget s sel) params ret off
    _ = { storeParams (switchedState s sel p) (innerFrameWords s ret params) with
          eip := off
          mem := (commitSwitch s (innerStack s p) (gateTarget s sel) params ret off).mem
          stored := (commitSwitch s (innerStack s p) (gateTarget s sel) params ret off).stored
          draws := (storeParams (switchedState s sel p) (innerFrameWords s ret params)).draws + 2 } :=
      drawsAndEip_frame (commitSwitch_eq hp _ _ _)
    _ = _ := by rw [storeParams_frame, length_innerFrameWords, switchedState_frame]

end SwitchCommitted

/-- Settles O37: the checks pass and the parameters can be read, so the CALL switches stacks and pushes its frame. -/
theorem interlevelCalls : Obligations.InterlevelCalls := by
  intro s i sel off p n hmem hreach hgate htarget hinner hp hn hstack hread
  obtain ⟨hok, hroom⟩ := Bool.and_eq_true_iff.1 hstack
  obtain ⟨-, -, -, -, -, -, -, hw, -⟩ := newStack_ok (newStack_pass hok)
  obtain ⟨-, -, hx, -⟩ := gateTargetUsable_iff.1 htarget
  generalize hps : (List.range n).map (callerParam s) = params
  have hlen : params.length < 32 := by
    rw [← hps, List.length_map, List.length_range, hn]
    exact (descOf s sel).gateCount.isLt
  have hparam (k : Nat) (hk : k < n) : params[k]? = some (callerParam s k) := by rw [← hps]; simp [hk]
  have hnext : exec i s = .next (commitSwitch s (innerStack s p) (gateTarget s sel) params (after s i)
      (descOf s sel).gateOffset) := by
    subst hp hn
    rw [exec_interlevel hreach hgate htarget hinner, farCallGateInter_eq hok, if_neg (by simp [hroom]),
      readParams_readable hread, hps]
    rfl
  obtain rfl : params.length = n := by rw [← hps, List.length_map, List.length_range]
  have hframe : 16 + 4 * params.length = 4 * (params.length + 4) := by omega
  rw [hframe]
  refine ⟨_, hnext, ⟨commitSwitch_oldSs hmem hp hlen, ?oldEsp,
    fun k hk => commitSwitch_param hmem hp hlen (hparam k hk), commitSwitch_oldCs hmem hp hlen, ?ret,
    fun a => commitSwitch_outside hmem hp hw hx⟩, commitSwitch_frame hp⟩
  case oldEsp => exact linRead32_commitSwitch (m := 2) hmem hp hlen innerFrameWords_oldEsp (by omega)
  case ret => exact linRead32_commitSwitch hmem hp hlen (k := 0) rfl (by omega)

end Sys2Proof.Machine
end

section
/-! Near and far returns (R220 to R227): the return pointer and the saved stack on the stack, the chain of checks of
Table 6-3, the state a return leaves at the same and at a less privileged level, and where a return stops. -/

namespace Sys2Proof.Machine

/-! ### Near returns (R220, R221) -/

/-- A near RET whose slot can be read goes to the offset there unless it lies beyond CS's limit. -/
theorem nearReturn_eq {s : State} (hread : canAccess s .ss s.regs.esp 4 .read = true) (n : Word) :
    nearReturn s n =
      if s.segs.cs.limit < returnOff s then .error (.fault (.gp 0))
      else .ok { s with regs := { s.regs with esp := s.regs.esp + 4 + n }, eip := returnOff s } := by
  rw [nearReturn, memRead32_ok.2 ⟨hread, rfl⟩]
  exact stopIf_bind

/-- A read beyond the limit of a readable SS raises SF(0) (R72). -/
theorem segCheck_stackRead_outside {s : State} {off : Word} {n : Nat} (htype : accessTypeOk s .ss .read = true)
    (hout : s.segs.ss.inLimit off n = false) : segCheck s .ss off n .read = .error (.fault (.sf 0)) := by
  rw [segCheck_of_accessTypeOk htype, if_neg (by simpa [Segs.get] using hout), if_pos rfl]

/-- Settles O29: each form is a near return, which reads its slot and then looks at CS's limit. -/
theorem nearReturns : Obligations.NearReturns := by
  intro s i n hform
  have hexec : exec i s = finish (nearReturn s n) := by
    obtain ⟨rfl, rfl⟩ | ⟨k, rfl, rfl⟩ := hform <;> rfl
  rw [hexec]
  refine ⟨fun hread => ⟨fun (hin : returnOff s ≤ s.segs.cs.limit) => ?next,
    fun (hout : s.segs.cs.limit < returnOff s) => ?beyond⟩, fun hvalid hcode hout => ?outside⟩
  case next => rw [nearReturn_eq hread, if_neg (BitVec.not_lt.2 hin)]; rfl
  case beyond => rw [nearReturn_eq hread, if_pos hout]; rfl
  case outside =>
    have hslot := segCheck_stackRead_outside (accessTypeOk_read.2 ⟨hvalid, hcode⟩) hout
    exact congrArg finish (bind_stop (bind_stop hslot _) _)

/-! ### The checks of a far return (Table 6-3) -/

/-- The return pointer on the stack (R223). -/
def returnPtr (s : State) : FarPtr := { sel := returnSel s, off := returnOff s }

/-- The saved SS:ESP of a return releasing `n` bytes (R225). -/
def savedStack (s : State) (n : Word) : FarPtr := { sel := savedSs s n, off := savedEsp s n }

/-- The descriptor that the return CS names. -/
abbrev returnDesc (s : State) : Descriptor := descOf s (returnSel s)

/-- The descriptor that the saved SS names. -/
abbrev savedDesc (s : State) (n : Word) : Descriptor := descOf s (savedSs s n)

/-- Every far RET form is one far return (R223). -/
theorem exec_releases {s : State} {i : Instr} {n : Word} (h : releases i n) : exec i s = finish (farReturn s n) := by
  obtain ⟨rfl, rfl⟩ | ⟨k, rfl, rfl⟩ := h <;> rfl

section Checks
variable {s : State} {n : Word}

/-- The level rule rejects nonconforming code of another DPL than the popped RPL, and conforming code of a greater
one (row 8). -/
theorem returnLevelOk_eq_false :
    returnLevelOk s = false ↔
      (returnDesc s).attr.conforming = false ∧ (returnDesc s).attr.dpl ≠ selRpl (returnSel s) ∨
        (returnDesc s).attr.conforming = true ∧ selRpl (returnSel s) < (returnDesc s).attr.dpl := by
  unfold returnLevelOk
  cases (descOf s (returnSel s)).attr.conforming <;> simp

/-- The checks on the return CS in their order: the selector, its table and the type, then P, then the level (rows 4 to
8). -/
theorem returnCsChecks_eq (s : State) :
    returnCsChecks s (returnSel s) =
      if isNull (returnSel s) = true ∨ inTable s (returnSel s) = false ∨ (returnDesc s).attr.executable = false then
        .error (raise s .gp (.selector (returnSel s)))
      else if (returnDesc s).attr.p = false then .error (raise s .np (.selector (returnSel s)))
      else if returnLevelOk s = false then .error (raise s .gp (.selector (returnSel s)))
      else .ok (returnDesc s) := by
  rw [returnCsChecks]
  split
  · next hbad =>
    simp only [stopIf_bind_stop, readDescriptor_bind_stop]
    exact hbad.imp_right (.imp_right .inl)
  · next hgood =>
    obtain ⟨hnull, hgood⟩ := not_or.1 hgood
    obtain ⟨htable, hcode⟩ := not_or.1 hgood
    rw [stopIf_bind_pass hnull, readDescriptor_bind_pass (Bool.eq_true_of_not_eq_false htable),
      stopIf_bind_pass hcode, stopIf_bind]
    refine if_congr Iff.rfl rfl ?_
    split
    · next hlevel => simpa only [stopIf_bind_stop, reduceCtorEq, or_false] using returnLevelOk_eq_false.1 hlevel
    · next hlevel =>
      obtain ⟨hnon, hconf⟩ := not_or.1 (mt returnLevelOk_eq_false.2 hlevel)
      rw [stopIf_bind_pass hnon, stopIf_bind_pass hconf]

/-- A return CS that is in order passes its checks. -/
theorem returnCsChecks_pass (h : returnCsOk s = true) : returnCsChecks s (returnSel s) = .ok (returnDesc s) := by
  simp only [returnCsOk, Bool.and_eq_true, Bool.not_eq_true', and_assoc] at h
  obtain ⟨hn, ht, hx, hp, hlevel⟩ := h
  simp [returnCsChecks_eq, hn, ht, hx, hp, hlevel]

/-- The checks on the saved SS in their order: the selector, its table and the type, then P, then the levels (rows 10 to
15). -/
theorem returnSsChecks_eq (s : State) (n : Word) (p : Level) :
    returnSsChecks s (savedSs s n) p =
      if isNull (savedSs s n) = true ∨ inTable s (savedSs s n) = false ∨ (savedDesc s n).attr.writable = false then
        .error (raise s .gp (.selector (savedSs s n)))
      else if (savedDesc s n).attr.p = false then .error (raise s .sf (.selector (savedSs s n)))
      else if (savedDesc s n).attr.dpl ≠ p ∨ selRpl (savedSs s n) ≠ (savedDesc s n).attr.dpl then
        .error (raise s .gp (.selector (savedSs s n)))
      else .ok (savedDesc s n) := by
  rw [returnSsChecks]
  split
  · next hbad =>
    simp only [stopIf_bind_stop, readDescriptor_bind_stop]
    exact hbad.imp_right (.imp_right .inl)
  · next hgood =>
    obtain ⟨hnull, hgood⟩ := not_or.1 hgood
    obtain ⟨htable, hdata⟩ := not_or.1 hgood
    rw [stopIf_bind_pass hnull, readDescriptor_bind_pass (Bool.eq_true_of_not_eq_false htable),
      stopIf_bind_pass hdata, stopIf_bind]
    refine if_congr Iff.rfl rfl ?_
    split
    · next hlevel => simpa only [stopIf_bind_stop, reduceCtorEq, or_false] using hlevel
    · next hlevel =>
      obtain ⟨hdpl, hrpl⟩ := not_or.1 hlevel
      rw [stopIf_bind_pass hdpl, stopIf_bind_pass hrpl]

/-- A saved SS that is in order passes its checks. -/
theorem returnSsChecks_pass (h : savedSsOk s n = true) :
    returnSsChecks s (savedSs s n) (selRpl (returnSel s)) = .ok (savedDesc s n) := by
  simp only [savedSsOk, Bool.and_eq_true, Bool.not_eq_true', beq_iff_eq, and_assoc] at h
  obtain ⟨hn, ht, hw, hp, hdpl, hrpl⟩ := h
  simp [returnSsChecks_eq, hn, ht, hw, hp, hdpl, hrpl]

/-- The saved SS:ESP is read where it lies within SS's limit (row 9). -/
theorem readSavedStack_eq (s : State) (n : Word) :
    readSavedStack s n =
      if s.segs.ss.inLimit (s.regs.esp + n + 8) 8 = false then .error (raise s .sf .unspecified)
      else .ok (savedStack s n) :=
  stopIf_bind

end Checks

/-! ### Far returns from a stack that can be read (R222 to R226) -/

/-- The state that a far return to the same level leaves (R222). -/
def sameLevelState (s : State) (n : Word) : State :=
  setEsp (enterCode s (returnSel s) (returnDesc s) (returnOff s)) (s.regs.esp + 8 + n)

/-- The state that a far return to a less privileged level leaves (R226, R227). -/
def outwardState (s : State) (n : Word) : State :=
  commitReturn s (returnPtr s) (savedStack s n) (returnDesc s) (savedDesc s n) n

section FarReturn
variable {s : State} {n : Word}

/-- The return pointer is read where its eight bytes can be. -/
theorem readReturnPtr_pass (hread : canAccess s .ss s.regs.esp 8 .read = true) :
    readReturnPtr s = .ok (returnPtr s) := by
  rw [readReturnPtr, (segCheck_ok (u := ())).2 hread]; rfl

/-- The popped RPL decides between the fault of row 3, a return to the same level and one to an outer level. -/
theorem farReturn_eq (hread : canAccess s .ss s.regs.esp 8 .read = true) :
    farReturn s n =
      if selRpl (returnSel s) < s.cpl then .error (raise s .gp (.selector (returnSel s)))
      else if selRpl (returnSel s) = s.cpl then farReturnSame s (returnPtr s) n
      else farReturnInter s (returnPtr s) n := by
  rw [farReturn, readReturnPtr_pass hread]
  exact stopIf_bind

/-- A return pointer beyond the limit of a readable SS raises SF(0) (rows 1, 2). -/
theorem farReturn_outside (htype : accessTypeOk s .ss .read = true) (hout : s.segs.ss.inLimit s.regs.esp 8 = false) :
    farReturn s n = .error (.fault (.sf 0)) :=
  bind_stop (bind_stop (segCheck_stackRead_outside htype hout) _) _

/-- A stop of the checks on the return CS is the stop of the return, at both levels. -/
theorem farReturn_csStop {e : Stop} (hread : canAccess s .ss s.regs.esp 8 .read = true)
    (hlevel : s.cpl ≤ selRpl (returnSel s)) (h : returnCsChecks s (returnSel s) = .error e) :
    farReturn s n = .error e := by
  rw [farReturn_eq hread, if_neg (BitVec.not_lt.2 hlevel)]
  split
  · exact bind_stop h _
  · exact bind_stop h _

/-- A return CS of a more privileged RPL, null, outside its table or no code raises GP (rows 3 to 6). -/
theorem farReturn_badCs (hread : canAccess s .ss s.regs.esp 8 .read = true)
    (h : selRpl (returnSel s) < s.cpl ∨ isNull (returnSel s) = true ∨ inTable s (returnSel s) = false ∨
      (returnDesc s).attr.executable = false) :
    farReturn s n = .error (raise s .gp (.selector (returnSel s))) := by
  by_cases hlevel : selRpl (returnSel s) < s.cpl
  · rw [farReturn_eq hread, if_pos hlevel]
  · refine farReturn_csStop hread (BitVec.not_lt.1 hlevel) ?_
    rw [returnCsChecks_eq, if_pos (h.resolve_left hlevel)]

/-- Return to the same level: after the checks on CS, D and then the limit decide (R222). -/
theorem farReturn_sameLevel (hread : canAccess s .ss s.regs.esp 8 .read = true)
    (hlevel : selRpl (returnSel s) = s.cpl) (hcs : returnCsOk s = true) :
    farReturn s n =
      if (returnDesc s).attr.db = false then .error (.refused .codeSegment16)
      else if (returnDesc s).effLimit < returnOff s then .error (raise s .gp .zero)
      else .ok (sameLevelState s n) := by
  rw [farReturn_eq hread, if_neg (hlevel ▸ BitVec.lt_irrefl _), if_pos hlevel, farReturnSame, returnPtr,
    returnCsChecks_pass hcs]
  exact stopIf_bind.trans (if_congr Iff.rfl rfl stopIf_bind)

/-- Return to an outer level: after the checks on CS, the saved stack and the checks on SS come first (R225). -/
theorem farReturn_outward (hread : canAccess s .ss s.regs.esp 8 .read = true)
    (hlevel : s.cpl < selRpl (returnSel s)) (hcs : returnCsOk s = true) :
    farReturn s n =
      if s.segs.ss.inLimit (s.regs.esp + n + 8) 8 = false then .error (raise s .sf .unspecified)
      else
        returnSsChecks s (savedSs s n) (selRpl (returnSel s)) >>= fun sd =>
          if (returnDesc s).attr.db = false then .error (.refused .codeSegment16)
          else if sd.attr.db = false then .error (.refused .stackSegment16)
          else if (returnDesc s).effLimit < returnOff s then .error (raise s .gp .zero)
          else .ok (commitReturn s (returnPtr s) (savedStack s n) (returnDesc s) sd n) := by
  have hne : ¬ selRpl (returnSel s) = s.cpl := fun e => BitVec.lt_irrefl _ (e ▸ hlevel)
  rw [farReturn_eq hread, if_neg (BitVec.lt_asymm hlevel), if_neg hne, farReturnInter, returnPtr,
    returnCsChecks_pass hcs, readSavedStack_eq]
  simp only [farTargetCheck, stopIf_bind]
  split <;> rfl

/-- A saved SS:ESP beyond SS's limit raises SF with a code that is left free (row 9, U6). -/
theorem farReturn_savedStack_outside (hread : canAccess s .ss s.regs.esp 8 .read = true)
    (hlevel : s.cpl < selRpl (returnSel s)) (hcs : returnCsOk s = true)
    (hout : s.segs.ss.inLimit (s.regs.esp + n + 8) 8 = false) :
    farReturn s n = .error (raise s .sf .unspecified) := by
  rw [farReturn_outward hread hlevel hcs, if_pos hout]

/-- A stop of the checks on the saved SS is the stop of the return. -/
theorem farReturn_ssStop {e : Stop} (hread : canAccess s .ss s.regs.esp 8 .read = true)
    (hlevel : s.cpl < selRpl (returnSel s)) (hcs : returnCsOk s = true)
    (hroom : s.segs.ss.inLimit (s.regs.esp + n + 8) 8 = true)
    (h : returnSsChecks s (savedSs s n) (selRpl (returnSel s)) = .error e) : farReturn s n = .error e := by
  rw [farReturn_outward hread hlevel hcs, if_neg (ne_false_of_eq_true hroom)]
  exact bind_stop h _

/-- Once the saved SS passes its checks, D, then B, then the limit decide (R225). -/
theorem farReturn_outward_stackOk (hread : canAccess s .ss s.regs.esp 8 .read = true)
    (hlevel : s.cpl < selRpl (returnSel s)) (hcs : returnCsOk s = true)
    (hroom : s.segs.ss.inLimit (s.regs.esp + n + 8) 8 = true) (hss : savedSsOk s n = true) :
    farReturn s n =
      if (returnDesc s).attr.db = false then .error (.refused .codeSegment16)
      else if (savedDesc s n).attr.db = false then .error (.refused .stackSegment16)
      else if (returnDesc s).effLimit < returnOff s then .error (raise s .gp .zero)
      else .ok (outwardState s n) := by
  rw [farReturn_outward hread hlevel hcs, if_neg (ne_false_of_eq_true hroom), returnSsChecks_pass hss]; rfl

end FarReturn

/-- A usable return pointer: it can be read, its CS is in order and of 32 bits, and its offset is within the limit. -/
theorem returnCodeUsable_iff {s : State} :
    returnCodeUsable s = true ↔
      canAccess s .ss s.regs.esp 8 .read = true ∧ returnCsOk s = true ∧ (returnDesc s).attr.db = true ∧
        returnOff s ≤ (returnDesc s).effLimit := by
  simp only [returnCodeUsable, Bool.and_eq_true, decide_eq_true_eq, and_assoc]

/-- A usable saved stack: it can be read, and its SS is in order and of 32 bits. -/
theorem returnStackUsable_iff {s : State} {n : Word} :
    returnStackUsable s n = true ↔
      s.segs.ss.inLimit (s.regs.esp + n + 8) 8 = true ∧ savedSsOk s n = true ∧ (savedDesc s n).attr.db = true := by
  simp only [returnStackUsable, Bool.and_eq_true, and_assoc]

/-! ### Returns to the same level (R222, R223) -/

/-- A return to the same level changes ESP, CS, EIP, memory and the stored set alone. -/
theorem sameLevelState_frame (s : State) (n : Word) :
    sameLevelState s n =
      { s with
        regs := { s.regs with esp := s.regs.esp + 8 + n }
        segs := { s.segs with cs := enteredCode s (returnSel s) s.cpl }
        eip := returnOff s
        mem := (sameLevelState s n).mem
        stored := (sameLevelState s n).stored } := by
  conv_lhs => rw [sameLevelState, enterCode_frame]
  rfl

/-- Memory after a return to the same level is as after the accessed-bit update. -/
theorem linRead8_sameLevelState (s : State) (n a : Word) :
    linRead8 (sameLevelState s n) a = linRead8 (setAccessed s (returnSel s) (returnDesc s)) a :=
  linRead8_enterCode s (returnSel s) (returnDesc s) (returnOff s) a

/-- Settles O42: the checks pass, and the return enters the segment. -/
theorem farReturnsSameLevel : Obligations.FarReturnsSameLevel := by
  intro s i n hmem hform hcode hlevel
  obtain ⟨hread, hcs, hdb, hlimit⟩ := returnCodeUsable_iff.1 hcode
  obtain ⟨houtside, haccess⟩ := setAccessed_accessedUpdate hmem (returnSel s)
  refine ⟨sameLevelState s n, ?next, ⟨fun a ha => ?outside, ?access⟩, sameLevelState_frame s n⟩
  case next =>
    rw [exec_releases hform, farReturn_sameLevel hread hlevel hcs, if_neg (ne_false_of_eq_true hdb),
      if_neg (BitVec.not_lt.2 hlimit)]
    rfl
  case outside => rw [linRead8_sameLevelState]; exact houtside a ha
  case access => rw [linRead8_sameLevelState]; exact haccess

/-! ### Returns to a less privileged level (R224 to R227) -/

/-- Step 3 of an outward return leaves a register as `clearedSeg` says (R227). -/
theorem clearIfPrivileged_eq (p : Level) (g : SegReg) : clearIfPrivileged p g = clearedSeg p g := by
  rw [clearIfPrivileged, clearedSeg]
  exact if_congr (by simp [and_assoc]) rfl rfl

/-- The state of an outward return once CS, the CPL and EIP are restored (R226). -/
def returnedCode (s : State) : State :=
  setEip (loadCs s (returnSel s) (returnDesc s) (selRpl (returnSel s))) (returnOff s)

/-- The state of an outward return once SS:ESP is restored too, before its step 3 (R226). -/
def returnedStack (s : State) (n : Word) : State :=
  setEsp (commitSeg (returnedCode s) .ss (savedSs s n) (savedDesc s n)) (savedEsp s n + n)

section Outward
variable {s : State} {n : Word}

/-- Restoring CS:EIP changes CS, the CPL, EIP, memory and the stored set alone. -/
theorem returnedCode_frame (s : State) :
    returnedCode s =
      { s with
        segs := { s.segs with cs := enteredCode s (returnSel s) (selRpl (returnSel s)) }
        cpl := selRpl (returnSel s)
        eip := returnOff s
        mem := (returnedCode s).mem
        stored := (returnedCode s).stored } := by
  conv_lhs => rw [returnedCode, loadCs_frame]
  rfl

/-- Restoring SS:ESP changes SS, ESP, memory and the stored set alone. -/
theorem returnedStack_frame (s : State) (n : Word) :
    returnedStack s n =
      { returnedCode s with
        regs := { (returnedCode s).regs with esp := savedEsp s n + n }
        segs := { (returnedCode s).segs with ss := (savedDesc s n).segReg (savedSs s n) }
        mem := (returnedStack s n).mem
        stored := (returnedStack s n).stored } := by
  conv_lhs => rw [returnedStack, commitSeg, setAccessed_frame]
  rfl

/-- An outward return changes ESP, the segment registers, the CPL, EIP, memory and the stored set alone. -/
theorem outwardState_frame (s : State) (n : Word) :
    outwardState s n =
      { s with
        regs := { s.regs with esp := savedEsp s n + n }
        segs :=
          { cs := enteredCode s (returnSel s) (selRpl (returnSel s))
            ss := (descOf s (savedSs s n)).segReg (savedSs s n)
            ds := clearedSeg (selRpl (returnSel s)) s.segs.ds
            es := clearedSeg (selRpl (returnSel s)) s.segs.es
            fs := clearedSeg (selRpl (returnSel s)) s.segs.fs
            gs := clearedSeg (selRpl (returnSel s)) s.segs.gs }
        cpl := selRpl (returnSel s)
        eip := returnOff s
        mem := (outwardState s n).mem
        stored := (outwardState s n).stored } := by
  have hclear : outwardState s n = clearDataSegs (returnedStack s n) := rfl
  conv_lhs => rw [hclear, returnedStack_frame, returnedCode_frame, clearDataSegs]
  simp only [clearIfPrivileged_eq]
  rfl

theorem returnedCode_systemPart (s : State) : (returnedCode s).systemPart = s.systemPart := by
  simp [returnedCode]

theorem returnedCode_wf (hmem : s.mem.wf = true) : (returnedCode s).mem.wf = true :=
  setAccessed_wf hmem _ _

/-- Memory once CS is restored: the access byte of its descriptor as the load leaves it. -/
theorem linRead8_returnedCode (hmem : s.mem.wf = true) (a : Word) :
    linRead8 (returnedCode s) a =
      if a = accessAddr s (returnSel s) then accessAfter s (returnSel s) else linRead8 s a :=
  (linRead8_loadCs _ _ _ _ a).trans (linRead8_setAccessed_unchanged hmem rfl rfl a)

/-- Memory after an outward return: the access bytes of the CS and SS descriptors as their loads leave them (R133). -/
theorem linRead8_outwardState (hmem : s.mem.wf = true) (hx : (returnDesc s).attr.executable = true)
    (hw : (savedDesc s n).attr.writable = true) (a : Word) :
    linRead8 (outwardState s n) a =
      if a = accessAddr s (returnSel s) then accessAfter s (returnSel s)
      else if a = accessAddr s (savedSs s n) then accessAfter s (savedSs s n)
      else linRead8 s a := by
  have hne : accessAddr s (savedSs s n) ≠ accessAddr s (returnSel s) := accessAddr_ne hw hx
  have hsame : linRead8 (returnedCode s) (accessAddr s (savedSs s n)) = linRead8 s (accessAddr s (savedSs s n)) := by
    rw [linRead8_returnedCode hmem, if_neg hne]
  have hstack : linRead8 (outwardState s n) a =
      if a = accessAddr s (savedSs s n) then accessAfter s (savedSs s n) else linRead8 (returnedCode s) a :=
    linRead8_setAccessed_unchanged (returnedCode_wf hmem) (returnedCode_systemPart s) hsame a
  rw [hstack, linRead8_returnedCode hmem]
  by_cases ha : a = accessAddr s (savedSs s n)
  · have hcode : a ≠ accessAddr s (returnSel s) := fun e => hne (ha.symm.trans e)
    rw [if_pos ha, if_neg hcode, if_pos ha]
  · rw [if_neg ha, if_neg ha]

end Outward

/-- Settles O43: the checks pass, so the return loads CS and SS and clears the registers too privileged for its
level. -/
theorem farReturnsOutward : Obligations.FarReturnsOutward := by
  rintro s i n _ hmem hform hcode hstack rfl hlevel
  obtain ⟨hread, hcs, hcdb, hlimit⟩ := returnCodeUsable_iff.1 hcode
  obtain ⟨hroom, hss, hsdb⟩ := returnStackUsable_iff.1 hstack
  obtain ⟨-, -, -, hx, -⟩ := returnCsChecks_ok (returnCsChecks_pass hcs)
  obtain ⟨-, -, -, hw, -⟩ := returnSsChecks_ok (returnSsChecks_pass hss)
  refine ⟨outwardState s n, ?_, linRead8_outwardState hmem hx hw, outwardState_frame s n⟩
  rw [exec_releases hform, farReturn_outward_stackOk hread hlevel hcs hroom hss, if_neg (ne_false_of_eq_true hcdb),
    if_neg (ne_false_of_eq_true hsdb), if_neg (BitVec.not_lt.2 hlimit)]
  rfl

/-! ### Far returns that stop (Table 6-3) -/

/-- Settles O44: the checks stop in the order of the table; D, B and the limit of the return CS come last. -/
theorem farReturnFaults : Obligations.FarReturnFaults := by
  intro s i n hform hvalid hcode
  dsimp only
  have htype : accessTypeOk s .ss .read = true := accessTypeOk_read.2 ⟨hvalid, hcode⟩
  have stops {e : Stop} (he : farReturn s n = .error e) : exec i s = finish (.error e) :=
    (exec_releases hform).trans (congrArg finish he)
  refine ⟨fun hout => stops (farReturn_outside htype hout), fun hin => ?_⟩
  have hread : canAccess s .ss s.regs.esp 8 .read = true := Bool.and_eq_true_iff.2 ⟨htype, hin⟩
  refine ⟨fun hbad => stops (farReturn_badCs hread hbad), fun hlevel hn ht hx => ?code, fun hlevel hcs => ?same,
    fun hlevel hcs => ⟨fun hout => ⟨_, stops (farReturn_savedStack_outside hread hlevel hcs hout)⟩,
      fun hroom => ⟨fun hbad => ?badSs, fun hn ht hw => ?stack, fun hss => ?outward⟩⟩⟩
  case code =>
    refine ⟨fun hp => stops (e := raise s .np (.selector (returnSel s))) (farReturn_csStop hread hlevel ?_),
      fun hp hrule => stops (e := raise s .gp (.selector (returnSel s))) (farReturn_csStop hread hlevel ?_)⟩
    · simp [returnCsChecks_eq, hn, ht, hx, hp]
    · simp [returnCsChecks_eq, hn, ht, hx, hp, hrule]
  case same =>
    have hlast := farReturn_sameLevel (n := n) hread hlevel hcs
    refine ⟨fun hdb => stops (e := .refused .codeSegment16) ?_,
      fun hdb hlimit => stops (e := raise s .gp .zero) ?_⟩
    · rw [hlast, if_pos hdb]
    · rw [hlast, if_neg (ne_false_of_eq_true hdb), if_pos hlimit]
  case badSs =>
    refine stops (e := raise s .gp (.selector (savedSs s n))) (farReturn_ssStop hread hlevel hcs hroom ?_)
    rw [returnSsChecks_eq, if_pos hbad]
  case stack =>
    refine ⟨fun hp => stops (e := raise s .sf (.selector (savedSs s n)))
        (farReturn_ssStop hread hlevel hcs hroom ?_),
      fun hp hrule => stops (e := raise s .gp (.selector (savedSs s n)))
        (farReturn_ssStop hread hlevel hcs hroom ?_)⟩
    · simp [returnSsChecks_eq, hn, ht, hw, hp]
    · rw [returnSsChecks_eq, if_neg (by simp [hn, ht, hw]), if_neg (ne_false_of_eq_true hp), if_pos hrule]
  case outward =>
    have hlast := farReturn_outward_stackOk hread hlevel hcs hroom hss
    refine ⟨fun hdb => stops (e := .refused .codeSegment16) ?_,
      fun hcdb hsdb => stops (e := .refused .stackSegment16) ?_,
      fun hcdb hsdb hlimit => stops (e := raise s .gp .zero) ?_⟩
    · rw [hlast, if_pos hdb]
    · rw [hlast, if_neg (ne_false_of_eq_true hcdb), if_pos hsdb]
    · rw [hlast, if_neg (ne_false_of_eq_true hcdb), if_neg (ne_false_of_eq_true hsdb), if_pos hlimit]

/-! ### The data-segment registers after an outward return (R227) -/

/-- What R227 leaves of a register gives access to no segment more privileged than the new level. -/
theorem clearedSeg_dataVisible (p : Level) (g : SegReg) : dataVisible p (clearedSeg p g) := by
  rw [clearedSeg]
  split
  · exact fun hvalid => absurd hvalid (by simp)
  · next hkept =>
    intro hvalid hconf
    simpa [hvalid, hconf] using hkept

/-- After step 3 of an outward return DS, ES, FS and GS give access to no segment more privileged than the CPL. -/
theorem clearDataSegs_dataVisible (s : State) {r : SReg} (hr : r ∈ [SReg.ds, .es, .fs, .gs]) :
    dataVisible (clearDataSegs s).cpl ((clearDataSegs s).segs.get r) := by
  have hclear (g : SegReg) : dataVisible s.cpl (clearIfPrivileged s.cpl g) :=
    clearIfPrivileged_eq s.cpl g ▸ clearedSeg_dataVisible s.cpl g
  cases r with
  | ds | es | fs | gs => exact hclear _
  | cs | ss => simp at hr

/-- A return to the same level keeps the CPL. -/
theorem farReturnSame_cpl {s t : State} {r : FarPtr} {n : Word} (h : farReturnSame s r n = .ok t) : t.cpl = s.cpl := by
  obtain ⟨d, -, h⟩ := bind_ok.1 h
  obtain ⟨-, h⟩ := stopIf_bind_ok.1 h
  obtain ⟨_, -, rfl⟩ := bind_return_ok.1 h
  rfl

/-- A return to a less privileged level ends with the loads and step 3. -/
theorem farReturnInter_commits {s t : State} {r : FarPtr} {n : Word} (h : farReturnInter s r n = .ok t) :
    ∃ st d sd, t = commitReturn s r st d sd n := by
  obtain ⟨d, -, h⟩ := bind_ok.1 h
  obtain ⟨st, -, h⟩ := bind_ok.1 h
  obtain ⟨sd, -, h⟩ := bind_ok.1 h
  obtain ⟨-, h⟩ := stopIf_bind_ok.1 h
  obtain ⟨-, h⟩ := stopIf_bind_ok.1 h
  obtain ⟨_, -, rfl⟩ := bind_return_ok.1 h
  exact ⟨st, d, sd, rfl⟩

/-- Settles O45: only a return to a less privileged level changes the CPL, and its last step clears the registers. -/
theorem outwardReturnHidesSegments : Obligations.OutwardReturnHidesSegments := by
  intro s t i n hform hexec hlevel r hr
  rw [exec_releases hform] at hexec
  obtain ⟨p, -, h⟩ := bind_ok.1 (finish_next.1 hexec)
  obtain ⟨-, h⟩ := stopIf_bind_ok.1 h
  split at h
  · rw [farReturnSame_cpl h] at hlevel
    exact absurd hlevel (BitVec.lt_irrefl _)
  · obtain ⟨st, d, sd, rfl⟩ := farReturnInter_commits h
    exact clearDataSegs_dataVisible _ hr

end Sys2Proof.Machine
end

section
/-! The privileged instructions (R250 to R258, R263): `Halted` and HLT, the level check that comes before any operand,
and the loads of GDTR and IDTR, of LDTR and of TR (PRESUMED, log entry 4). -/

namespace Sys2Proof.Machine

/-! ### The level check (R251) -/

/-- Outside level 0 `PrivCheck` raises GP(0). -/
theorem privCheck_outside {s : State} (hcpl : s.cpl ≠ 0) : privCheck s = .error (raise s .gp .zero) := if_pos hcpl

/-- At level 0 `PrivCheck` passes. -/
theorem privCheck_zero {s : State} (hcpl : s.cpl = 0) : privCheck s = .ok () := if_neg (not_not.2 hcpl)

/-- At CPL 0, under the parameter that follows decision D20, a privileged instruction is refused before its effect. -/
theorem privileged_refused {s : State} (hcpl : s.cpl = 0) (hparam : s.params.privilegedAtZero = .refused)
    (effect : Res State) : privileged s effect = .error (.refused .privilegedEffect) := by
  rw [privileged, privCheck_zero hcpl]
  exact stopIf_bind_stop.2 (.inl hparam)

/-- Every privileged instruction but HLT is an effect behind the level check and the parameter (R251, log entry 4). -/
theorem exec_privileged {i : Instr} (hi : isPrivileged i = true) (hne : i ≠ .hlt) (s : State) :
    ∃ effect, exec i s = finish (privileged s effect) := by
  cases i with
  | hlt => exact absurd rfl hne
  | clts | lgdt _ | lidt _ | lldt _ | lmsw _ | ltr _ | movFromCr _ _ | movToCr _ _ | movFromDr _ _ | movToDr _ _
  | movFromTr _ _ | movToTr _ _ => exact ⟨_, rfl⟩
  | _ => cases hi

/-- Every privileged instruction, HLT too, begins with the level check. -/
theorem exec_privCheck {i : Instr} (hi : isPrivileged i = true) (s : State) :
    ∃ f : Unit → Res State, exec i s = finish (privCheck s >>= f) := by
  by_cases hne : i = .hlt
  · subst hne; exact ⟨_, rfl⟩
  · obtain ⟨effect, h⟩ := exec_privileged hi hne s
    exact ⟨_, h⟩

/-- Settles O46: the level check is the first thing a privileged instruction does, and the parameter comes next. -/
theorem privilegedNeedLevelZero : Obligations.PrivilegedNeedLevelZero := by
  intro s i hi
  refine ⟨fun hcpl => ?outside, fun hcpl hparam hne => ?refused⟩
  case outside =>
    obtain ⟨f, hexec⟩ := exec_privCheck hi s
    rw [hexec, bind_stop (privCheck_outside hcpl)]
    rfl
  case refused =>
    obtain ⟨effect, hexec⟩ := exec_privileged hi hne s
    rw [hexec, privileged_refused hcpl hparam]
    rfl

/-! ### Halting (R253) -/

/-- Settles O47: at CPL 0 the level check passes, and the Halted mark is all that HLT sets. -/
theorem hltHalts : Obligations.HltHalts := by
  intro s hcpl
  simp only [exec, execHlt, privCheck_zero hcpl]
  rfl

/-- Settles O6: the Halted mark is the first thing a step asks. -/
theorem haltedStays : Obligations.HaltedStays := fun _ hhalted => if_pos hhalted

/-! ### GDTR and IDTR (R254, R255) -/

/-- At CPL 0, where privileged instructions have their effect, one that takes an `m16&32` operand goes on with its
value. -/
theorem privileged_readTableOperand {s : State} (hcpl : s.cpl = 0) (heff : s.params.privilegedAtZero = .effect)
    {m : Mem} (hread : canReadTable s m = true) (f : TableReg → Res State) :
    privileged s (readTableOperand s m >>= f) = f (tableValue s m) := by
  rw [privileged_effect hcpl heff, readTableOperand_ok.2 ⟨hread, rfl⟩]; rfl

/-- Settles O49: both loads take the operand's value, each into its own register. -/
theorem tableRegisterLoads : Obligations.TableRegisterLoads := fun _ _ hcpl heff hread =>
  ⟨congrArg finish (privileged_readTableOperand hcpl heff hread _),
    congrArg finish (privileged_readTableOperand hcpl heff hread _)⟩

/-! ### The checks common to LLDT and LTR (log entry 4) -/

/-- LLDT takes TYPE 2 alone (R31, R256). -/
theorem isLdt_sysType {t : BitVec 4} : (sysType t).isLdt = true ↔ t = 0x2 := by revert t; decide

/-- LTR takes TYPE 1 and TYPE 9 alone (R31, R258). -/
theorem isAvailableTss_sysType {t : BitVec 4} : (sysType t).isAvailableTss = true ↔ t ∈ [(0x1 : BitVec 4), 0x9] := by
  revert t; decide

section SystemSegChecks
variable {s : State} {sel : Half} {accepts : SysType → Bool}

/-- The checks raise GP(selector) for the LDT, outside the GDT, and on a descriptor that the instruction does not
take. -/
theorem systemSegChecks_gp
    (h : selTi sel = true ∨ inTable s sel = false ∨ (descOf s sel).attr.s = true ∨
      ¬ accepts (sysType (descOf s sel).attr.typ) = true) :
    systemSegChecks s sel accepts = .error (raise s .gp (.selector sel)) := by
  simp only [systemSegChecks, stopIf_bind_stop, readDescriptor_bind_stop]
  exact h.imp_right (.imp_right fun hd => .inl (hd.imp_right Bool.eq_false_iff.2))

/-- Where those pass, P decides. -/
theorem systemSegChecks_presence (hti : selTi sel = false) (htable : inTable s sel = true)
    (hs : (descOf s sel).attr.s = false) (htype : accepts (sysType (descOf s sel).attr.typ) = true) :
    systemSegChecks s sel accepts =
      if (descOf s sel).attr.p = false then .error (raise s .np (.selector sel)) else .ok (descOf s sel) := by
  have htaken : ¬ ((descOf s sel).attr.s = true ∨ accepts (descOf s sel).sysType = false) :=
    not_or.2 ⟨ne_true_of_eq_false hs, ne_false_of_eq_true htype⟩
  rw [systemSegChecks, stopIf_bind_pass (ne_true_of_eq_false hti), readDescriptor_bind_pass htable,
    stopIf_bind_pass htaken, stopIf_bind]

end SystemSegChecks

/-! ### LDTR (R256) -/

section Lldt
variable {s : State} {rm : RM}

/-- LLDT with an operand that can be read is the load of LDTR with its value. -/
theorem exec_lldt (hcpl : s.cpl = 0) (heff : s.params.privilegedAtZero = .effect) (hread : canReadRM16 s rm = true) :
    exec (.lldt rm) s = finish (loadLdtr s (valueRM16 s rm) >>= fun t => .ok (advance (.lldt rm) t)) :=
  congrArg finish (privileged_readRM16 hcpl heff hread _)

/-- A non-null selector goes through the checks, and its descriptor into LDTR. -/
theorem loadLdtr_of_not_null {sel : Half} (hn : isNull sel = false) :
    loadLdtr s sel = systemSegChecks s sel SysType.isLdt >>= fun d =>
      .ok { s with ldtr := { sel := sel, base := d.base, limit := d.effLimit, valid := true } } :=
  if_neg (ne_true_of_eq_false hn)

end Lldt

/-- Settles O50: LLDT ends as the checks on its selector do, a null selector aside. -/
theorem lldtLoads : Obligations.LldtLoads := by
  rintro s rm sel hcpl heff hread rfl
  rw [exec_lldt hcpl heff hread]
  refine ⟨fun hn => ?null, fun hn => ?_⟩
  case null => rw [loadLdtr, if_pos hn]; rfl
  rw [loadLdtr_of_not_null hn]
  refine ⟨fun hbad => ?gp, fun hti htable hs htype => ?_⟩
  case gp =>
    rw [systemSegChecks_gp (hbad.imp_right (.imp_right (.imp_right (mt isLdt_sysType.1))))]
    rfl
  rw [systemSegChecks_presence hti htable hs (isLdt_sysType.2 htype)]
  refine ⟨fun hp => ?np, fun hp => ?loaded⟩
  case np => rw [if_pos hp]; rfl
  case loaded => rw [if_neg (ne_false_of_eq_true hp)]; rfl

/-! ### TR (R258) -/

/-- The state after an LTR that completes: TR holds the TSS, whose access byte in memory has the busy bit set. -/
def taskLoaded (s : State) (sel : Half) : State :=
  { linWrite8 s (accessAddr s sel) ((descOf s sel).accessByte ||| 2) with
    tr :=
      { sel := sel, base := (descOf s sel).base, limit := (descOf s sel).effLimit
        typ := busyType (descOf s sel).attr.typ } }

section Ltr
variable {s : State} {rm : RM} {sel : Half}

/-- LTR with an operand that can be read is the load of TR with its value. -/
theorem exec_ltr (hcpl : s.cpl = 0) (heff : s.params.privilegedAtZero = .effect) (hread : canReadRM16 s rm = true) :
    exec (.ltr rm) s = finish (loadTr s (valueRM16 s rm) >>= fun t => .ok (advance (.ltr rm) t)) :=
  congrArg finish (privileged_readRM16 hcpl heff hread _)

/-- The load raises GP(selector) for a null selector and where the checks do. -/
theorem loadTr_gp
    (h : isNull sel = true ∨ selTi sel = true ∨ inTable s sel = false ∨ (descOf s sel).attr.s = true ∨
      (descOf s sel).attr.typ ∉ [(0x1 : BitVec 4), 0x9]) :
    loadTr s sel = .error (raise s .gp (.selector sel)) := by
  rw [loadTr, stopIf_bind_stop]
  refine h.imp_right fun hbad => bind_stop (systemSegChecks_gp ?_) _
  exact hbad.imp_right (.imp_right (.imp_right (mt isAvailableTss_sysType.1)))

/-- Where those pass, P decides. -/
theorem loadTr_presence (hn : isNull sel = false) (hti : selTi sel = false) (htable : inTable s sel = true)
    (hs : (descOf s sel).attr.s = false) (htype : (descOf s sel).attr.typ ∈ [(0x1 : BitVec 4), 0x9]) :
    loadTr s sel =
      if (descOf s sel).attr.p = false then .error (raise s .np (.selector sel)) else .ok (taskLoaded s sel) := by
  rw [loadTr, stopIf_bind_pass (ne_true_of_eq_false hn),
    systemSegChecks_presence hti htable hs (isAvailableTss_sysType.2 htype)]
  split <;> rfl

/-- The access byte after the load. -/
theorem linRead8_taskLoaded (hmem : s.mem.wf = true) (sel : Half) :
    linRead8 (taskLoaded s sel) (accessAddr s sel) = (descOf s sel).accessByte ||| 2 :=
  (linRead8_linWrite8 hmem _ _ _).trans (if_pos rfl)

/-- The load leaves every byte but the access byte. -/
theorem taskLoaded_sameMemOutside (hmem : s.mem.wf = true) (sel : Half) :
    SameMemOutside s (taskLoaded s sel) (accessAddr s sel) 1 :=
  linWriteBytes_sameMemOutside hmem (accessAddr s sel) [(descOf s sel).accessByte ||| 2]

end Ltr

/-- Settles O51: LTR ends as the checks on its selector do, and stores one byte where they pass. -/
theorem ltrLoads : Obligations.LtrLoads := by
  rintro s rm sel hcpl heff hread rfl
  rw [exec_ltr hcpl heff hread]
  refine ⟨fun hbad => ?gp, fun hn hti htable hs htype => ?_⟩
  case gp => rw [loadTr_gp hbad]; rfl
  rw [loadTr_presence hn hti htable hs htype]
  refine ⟨fun hp => ?np, fun hmem hp => ?loaded⟩
  case np => rw [if_pos hp]; rfl
  case loaded =>
    rw [if_neg (ne_false_of_eq_true hp)]
    exact ⟨advance (.ltr rm) (taskLoaded s (valueRM16 s rm)), rfl, linRead8_taskLoaded hmem _,
      taskLoaded_sameMemOutside hmem _, rfl⟩

end Sys2Proof.Machine
end

section
/-! Pointer validation (R271 to R279): what a probe of a selector finds and at which levels it is visible, what LAR,
LSL, VERR and VERW make of it, and the RPL that ARPL leaves in its destination. -/

namespace Sys2Proof.Machine

/-! ### ZF (R26) -/

@[simp] theorem zf_advance (i : Instr) (s : State) : zf (advance i s) = zf s := rfl

/-- An instruction that writes no flag but ZF keeps the others. -/
theorem flagsKept_setZf {s t : State} (h : t.eflags = s.eflags) (i : Instr) (z : Bool) :
    FlagsKept s (advance i (setZf t z)) :=
  fun _ hk => (setZf_other t z hk).trans (by rw [h])

/-! ### Probing a selector (R276, R278) -/

/-- A probe finds the descriptor of a non-null selector within its table, and nothing else (R278, D31). -/
theorem probe_eq_some {s : State} {sel : Half} {d : Descriptor} :
    probe s sel = some d ↔ isNull sel = false ∧ inTable s sel = true ∧ d = descOf s sel := by
  unfold probe
  cases isNull sel <;> simp [readDescriptor_some]

/-- A check of what a probe finds fails where it finds nothing. -/
theorem probe_any {s : State} {sel : Half} {p : Descriptor → Bool} :
    (probe s sel).any p = true ↔ isNull sel = false ∧ inTable s sel = true ∧ p (descOf s sel) = true := by
  simp only [Option.any_eq_true, probe_eq_some]
  constructor
  · rintro ⟨_, ⟨hn, ht, rfl⟩, hp⟩; exact ⟨hn, ht, hp⟩
  · rintro ⟨hn, ht, hp⟩; exact ⟨_, ⟨hn, ht, rfl⟩, hp⟩

/-- A probe of a null selector or one outside its table finds nothing. -/
theorem probe_eq_none {s : State} {sel : Half} (h : isNull sel = true ∨ inTable s sel = false) :
    probe s sel = none := by
  rw [Option.eq_none_iff_forall_ne_some]
  intro d hd
  obtain ⟨hn, ht, -⟩ := probe_eq_some.1 hd
  exact h.elim (ne_true_of_eq_false hn) (ne_false_of_eq_true ht)

/-- A descriptor is visible where it is conforming code or at most as privileged as the CPL and the RPL (R276). -/
theorem visible_iff {cpl : Level} {sel : Half} {a : SegAttr} :
    visible cpl sel a = true ↔ a.conforming = true ∨ cpl ≤ a.dpl ∧ selRpl sel ≤ a.dpl := by
  rw [visible, Bool.or_eq_true, decide_eq_true_eq, maxLevel_le]

/-- The level rule of VERR and VERW (R273, R274). -/
theorem levelOk_iff {cpl : Level} {sel : Half} {a : SegAttr} :
    levelOk cpl sel a = true ↔ cpl ≤ a.dpl ∧ selRpl sel ≤ a.dpl := by
  rw [levelOk, Bool.and_eq_true, decide_eq_true_eq, decide_eq_true_eq]

/-- A segment that is no conforming code and more privileged than the CPL or the RPL is not visible. -/
theorem visible_eq_false {cpl : Level} {sel : Half} {a : SegAttr} (hconf : a.conforming = false)
    (hlevel : a.dpl < cpl ∨ a.dpl < selRpl sel) : visible cpl sel a = false := by
  rw [visible, hconf, Bool.false_or, decide_eq_false_iff_not, BitVec.not_le]
  exact lt_maxLevel.2 hlevel

/-! ### The types of Table 6-1 that LAR and LSL tell apart (R271, R279) -/

/-- The reserved types are 0, 8, A and D (R31). -/
theorem sysType_reserved {t : BitVec 4} : sysType t = .reserved ↔ t ∈ [(0x0 : BitVec 4), 0x8, 0xA, 0xD] := by
  revert t; decide

/-- The interrupt and trap gates are types 6, 7, E and F (R31). -/
theorem interruptOrTrap_sysType {t : BitVec 4} :
    (sysType t).interruptOrTrap = true ↔ t ∈ [(0x6 : BitVec 4), 0x7, 0xE, 0xF] := by
  revert t; decide

/-- LSL takes the types of the LDT and of the TSSs (R279, Table 6-4). -/
theorem validForLsl_sysType {t : BitVec 4} :
    (sysType t).validForLsl = true ↔ t ∈ [(0x1 : BitVec 4), 0x2, 0x3, 0x9, 0xB] := by
  revert t; decide

/-- The types that are neither reserved nor interrupt or trap gates. -/
theorem sysType_lar {t : BitVec 4} (h : t ∈ [(0x1 : BitVec 4), 0x2, 0x3, 0x4, 0x5, 0x9, 0xB, 0xC]) :
    sysType t ≠ .reserved ∧ (sysType t).interruptOrTrap = false := by
  revert t; decide

/-- LAR takes every code or data segment and every system type that is not reserved (R271 (a)). -/
theorem larValid_eq_false {d : Descriptor} :
    larValid d = false ↔ d.attr.s = false ∧ d.attr.typ ∈ [(0x0 : BitVec 4), 0x8, 0xA, 0xD] := by
  rw [larValid, Bool.or_eq_false_iff, bne_eq_false_iff_eq, Descriptor.sysType, sysType_reserved]

/-- LSL takes every code or data segment and the types of Table 6-4 (R272). -/
theorem lslValid_iff {d : Descriptor} :
    lslValid d = true ↔ d.attr.s = true ∨ d.attr.typ ∈ [(0x1 : BitVec 4), 0x2, 0x3, 0x9, 0xB] := by
  rw [lslValid, Bool.or_eq_true, Descriptor.sysType, validForLsl_sysType]

/-! ### LAR (R271) -/

/-- Outside the four free bits LAR's value is dword 1 masked with 00F0FF00H (U1). -/
theorem accessRights_defined (d : Descriptor) (x : BitVec 4) :
    accessRights d x &&& 0xFFF0FFFF = d.dword1 &&& 0x00F0FF00 := by
  have hfree : (x.setWidth 32 <<< 16) &&& 0xFFF0FFFF = 0#32 := by revert x; decide
  rw [accessRights, BitVec.and_or_distrib_right, hfree, BitVec.or_zero, BitVec.and_assoc]
  rfl

section Lar
variable {s : State} {dst : Reg} {rm : RM} {sel : Half}

/-- LAR with an operand that can be read goes on with its value. -/
theorem exec_lar (hread : canReadRM16 s rm = true) :
    exec (.lar dst rm) s =
      finish (loadAccessRights s dst (valueRM16 s rm) >>= fun t => .ok (advance (.lar dst rm) t)) := by
  simp only [exec, execLar, readRM16_ok.2 ⟨hread, rfl⟩]; rfl

/-- On a descriptor that a probe finds, the type decides and then the level (R271). -/
theorem loadAccessRights_found (hn : isNull sel = false) (ht : inTable s sel = true) :
    loadAccessRights s dst sel =
      if larValid (descOf s sel) = false then .ok (setZf s false)
      else if (descOf s sel).attr.s = false ∧ (descOf s sel).sysType.interruptOrTrap = true then
        .error (.refused .larInterruptGate)
      else if visible s.cpl sel (descOf s sel).attr then
        .ok (setZf (countDraw (setReg s dst (accessRights (descOf s sel) (Config.drawNibble s.draws)))) true)
      else .ok (setZf s false) := by
  simp only [loadAccessRights, probe_eq_some.2 ⟨hn, ht, rfl⟩, stopIf_bind]

/-- A selector that a probe does not find clears ZF. -/
theorem loadAccessRights_notFound (h : isNull sel = true ∨ inTable s sel = false) :
    loadAccessRights s dst sel = .ok (setZf s false) := by
  rw [loadAccessRights, probe_eq_none h]

/-- LAR clears ZF where its probe finds nothing, a reserved type, or what is no gate it refuses and not visible. -/
theorem loadAccessRights_rejects
    (h : isNull sel = true ∨ inTable s sel = false ∨
      (descOf s sel).attr.s = false ∧ (descOf s sel).attr.typ ∈ [(0x0 : BitVec 4), 0x8, 0xA, 0xD] ∨
      ((descOf s sel).attr.s = true ∨ (descOf s sel).attr.typ ∉ [(0x6 : BitVec 4), 0x7, 0xE, 0xF]) ∧
        (descOf s sel).attr.conforming = false ∧
        ((descOf s sel).attr.dpl < s.cpl ∨ (descOf s sel).attr.dpl < selRpl sel)) :
    loadAccessRights s dst sel = .ok (setZf s false) := by
  by_cases hfound : isNull sel = false ∧ inTable s sel = true
  case neg => exact loadAccessRights_notFound (by simpa [or_iff_not_imp_left] using hfound)
  obtain ⟨hn, ht⟩ := hfound
  rw [loadAccessRights_found hn ht]
  obtain hnull | hout | hreserved | ⟨htype, hconf, hlevel⟩ := h
  · exact absurd hnull (ne_true_of_eq_false hn)
  · exact absurd ht (ne_true_of_eq_false hout)
  · rw [if_pos (larValid_eq_false.2 hreserved)]
  · have hgate : ¬ ((descOf s sel).attr.s = false ∧ (descOf s sel).sysType.interruptOrTrap = true) := by
      rintro ⟨hs, hint⟩
      exact htype.elim (ne_true_of_eq_false hs) fun hne => hne (interruptOrTrap_sysType.1 hint)
    rw [if_neg hgate, visible_eq_false hconf hlevel]
    split <;> rfl

/-- LAR is refused where its probe finds an interrupt or trap gate, visible or not (conflict C12). -/
theorem loadAccessRights_gate (hn : isNull sel = false) (ht : inTable s sel = true)
    (hs : (descOf s sel).attr.s = false) (htype : (descOf s sel).attr.typ ∈ [(0x6 : BitVec 4), 0x7, 0xE, 0xF]) :
    loadAccessRights s dst sel = .error (.refused .larInterruptGate) := by
  have hgate : (sysType (descOf s sel).attr.typ).interruptOrTrap = true := interruptOrTrap_sysType.2 htype
  have hvalid : ¬ larValid (descOf s sel) = false := fun h => by
    rw [sysType_reserved.2 (larValid_eq_false.1 h).2] at hgate
    cases hgate
  rw [loadAccessRights_found hn ht, if_neg hvalid, if_pos ⟨hs, hgate⟩]

/-- LAR loads the access rights where its probe finds a visible descriptor of a type it takes. -/
theorem loadAccessRights_loads (hn : isNull sel = false) (ht : inTable s sel = true)
    (htype : (descOf s sel).attr.s = false →
      (descOf s sel).attr.typ ∈ [(0x1 : BitVec 4), 0x2, 0x3, 0x4, 0x5, 0x9, 0xB, 0xC])
    (hvisible : visible s.cpl sel (descOf s sel).attr = true) :
    loadAccessRights s dst sel =
      .ok (setZf (countDraw (setReg s dst (accessRights (descOf s sel) (Config.drawNibble s.draws)))) true) := by
  have hvalid : ¬ larValid (descOf s sel) = false := fun h =>
    have ⟨hs, hreserved⟩ := larValid_eq_false.1 h
    (sysType_lar (htype hs)).1 (sysType_reserved.2 hreserved)
  have hgate : ¬ ((descOf s sel).attr.s = false ∧ (descOf s sel).sysType.interruptOrTrap = true) := fun ⟨hs, h⟩ =>
    ne_true_of_eq_false (sysType_lar (htype hs)).2 h
  rw [loadAccessRights_found hn ht, if_neg hvalid, if_neg hgate, if_pos hvisible]

end Lar

/-- Settles O54: LAR's checks pass, and what it loads is dword 1 masked outside the free bits. -/
theorem larLoads : Obligations.LarLoads := by
  rintro s dst rm sel hread rfl hn ht htype hvisible
  rw [exec_lar hread, loadAccessRights_loads hn ht htype (visible_iff.2 hvisible)]
  refine ⟨_, rfl, ?value, zf_setZf _ true, flagsKept_setZf rfl _ _, ?frame⟩
  case value => exact (congrArg (· &&& 0xFFF0FFFF) (Regs.get_set_same ..)).trans (accessRights_defined ..)
  case frame => simp only [advance_regs, setZf_regs, countDraw_regs, setReg_regs, Regs.get_set_same]; rfl

/-- Settles O55: nothing found, the type and the level each clear ZF, and a gate is refused before the level. -/
theorem larRejects : Obligations.LarRejects := by
  rintro s dst rm sel hread rfl
  rw [exec_lar hread]
  refine ⟨fun hbad => ?rejects, fun hn ht hs htype => ?refused⟩
  case rejects =>
    rw [loadAccessRights_rejects hbad]
    exact ⟨_, rfl, zf_setZf s false, flagsKept_setZf rfl _ _, rfl⟩
  case refused => rw [loadAccessRights_gate hn ht hs htype]; rfl

/-! ### LSL (R272, R279) -/

/-- LSL's probe, type and level checks pass. -/
def lslTakes (s : State) (sel : Half) : Bool :=
  (probe s sel).any fun d => lslValid d && visible s.cpl sel d.attr

/-- LSL loads the effective limit where its checks pass (R272). -/
theorem loadSegLimit_eq (s : State) (dst : Reg) (sel : Half) :
    loadSegLimit s dst sel =
      setZf { s with regs := if lslTakes s sel then s.regs.set dst (descOf s sel).effLimit else s.regs }
        (lslTakes s sel) := by
  rw [loadSegLimit, lslTakes]
  split
  · next hnone => rw [hnone]; rfl
  · next d hd =>
    obtain ⟨-, -, rfl⟩ := probe_eq_some.1 hd
    rw [hd, Option.any_some]
    cases lslValid (descOf s sel) && visible s.cpl sel (descOf s sel).attr <;> rfl

/-- Settles O56: ZF is the outcome of LSL's checks, and it says whether the limit was loaded. -/
theorem lslResult : Obligations.LslResult := by
  rintro s dst rm sel hread rfl
  have hexec : exec (.lsl dst rm) s = .next (advance (.lsl dst rm) (loadSegLimit s dst (valueRM16 s rm))) := by
    simp only [exec, execLsl, readRM16_ok.2 ⟨hread, rfl⟩]; rfl
  rw [loadSegLimit_eq] at hexec
  refine ⟨_, hexec, flagsKept_setZf rfl _ _, ?zf, ?frame⟩
  case zf => rw [zf_advance, zf_setZf, lslTakes, probe_any, Bool.and_eq_true, lslValid_iff, visible_iff]
  case frame => rw [zf_advance, zf_setZf]; rfl

/-! ### VERR and VERW (R273, R274) -/

/-- VERR's checks pass on a readable segment that is conforming or at most as privileged as the CPL and the RPL. -/
theorem readableAt_iff {s : State} {sel : Half} :
    readableAt s sel = true ↔
      isNull sel = false ∧ inTable s sel = true ∧
        ((descOf s sel).attr.data = true ∨ (descOf s sel).attr.readableCode = true) ∧
        ((descOf s sel).attr.conforming = true ∨
          s.cpl ≤ (descOf s sel).attr.dpl ∧ selRpl sel ≤ (descOf s sel).attr.dpl) := by
  have hprobe : readableAt s sel = (probe s sel).any fun d =>
      (d.attr.data || d.attr.readableCode) && (d.attr.conforming || levelOk s.cpl sel d.attr) := by
    rw [readableAt]; cases probe s sel <;> rfl
  rw [hprobe, probe_any, Bool.and_eq_true, Bool.or_eq_true, Bool.or_eq_true, levelOk_iff]

/-- VERW's checks pass on a writable segment at most as privileged as the CPL and the RPL. -/
theorem writableAt_iff {s : State} {sel : Half} :
    writableAt s sel = true ↔
      isNull sel = false ∧ inTable s sel = true ∧ (descOf s sel).attr.writable = true ∧
        s.cpl ≤ (descOf s sel).attr.dpl ∧ selRpl sel ≤ (descOf s sel).attr.dpl := by
  have hprobe : writableAt s sel = (probe s sel).any fun d => d.attr.writable && levelOk s.cpl sel d.attr := by
    rw [writableAt]; cases probe s sel <;> rfl
  rw [hprobe, probe_any, Bool.and_eq_true, levelOk_iff]

/-- Settles O57: ZF is the outcome of the checks, and nothing else depends on them. -/
theorem verifyResult : Obligations.VerifyResult := by
  rintro s rm sel hread rfl
  refine
    ⟨⟨advance (.verr rm) (setZf s (readableAt s (valueRM16 s rm))), ?verr, flagsKept_setZf rfl _ _, ?readable, rfl⟩,
      advance (.verw rm) (setZf s (writableAt s (valueRM16 s rm))), ?verw, flagsKept_setZf rfl _ _, ?writable, rfl⟩
  case verr => simp only [exec, execVerr, readRM16_ok.2 ⟨hread, rfl⟩]; rfl
  case verw => simp only [exec, execVerw, readRM16_ok.2 ⟨hread, rfl⟩]; rfl
  case readable => rw [zf_advance, zf_setZf, readableAt_iff]
  case writable => rw [zf_advance, zf_setZf, writableAt_iff]

/-! ### ARPL (R275) -/

/-- A selector with its RPL raised to that of another (R275). -/
def raisedSel (v r : Half) : Half := withRpl v (maxLevel (selRpl v) (selRpl r))

/-- Replacing the RPL field by itself changes nothing. -/
theorem withRpl_selRpl (v : Half) : withRpl v (selRpl v) = v :=
  (BitVec.extractLsb'_append_extractLsb'_eq_extractLsb' rfl).trans BitVec.extractLsb'_eq_self

/-- A selector with the lower RPL takes the other's. -/
theorem raisedSel_of_lt {v r : Half} (h : selRpl v < selRpl r) : raisedSel v r = withRpl v (selRpl r) :=
  congrArg (withRpl v) (if_pos (BitVec.le_of_lt h))

/-- A selector whose RPL is no lower stays. -/
theorem raisedSel_of_not_lt {v r : Half} (h : ¬ selRpl v < selRpl r) : raisedSel v r = v := by
  have hmax : maxLevel (selRpl v) (selRpl r) = selRpl v := by
    rw [maxLevel]
    split
    · next hle => exact BitVec.le_antisymm (BitVec.not_lt.1 h) hle
    · rfl
  rw [raisedSel, hmax, withRpl_selRpl]

/-- The RPL field has no part in whether a selector is null (R21, R22). -/
theorem isNull_withRpl (sel : Half) (p : Level) : isNull (withRpl sel p) = isNull sel := by
  have hti : selTi (withRpl sel p) = selTi sel := by
    rw [selTi, withRpl, BitVec.getLsbD_append]
    simp [selTi]
  have hindex : selIndex (withRpl sel p) = selIndex sel := by
    rw [selIndex, withRpl, BitVec.extractLsb'_append_eq_of_le (by decide)]
    ext k hk
    have hbit : 2 + (1 + k) = 3 + k := by omega
    have hin : 1 + k < 14 := by omega
    simp [selIndex, hbit, hin]
  rw [isNull, isNull, hti, hindex]

/-- Replacing the RPL field of a register's low half replaces the two low bits of the register. -/
theorem append_withRpl (v : Word) (p : Level) :
    v.extractLsb' 16 16 ++ withRpl (v.extractLsb' 0 16) p = v.extractLsb' 2 30 ++ p := by
  ext k hk
  simp only [withRpl, BitVec.getElem_append, BitVec.getElem_extractLsb', BitVec.getLsbD_extractLsb']
  grind

/-- Writing the low half of a register as it is changes nothing (R27). -/
theorem writeReg16_readReg16 (s : State) (r : Reg) : writeReg16 s r (readReg16 s r) = s := by
  have hwhole : (s.regs.get r).extractLsb' 16 16 ++ (s.regs.get r).extractLsb' 0 16 = s.regs.get r :=
    (BitVec.extractLsb'_append_extractLsb'_eq_extractLsb' rfl).trans BitVec.extractLsb'_eq_self
  have hset : s.regs.set r (s.regs.get r) = s.regs := by cases r <;> rfl
  rw [writeReg16, readReg16, hwhole, setReg, hset]

/-- The state after ARPL's write, where it makes one. -/
def arplWritten (s : State) (rm : RM) (v r : Half) : State :=
  if selRpl v < selRpl r then writeRM16 s rm (raisedSel v r) else s

/-- ARPL is its write, and then ZF says whether it made one (R275). -/
theorem adjustRpl_eq (s : State) (rm : RM) (v r : Half) :
    adjustRpl s rm v r = setZf (arplWritten s rm v r) (decide (selRpl v < selRpl r)) := by
  rw [adjustRpl, arplWritten]
  split
  · next h => rw [raisedSel_of_lt h, decide_eq_true h]
  · next h => rw [decide_eq_false h]

/-- A register destination holds the raised selector below its upper half, which stays. -/
theorem arplWritten_reg (s : State) (dst : Reg) (r : Half) :
    arplWritten s (.reg dst) (valueRM16 s (.reg dst)) r =
      setReg s dst
        ((s.regs.get dst).extractLsb' 2 30 ++ maxLevel (selRpl (valueRM16 s (.reg dst))) (selRpl r)) := by
  rw [← append_withRpl, arplWritten]
  show _ = writeReg16 s dst (raisedSel (readReg16 s dst) r)
  split
  · rfl
  · next h =>
    have hkept : raisedSel (readReg16 s dst) r = readReg16 s dst := raisedSel_of_not_lt h
    rw [hkept, writeReg16_readReg16]

section Memory
variable {s : State} {m : Mem}

/-- A write to a memory destination changes memory and the stored set alone. -/
theorem arplWritten_mem_frame (v r : Half) :
    arplWritten s (.mem m) v r =
      { s with mem := (arplWritten s (.mem m) v r).mem, stored := (arplWritten s (.mem m) v r).stored } := by
  rw [arplWritten]
  split
  · exact linWriteBytes_frame s _ _
  · rfl

/-- A memory destination holds the raised selector, and every other byte is as before. -/
theorem arplWritten_mem (hmem : s.mem.wf = true) (r : Half) :
    linRead16 (arplWritten s (.mem m) (valueRM16 s (.mem m)) r) ((s.segs.get (memSeg m)).base + memOff s m) =
        raisedSel (valueRM16 s (.mem m)) r ∧
      SameMemOutside s (arplWritten s (.mem m) (valueRM16 s (.mem m)) r)
        ((s.segs.get (memSeg m)).base + memOff s m) 2 := by
  rw [arplWritten]
  split
  · exact ((storesAreLittleEndian s _ hmem).2 _).2
  · next h =>
    rw [raisedSel_of_not_lt h]
    exact ⟨rfl, fun _ _ => rfl⟩

/-- A segment that can be written at an offset can be read there (R68, R69). -/
theorem canAccess_read_of_write {r : SReg} {off : Word} {n : Nat} (h : canAccess s r off n .write = true) :
    canAccess s r off n .read = true := by
  rw [canAccess, Bool.and_eq_true, accessTypeOk_write] at h
  obtain ⟨⟨hvalid, hw⟩, hin⟩ := h
  have hdata : (s.segs.get r).attr.executable = false := SegAttr.executable_of_data (Bool.and_eq_true_iff.1 hw).1
  rw [canAccess, Bool.and_eq_true, accessTypeOk_read]
  exact ⟨⟨hvalid, fun hx => absurd hx (ne_true_of_eq_false hdata)⟩, hin⟩

end Memory

/-- ARPL on a destination that can be written completes. -/
theorem exec_arpl {s : State} {rm : RM} {src : Reg} (h : ∀ x ∈ arplAccesses s rm, permitted s x = true) :
    exec (.arpl rm src) s =
      .next (advance (.arpl rm src)
        (setZf (arplWritten s rm (valueRM16 s rm) (readReg16 s src))
          (decide (selRpl (valueRM16 s rm) < selRpl (readReg16 s src))))) := by
  rw [exec, execArpl, arplOperand_eq, checkAccesses_permitted h, ← adjustRpl_eq]
  rfl

/-- Settles O58: the checks of the destination come first, and the write and ZF after them. -/
theorem arplAdjusts : Obligations.ArplAdjusts := by
  refine fun s src => ⟨fun dst => ?register, fun m => ⟨fun hwrite => ?stops, fun hmem hwrite => ?memory⟩⟩
  case register =>
    have hexec := exec_arpl (s := s) (rm := .reg dst) (src := src) (by simp [arplAccesses])
    rw [arplWritten_reg] at hexec
    refine ⟨_, hexec, flagsKept_setZf rfl _ _, ?_, rfl⟩
    rw [zf_advance, zf_setZf, decide_eq_true_eq]; rfl
  case stops =>
    exact accessChecks.2 s (.arpl (.mem m) src) [] _ _ rfl (by simp) hwrite (by simp [isPrivileged])
  case memory =>
    have hexec := exec_arpl (s := s) (rm := .mem m) (src := src)
      (by simp [arplAccesses, permitted, hwrite, canAccess_read_of_write hwrite])
    obtain ⟨hvalue, hout⟩ := arplWritten_mem (m := m) hmem (readReg16 s src)
    have hframe := arplWritten_mem_frame (s := s) (m := m) (valueRM16 s (.mem m)) (readReg16 s src)
    refine ⟨_, hexec, flagsKept_setZf (congrArg State.eflags hframe) _ _, ?_, hvalue, hout, ?frame⟩
    case frame => rw [hframe]; rfl
    rw [zf_advance, zf_setZf, decide_eq_true_eq]; rfl

/-! ### The RPL protocol (R277) -/

/-- Settles O59: the register's selector still names the same descriptor, and its raised RPL fails the level check of
the load. -/
theorem rplProtocolProtects : Obligations.RplProtocolProtects := by
  rintro s t g src r sel hr hexec rfl hn - - hconf hlevel
  obtain ⟨t', hexec', -, -, hframe⟩ := (arplAdjusts s src).1 g
  obtain rfl : t = t' := Host.Outcome.next.inj (hexec.symm.trans hexec')
  have hsel : valueRM16 t (.reg g) = raisedSel (valueRM16 s (.reg g)) (readReg16 s src) := by
    rw [hframe, ← append_withRpl]
    exact writeReg16_lower s g _
  have hdesc : descOf t (valueRM16 t (.reg g)) = descOf s (valueRM16 s (.reg g)) := by
    rw [hsel, hframe]
    exact congrArg (descriptorAt s) (descriptorAddr_withRpl s _ _)
  have hnull : isNull (valueRM16 t (.reg g)) = false := by
    rw [hsel]
    exact (isNull_withRpl _ _).trans hn
  have hrpl : (descOf t (valueRM16 t (.reg g))).attr.dpl < selRpl (valueRM16 t (.reg g)) := by
    rw [hdesc, hsel, raisedSel, selRpl_withRpl]
    exact lt_maxLevel.2 (.inr hlevel)
  have hload : loadsSreg t (.movSreg r (.reg g)) r (valueRM16 t (.reg g)) := .inl ⟨_, rfl, rfl, rfl⟩
  exact ⟨_, (dataLoadPrivilege t _ r _ hr hload hnull).1 (.inr (.inr (.inr ⟨hdesc ▸ hconf, .inr hrpl⟩)))⟩

end Sys2Proof.Machine
end

section
/-! The CPL (R313): which operations keep it, that a far CALL can only lower it and a far RET only raise it, and that
no other instruction changes it. -/

namespace Sys2Proof.Machine

/-! ### Updates of the state -/

@[simp] theorem linWriteBytes_cpl (s : State) (a : Word) (l : List Byte) : (linWriteBytes s a l).cpl = s.cpl := by
  rw [linWriteBytes_frame]

@[simp] theorem setAccessed_cpl (s : State) (sel : Half) (d : Descriptor) : (setAccessed s sel d).cpl = s.cpl := by
  rw [setAccessed_frame]

@[simp] theorem writeRM16_cpl (s : State) (rm : RM) (v : Half) : (writeRM16 s rm v).cpl = s.cpl := by
  cases rm with
  | reg r => rfl
  | mem m => exact linWriteBytes_cpl s _ _

@[simp] theorem adjustRpl_cpl (s : State) (rm : RM) (v r : Half) : (adjustRpl s rm v r).cpl = s.cpl := by
  unfold adjustRpl; split <;> simp

@[simp] theorem loadSegLimit_cpl (s : State) (dst : Reg) (sel : Half) : (loadSegLimit s dst sel).cpl = s.cpl := by
  rw [loadSegLimit_eq]; rfl

/-- A stack switch leaves the DPL of its target in the CPL (R197). -/
@[simp] theorem commitSwitch_cpl (s : State) (ns : StackPtr) (g : GateTarget) (params : List Word) (ret off : Word) :
    (commitSwitch s ns g params ret off).cpl = g.desc.attr.dpl := by
  simp [commitSwitch]

/-- An outward return leaves the popped RPL in the CPL (R226). -/
@[simp] theorem commitReturn_cpl (s : State) (r st : FarPtr) (d sd : Descriptor) (n : Word) :
    (commitReturn s r st d sd n).cpl = selRpl r.sel :=
  setAccessed_cpl (setEip (loadCs s r.sel d (selRpl r.sel)) r.off) st.sel sd

/-! ### Operations that keep the CPL -/

/-- A load of a segment register changes that register and at most the accessed bit in memory (R122 to R124). -/
theorem loadSreg_keeps_cpl (s : State) (r : SReg) (sel : Half) : Keeps State.cpl s (loadSreg s r sel) := by
  intro t h
  obtain ⟨-, ⟨-, rfl⟩ | ⟨-, rfl⟩⟩ := loadSreg_ok h <;> simp

theorem popSreg_keeps_cpl (s : State) (r : SReg) (i : Instr) : Keeps State.cpl s (popSreg s r i) :=
  .bind fun _ _ => (loadSreg_keeps_cpl s r _).andThen fun _ => rfl

theorem loadFarPtr_keeps_cpl (s : State) (r : SReg) (dst : Reg) (m : Mem) (i : Instr) :
    Keeps State.cpl s (loadFarPtr s r dst m i) :=
  .bind fun _ _ => (loadSreg_keeps_cpl s r _).andThen fun _ => rfl

theorem nearJump_keeps_cpl (s : State) (t : Word) : Keeps State.cpl s (nearJump s t) :=
  .bind fun _ _ => .ok rfl

/-- A near CALL pushes and sets EIP (R162). -/
theorem nearCall_keeps_cpl (s : State) (t ret : Word) : Keeps State.cpl s (nearCall s t ret) :=
  .bind fun _ _ => .bind fun _ _ => .andThen (.bind fun _ _ => .ok (storePush_cpl s ret)) fun _ => rfl

theorem nearReturn_keeps_cpl (s : State) (n : Word) : Keeps State.cpl s (nearReturn s n) :=
  .bind fun _ _ => .bind fun _ _ => .ok rfl

/-- LAR writes ZF and at most its destination, drawing a free value for it (R271). -/
theorem loadAccessRights_keeps_cpl (s : State) (dst : Reg) (sel : Half) :
    Keeps State.cpl s (loadAccessRights s dst sel) := by
  unfold loadAccessRights
  split
  · exact .ok rfl
  · split
    · exact .ok rfl
    · refine .bind fun _ _ => ?_
      split <;> exact .ok rfl

theorem loadLdtr_keeps_cpl (s : State) (sel : Half) : Keeps State.cpl s (loadLdtr s sel) := by
  unfold loadLdtr
  split
  · exact .ok rfl
  · exact .bind fun _ _ => .ok rfl

theorem loadTr_keeps_cpl (s : State) (sel : Half) : Keeps State.cpl s (loadTr s sel) :=
  .bind fun _ _ => .bind fun _ _ => .ok rfl

theorem movFromSys_keeps_cpl (s : State) (v : Option Word) (n : BitVec 3) (dst : Reg) (i : Instr) :
    Keeps State.cpl s (movFromSys s v n dst i) :=
  .privileged (.bind fun _ _ => .ok rfl)

theorem movToSys_keeps_cpl (s : State) (g : Option SysRegs) (n : BitVec 3) (i : Instr) :
    Keeps State.cpl s (movToSys s g n i) :=
  .privileged (.bind fun _ _ => .bind fun _ _ => .bind fun _ _ => .ok rfl)

/-- A direct transfer stays at the CPL (R164, R166). -/
theorem farDirect_keeps_cpl (s : State) (k : FarKind) (sel : Half) (off ret : Word) (d : Descriptor) :
    Keeps State.cpl s (farDirect s k sel off ret d) := by
  cases k with
  | jmp => exact .bind fun _ _ => .bind fun _ _ => .ok rfl
  | call => exact .bind fun _ _ => .bind fun _ _ => .bind fun _ _ => .ok (storeReturn_cpl s ret)

/-! ### Far transfers and far returns -/

/-- A transfer of this kind from `s` to `t` keeps the CPL, or is a CALL that makes it smaller (R168, R196). -/
def KeepsOrLowersCpl (k : FarKind) (s t : State) : Prop := t.cpl = s.cpl ∨ k = .call ∧ t.cpl < s.cpl

section FarLevels
variable {s t : State} {k : FarKind} {sel : Half} {ret n : Word}

/-- Through a gate only an interlevel CALL changes the CPL, and its target is more privileged (R194 to R197). -/
theorem farGate_cpl {g : Descriptor} (h : farGate s k sel ret g = .ok t) : KeepsOrLowersCpl k s t := by
  cases k with
  | jmp =>
    obtain ⟨_, -, rfl⟩ := bind_return_ok.1 h
    exact .inl rfl
  | call =>
    obtain ⟨e, -, h⟩ := bind_ok.1 h
    split at h
    · next hinner =>
      obtain ⟨ns, -, h⟩ := bind_ok.1 h
      obtain ⟨_, -, h⟩ := bind_ok.1 h
      obtain ⟨params, -, rfl⟩ := bind_return_ok.1 h
      have hlower : e.desc.attr.dpl < s.cpl := of_decide_eq_true (Bool.and_eq_true_iff.1 hinner).2
      exact .inr ⟨rfl, by rwa [commitSwitch_cpl]⟩
    · obtain ⟨_, -, rfl⟩ := bind_return_ok.1 h
      exact .inl (storeReturn_cpl s ret)

/-- Every far transfer is direct or through a gate (R163). -/
theorem farTransfer_cpl {p : FarPtr} (h : farTransfer s k p ret = .ok t) : KeepsOrLowersCpl k s t := by
  obtain ⟨_, -, h⟩ := bind_ok.1 h
  obtain ⟨d, -, h⟩ := bind_ok.1 h
  split at h
  · exact .inl (farDirect_keeps_cpl s k _ _ _ _ t h)
  · split at h
    · cases h
    · unfold farSystem at h
      split at h
      · exact farGate_cpl h
      all_goals cases h

/-- A far JMP keeps the CPL (R167, R194). -/
theorem farJump_keeps_cpl (s : State) (p : FarPtr) (ret : Word) : Keeps State.cpl s (farTransfer s .jmp p ret) :=
  fun _ h => (farTransfer_cpl h).elim id fun hcall => nomatch hcall.1

/-- A far CALL that changes the CPL makes it smaller (R313). -/
theorem farCall_lowers {p : FarPtr} (h : farTransfer s .call p ret = .ok t) (hne : t.cpl ≠ s.cpl) : t.cpl < s.cpl :=
  ((farTransfer_cpl h).resolve_left hne).2

/-- A far RET that changes the CPL makes it greater: a popped RPL of a more privileged level raises GP
(row 3 of Table 6-3, R223, R313). -/
theorem farReturn_raises (h : farReturn s n = .ok t) (hne : t.cpl ≠ s.cpl) : s.cpl < t.cpl := by
  obtain ⟨p, -, h⟩ := bind_ok.1 h
  obtain ⟨hnotInner, h⟩ := stopIf_bind_ok.1 h
  split at h
  · exact absurd (farReturnSame_cpl h) hne
  · next hother =>
    obtain ⟨st, d, sd, rfl⟩ := farReturnInter_commits h
    rw [commitReturn_cpl]
    exact BitVec.lt_of_le_ne (BitVec.not_lt.1 hnotInner) (Ne.symm hother)

end FarLevels

/-! ### The instructions -/

/-- The instructions that can change the CPL: the far CALL and far RET forms (R313). -/
def isFarCallOrReturn : Instr → Bool
  | .callPtr _ _ | .callMem _ | .retf | .retfImm _ => true
  | _ => false

/-- No privileged instruction changes the CPL. -/
theorem exec_privileged_keeps_cpl {i : Instr} {s t : State} (hi : isPrivileged i = true) (h : exec i s = .next t) :
    t.cpl = s.cpl := by
  cases i with
  | clts => exact Keeps.next h (.privileged (.ok rfl))
  | hlt => exact Keeps.next h (.bind fun _ _ => .ok rfl)
  | lgdt _ | lidt _ | lmsw _ => exact Keeps.next h (.privileged (.bind fun _ _ => .ok rfl))
  | lldt _ =>
    exact Keeps.next h (.privileged (.bind fun _ _ => (loadLdtr_keeps_cpl s _).andThen (advance_cpl _)))
  | ltr _ =>
    exact Keeps.next h (.privileged (.bind fun _ _ => (loadTr_keeps_cpl s _).andThen (advance_cpl _)))
  | movFromCr _ _ | movFromDr _ _ | movFromTr _ _ => exact Keeps.next h (movFromSys_keeps_cpl s _ _ _ _)
  | movToCr _ _ | movToDr _ _ | movToTr _ _ => exact Keeps.next h (movToSys_keeps_cpl s _ _ _)
  | _ => cases hi

/-- No instruction but a far CALL and a far RET changes the CPL. -/
theorem exec_keeps_cpl {i : Instr} {s t : State} (hi : isFarCallOrReturn i = false) (h : exec i s = .next t) :
    t.cpl = s.cpl := by
  cases i with
  | jmpRel8 _ | jmpRel32 _ => exact Keeps.next h (nearJump_keeps_cpl s _)
  | jmpRm32 _ => exact Keeps.next h (.bind fun _ _ => nearJump_keeps_cpl s _)
  | callRel32 _ => exact Keeps.next h (nearCall_keeps_cpl s _ _)
  | callRm32 _ => exact Keeps.next h (.bind fun _ _ => nearCall_keeps_cpl s _ _)
  | jmpPtr _ _ => exact Keeps.next h (farJump_keeps_cpl s _ _)
  | jmpMem _ => exact Keeps.next h (.bind fun _ _ => farJump_keeps_cpl s _ _)
  | ret | retImm _ => exact Keeps.next h (nearReturn_keeps_cpl s _)
  | movSreg dst _ => exact Keeps.next h (.bind fun _ _ => (loadSreg_keeps_cpl s dst _).andThen (advance_cpl _))
  | popDs | popEs | popSs | popFs | popGs => exact Keeps.next h (popSreg_keeps_cpl s _ _)
  | lds _ _ | les _ _ | lss _ _ | lfs _ _ | lgs _ _ => exact Keeps.next h (loadFarPtr_keeps_cpl s _ _ _ _)
  | lar dst _ => exact Keeps.next h (.bind fun _ _ => (loadAccessRights_keeps_cpl s dst _).andThen (advance_cpl _))
  | lsl dst _ => exact Keeps.next h (.bind fun _ _ => .ok (loadSegLimit_cpl s dst _))
  | verr _ | verw _ => exact Keeps.next h (.bind fun _ _ => .ok rfl)
  | arpl rm _ => exact Keeps.next h (.bind fun _ _ => .bind fun _ _ => .ok (adjustRpl_cpl s rm _ _))
  | int3 | intImm _ | into | iret => cases h
  | clts | hlt | lgdt _ | lidt _ | lldt _ | lmsw _ | ltr _ | movFromCr _ _ | movToCr _ _ | movFromDr _ _
  | movToDr _ _ | movFromTr _ _ | movToTr _ _ => exact exec_privileged_keeps_cpl rfl h
  | callPtr _ _ | callMem _ | retf | retfImm _ => cases hi

/-- Settles O12: a far CALL that changes the CPL lowers it, a far RET raises it, and the others keep it. -/
theorem cplChangesOnlyByCallOrReturn : Obligations.CplChangesOnlyByCallOrReturn := by
  intro i s t h hne
  cases hi : isFarCallOrReturn i with
  | false => exact absurd (exec_keeps_cpl hi h) hne
  | true =>
    cases i with
    | callPtr off sel => exact .inl ⟨farCall_lowers (finish_next.1 h) hne, .inl ⟨off, sel, rfl⟩⟩
    | callMem m =>
      obtain ⟨_, -, hcall⟩ := bind_ok.1 (finish_next.1 h)
      exact .inl ⟨farCall_lowers hcall hne, .inr ⟨m, rfl⟩⟩
    | retf => exact .inr ⟨farReturn_raises (finish_next.1 h) hne, .inl rfl⟩
    | retfImm n => exact .inr ⟨farReturn_raises (finish_next.1 h) hne, .inr ⟨n, rfl⟩⟩
    | _ => cases hi

end Sys2Proof.Machine
end

section
/-! The bytes a step stores to (R60, R347): the relation between two states that says which, for the operations that
write memory, for a load of a segment register, for the states that far transfers and far returns leave, and for
ARPL. -/

namespace Sys2Proof.Machine

/-! ### Runs of bytes -/

/-- A run of bytes is its beginning and its rest. -/
theorem inBytes_append {b : Word} {m n : Nat} {a : Word} :
    inBytes b (m + n) a ↔ inBytes b m a ∨ inBytes (b + BitVec.ofNat 32 m) n a := by
  constructor
  · rintro ⟨k, hk, rfl⟩
    by_cases hm : k < m
    · exact .inl ⟨k, hm, rfl⟩
    · refine .inr ⟨k - m, by omega, ?_⟩
      rw [BitVec.add_assoc, ← BitVec.ofNat_add, Nat.add_sub_cancel' (Nat.le_of_not_lt hm)]
  · rintro (⟨k, hk, rfl⟩ | ⟨k, hk, rfl⟩)
    · exact ⟨k, by omega, rfl⟩
    · exact ⟨m + k, by omega, by rw [BitVec.add_assoc, ← BitVec.ofNat_add]⟩

/-- No byte is in the empty run. -/
theorem not_inBytes_zero {b a : Word} : ¬ inBytes b 0 a := fun ⟨_, hk, _⟩ => Nat.not_lt_zero _ hk

/-! ### Which bytes are stored to between two states -/

/-- From `s` to `t` the bytes of which `P` holds are stored to and no others: only they can change, and they are what
joins the stored set; canonical memory and a canonical stored set stay so. -/
structure Stores (s t : State) (P : Word → Prop) : Prop where
  wf : s.mem.wf = true → t.mem.wf = true
  changed : s.mem.wf = true → ∀ a : Word, linRead8 t a ≠ linRead8 s a → P a
  rising : addrsWf 0 s.stored = true → addrsWf 0 t.stored = true
  stored : ∀ k : Nat, k ∈ t.stored ↔ k ∈ s.stored ∨ ∃ a : Word, k = a.toNat ∧ P a

namespace Stores
variable {s t u : State} {P Q : Word → Prop}

/-- The same bytes, described otherwise. -/
theorem congr (h : Stores s t P) (hiff : ∀ a, P a ↔ Q a) : Stores s t Q :=
  ⟨h.wf, fun hmem a ha => (hiff a).1 (h.changed hmem a ha), h.rising, fun k => by simp only [h.stored, hiff]⟩

/-- Memory and the stored set as they were: no byte is stored to. -/
theorem none (hmem : t.mem = s.mem) (hstored : t.stored = s.stored) (hnone : ∀ a, ¬ P a) : Stores s t P where
  wf h := hmem ▸ h
  changed _ a ha := absurd (congrArg (·.read a.toNat) hmem) ha
  rising h := hstored ▸ h
  stored k := by simp [hstored, hnone]

/-- The bytes of two operations in turn. -/
theorem trans (h : Stores s t P) (h' : Stores t u Q) : Stores s u fun a => P a ∨ Q a where
  wf hmem := h'.wf (h.wf hmem)
  changed hmem a ha := by
    by_cases ht : linRead8 u a = linRead8 t a
    · exact .inl (h.changed hmem a (ht ▸ ha))
    · exact .inr (h'.changed (h.wf hmem) a ht)
  rising hset := h'.rising (h.rising hset)
  stored k := by simp only [h'.stored, h.stored, or_assoc, and_or_left, exists_or]

/-- An operation and then an update that leaves memory and the stored set. -/
theorem thenUpdate (h : Stores s t P) (hmem : u.mem = t.mem) (hstored : u.stored = t.stored) : Stores s u P :=
  (h.trans (none hmem hstored fun _ => not_false)).congr fun a => iff_of_eq (or_false (P a))

/-- An operation after an update that leaves memory and the stored set. -/
theorem afterUpdate (h : Stores t u P) (hmem : t.mem = s.mem) (hstored : t.stored = s.stored) : Stores s u P :=
  ((none hmem hstored fun _ => not_false).trans h).congr fun a => iff_of_eq (false_or (P a))

end Stores

/-! ### The operations that write memory -/

theorem linWriteBytes_stores (s : State) (a : Word) (l : List Byte) :
    Stores s (linWriteBytes s a l) (inBytes a l.length) where
  wf hmem := linWriteBytes_wf hmem a l
  changed hmem b hb := by
    by_contra hout
    exact hb (linWriteBytes_sameMemOutside hmem a l b fun k hk e => hout ⟨k, hk, e⟩)
  rising hset := linWriteBytes_stored_wf hset a l
  stored _ := mem_linWriteBytes_stored

theorem linWrite8_stores (s : State) (a : Word) (v : Byte) : Stores s (linWrite8 s a v) (· = a) :=
  (linWriteBytes_stores s a [v]).congr fun b => by simp [inBytes]

/-- The accessed-bit update through a descriptor read in an earlier state of the same descriptor tables and parameters
(R133). -/
theorem setAccessed_stores {s t : State} (hsys : t.systemPart = s.systemPart) {sel : Half}
    (hn : isNull sel = false) : Stores t (setAccessed t sel (descOf s sel)) (loadStores s sel) := by
  obtain ⟨hgdtr, hldtr, -, -, -, -, hparams⟩ := systemPart_eq_iff.1 hsys
  have haddr : descriptorAddr t sel + 5 = accessAddr s sel := by
    rw [accessAddr, descriptorAddr, descriptorAddr, hgdtr, hldtr]
  have hset : (t.params.setsAccessed = true ∧ (descOf s sel).attr.accessed = false) ↔
      setsAccessedBit s sel = true := by
    simp [setsAccessedBit, hparams]
  unfold setAccessed
  split
  · next h =>
    rw [haddr]
    exact (linWrite8_stores t _ _).congr fun a => by simp [loadStores, hn, hset.1 h]
  · next h => exact .none rfl rfl fun a => by simp [loadStores, mt hset.2 h]

/-- A load of CS stores as its accessed-bit update does, whatever the RPL field it puts in CS (R133, R166). -/
theorem loadCs_stores {s t : State} (hsys : t.systemPart = s.systemPart) {sel : Half} (hn : isNull sel = false)
    (p : Level) : Stores t (loadCs t sel (descOf s sel) p) (loadStores s sel) :=
  (setAccessed_withRpl t sel p _ ▸ setAccessed_stores hsys hn).thenUpdate rfl rfl

/-- Entering code loads CS at the CPL (R166). -/
theorem enterCode_stores {s t : State} (hsys : t.systemPart = s.systemPart) {sel : Half} (hn : isNull sel = false)
    (off : Word) : Stores t (enterCode t sel (descOf s sel) off) (loadStores s sel) :=
  (loadCs_stores hsys hn t.cpl).thenUpdate rfl rfl

/-- A push stores to its slot (R78). -/
theorem storePush_stores (s : State) (v : Word) :
    Stores s (storePush s v) (inBytes (s.segs.ss.base + (s.regs.esp - 4)) 4) :=
  (linWriteBytes_stores s _ (bytes32 v)).thenUpdate rfl rfl

theorem storePushSel_stores (s : State) (sel : Half) :
    Stores s (storePushSel s sel) (inBytes (s.segs.ss.base + (s.regs.esp - 4)) 4) :=
  (storePush_stores (countDraw s) _).afterUpdate rfl rfl

/-- A return pointer is eight bytes below the top of the stack (R165). -/
theorem storeReturn_stores (s : State) (ret : Word) :
    Stores s (storeReturn s ret) (inBytes (s.segs.ss.base + (s.regs.esp - 8)) 8) := by
  have hlow := storePush_stores (storePushSel s s.segs.cs.sel) ret
  rw [storePushSel_segs, storePushSel_esp, sub_four_sub_four] at hlow
  have hupper : s.segs.ss.base + (s.regs.esp - 8) + BitVec.ofNat 32 4 = s.segs.ss.base + (s.regs.esp - 4) := by
    simpa using (upperSlot_byte s.segs.ss.base s.regs.esp 0).symm
  refine ((storePushSel_stores s s.segs.cs.sel).trans hlow).congr fun a => ?_
  rw [inBytes_append (m := 4) (n := 4), hupper, or_comm]

/-- Doublewords pushed in turn fill the bytes below the top of the stack (R197). -/
theorem storeParams_stores (s : State) (l : List Word) :
    Stores s (storeParams s l) (inBytes (slotBelow (stackTop s) l.length) (4 * l.length)) := by
  induction l with
  | nil => exact .none rfl rfl fun _ => not_inBytes_zero
  | cons v l ih =>
    have hpush := storePush_stores (storeParams s l) v
    rw [storeParams_slot] at hpush
    refine (ih.trans hpush).congr fun a => ?_
    rw [List.length_cons, Nat.add_comm l.length, Nat.mul_add, inBytes_append (m := 4 * 1),
      slotBelow_add (stackTop s) rfl, or_comm]

/-- A call at the same level pushes the return pointer and enters its code segment (R165, R195). -/
theorem calledState_stores {s : State} {sel : Half} (hn : isNull sel = false) (off ret : Word) :
    Stores s (calledState s sel off ret)
      fun a => loadStores s sel a ∨ inBytes (s.segs.ss.base + (s.regs.esp - 8)) 8 a :=
  ((storeReturn_stores s ret).trans (enterCode_stores (storeReturn_systemPart s ret) hn off)).congr fun _ => or_comm

/-- A stack switch loads SS and CS and pushes its frame on the new stack (R197, R199). -/
theorem commitSwitch_stores {s : State} {sel : Half} {p : Level} (hp : p = (gateDesc s sel).attr.dpl)
    (hnss : isNull (tssSs s p) = false) (hncs : isNull (gateSel s sel) = false) (params : List Word) (ret off : Word) :
    Stores s (commitSwitch s (innerStack s p) (gateTarget s sel) params ret off)
      fun a => (loadStores s (tssSs s p) a ∨ loadStores s (gateSel s sel) a) ∨
        inBytes (slotBelow (innerTop s p) (params.length + 4)) (4 * (params.length + 4)) a := by
  have hstack : Stores s (newStackState s p) (loadStores s (tssSs s p)) :=
    (setAccessed_stores rfl hnss).thenUpdate rfl rfl
  have hcode : Stores (newStackState s p) (switchedState s sel p) (loadStores s (gateSel s sel)) :=
    loadCs_stores (newStackState_systemPart s p) hncs p
  have hframe := storeParams_stores (switchedState s sel p) (innerFrameWords s ret params)
  rw [stackTop_switchedState, length_innerFrameWords] at hframe
  rw [commitSwitch_eq hp]
  exact ((hstack.trans hcode).trans hframe).thenUpdate rfl rfl

/-- A return to the same level enters its code segment (R222). -/
theorem sameLevelState_stores {s : State} (hn : isNull (returnSel s) = false) (n : Word) :
    Stores s (sameLevelState s n) (loadStores s (returnSel s)) :=
  (enterCode_stores rfl hn (returnOff s)).thenUpdate rfl rfl

/-- An outward return loads CS and SS (R226). -/
theorem outwardState_stores {s : State} {n : Word} (hncs : isNull (returnSel s) = false)
    (hnss : isNull (savedSs s n) = false) :
    Stores s (outwardState s n) fun a => loadStores s (returnSel s) a ∨ loadStores s (savedSs s n) a := by
  have hcode : Stores s (returnedCode s) (loadStores s (returnSel s)) :=
    (loadCs_stores rfl hncs _).thenUpdate rfl rfl
  have hstack : Stores (returnedCode s) (outwardState s n) (loadStores s (savedSs s n)) :=
    (setAccessed_stores (returnedCode_systemPart s) hnss).thenUpdate rfl rfl
  exact hcode.trans hstack

/-- A load of a segment register by a program stores to at most the access byte (R124, R133). -/
theorem loadSreg_stores {s t : State} {r : SReg} {sel : Half} (h : loadSreg s r sel = .ok t) :
    Stores s t (loadStores s sel) := by
  obtain ⟨-, ⟨hn, rfl⟩ | ⟨hn, rfl⟩⟩ := loadSreg_ok h
  · exact .none rfl rfl fun a => by simp [loadStores, hn]
  · exact (setAccessed_stores rfl hn).thenUpdate rfl rfl

/-- ARPL stores to a memory destination whose RPL it raises (R275). -/
theorem adjustRpl_stores (s : State) (rm : RM) (src : Reg) :
    Stores s (adjustRpl s rm (valueRM16 s rm) (readReg16 s src)) (arplStores s rm src) := by
  rw [adjustRpl_eq]
  refine Stores.thenUpdate (t := arplWritten s rm (valueRM16 s rm) (readReg16 s src)) ?_ rfl rfl
  cases rm with
  | reg r =>
    rw [arplWritten_reg]
    exact .none rfl rfl fun _ => not_false
  | mem m =>
    rw [arplWritten]
    split
    · next hlt =>
      exact (linWriteBytes_stores s _ (bytes16 _)).congr fun a => (and_iff_right hlt).symm
    · next hlt => exact .none rfl rfl fun _ hand => hlt hand.1

end Sys2Proof.Machine
end

section
/-! What an instruction that answers a next state has done: the segments that far transfers and far returns go to, and
for every instruction the loads, transfers and stores behind its next state. -/

namespace Sys2Proof.Machine

/-! ### The segments a transfer goes to -/

/-- A selector names a present 32-bit code segment that CS may hold at level `p` (R36, R121, R171). -/
structure CodeFits (s : State) (sel : Half) (p : Level) : Prop where
  nonnull : isNull sel = false
  executable : (descOf s sel).attr.executable = true
  present : (descOf s sel).attr.p = true
  wide : (descOf s sel).attr.db = true
  nonconforming : (descOf s sel).attr.conforming = false → (descOf s sel).attr.dpl = p
  conforming : (descOf s sel).attr.conforming = true → (descOf s sel).attr.dpl ≤ p

/-- A selector names a present 32-bit stack segment of level `p` (R123, R198, R225). -/
structure StackFits (s : State) (sel : Half) (p : Level) : Prop where
  nonnull : isNull sel = false
  writable : (descOf s sel).attr.writable = true
  present : (descOf s sel).attr.p = true
  wide : (descOf s sel).attr.db = true
  level : (descOf s sel).attr.dpl = p
  rpl : selRpl sel = p

/-! ### Far transfers (R163 to R172, R190 to R200) -/

/-- What a far JMP or CALL through a selector leaves, with the return offset `ret`: by its kind, by whether the selector
names code or a gate, and by whether a gate leads inward. -/
inductive FarOutcome (s : State) (ret : Word) (sel : Half) : FarKind → State → Prop where
  | jumpDirect (off : Word) (hcode : CodeFits s sel s.cpl) :
      FarOutcome s ret sel .jmp (enterCode s sel (descOf s sel) off)
  | callDirect (off : Word) (hcode : CodeFits s sel s.cpl) : FarOutcome s ret sel .call (calledState s sel off ret)
  | jumpGate (off : Word) (hx : (descOf s sel).attr.executable = false) (hcode : CodeFits s (gateSel s sel) s.cpl) :
      FarOutcome s ret sel .jmp (enterCode s (gateSel s sel) (gateDesc s sel) off)
  | callGate (off : Word) (hx : (descOf s sel).attr.executable = false) (hsame : entersInner s sel = false)
      (hcode : CodeFits s (gateSel s sel) s.cpl) : FarOutcome s ret sel .call (calledState s (gateSel s sel) off ret)
  | callInner (off : Word) (p : Level) (params : List Word) (hp : p = (gateDesc s sel).attr.dpl)
      (hx : (descOf s sel).attr.executable = false) (hinner : entersInner s sel = true)
      (hcode : CodeFits s (gateSel s sel) p) (hstack : StackFits s (tssSs s p) p)
      (hcount : params.length = (descOf s sel).gateCount.toNat) :
      FarOutcome s ret sel .call (commitSwitch s (innerStack s p) (gateTarget s sel) params ret off)

section FarOutcome
variable {s t : State} {k : FarKind} {sel : Half} {off ret : Word}

/-- A segment that passes the checks of a direct transfer fits the CPL (R164). -/
theorem directChecks_codeFits {u : Unit} (hn : isNull sel = false) (hx : (descOf s sel).attr.executable = true)
    (h : directChecks s sel (descOf s sel) = .ok u) : CodeFits s sel s.cpl := by
  simp only [directChecks, stopIf_bind_ok, stopIf_ok, not_or, Bool.not_eq_false] at h
  obtain ⟨⟨hdirect, -⟩, hp, hdb⟩ := h
  refine ⟨hn, hx, hp, hdb, directOk_nonconforming hdirect, fun hc => ?_⟩
  have hlevel : (descOf s sel).attr.dpl = s.cpl ∨ (descOf s sel).attr.dpl ≤ s.cpl := by
    simpa [directOk, hc] using hdirect
  exact hlevel.elim (fun e => e ▸ BitVec.le_refl _) id

/-- Directly to a code segment (R165, R167). -/
theorem farDirect_outcome (hn : isNull sel = false) (hx : (descOf s sel).attr.executable = true)
    (h : farDirect s k sel off ret (descOf s sel) = .ok t) : FarOutcome s ret sel k t := by
  cases k with
  | jmp =>
    obtain ⟨_, hcheck, h⟩ := bind_ok.1 h
    obtain ⟨_, -, rfl⟩ := bind_return_ok.1 h
    exact .jumpDirect off (directChecks_codeFits hn hx hcheck)
  | call =>
    obtain ⟨_, hcheck, h⟩ := bind_ok.1 h
    obtain ⟨_, -, h⟩ := bind_ok.1 h
    obtain ⟨_, -, rfl⟩ := bind_return_ok.1 h
    exact .callDirect off (directChecks_codeFits hn hx hcheck)

/-- The parameters read are as many as asked for. -/
theorem length_readParams {n i : Nat} {l : List Word} (h : readParams s i n = .ok l) : l.length = n := by
  induction n generalizing i l with
  | zero => cases h; rfl
  | succ n ih =>
    obtain ⟨v, -, h⟩ := bind_ok.1 h
    obtain ⟨rest, hrest, h⟩ := bind_ok.1 h
    cases h
    exact congrArg (· + 1) (ih hrest)

/-- A gate's target that passes its checks is code that fits every level its DPL does (R193). -/
theorem gateChecks_codeFits {e : GateTarget} {p : Level} (h : gateChecks s k sel (descOf s sel) = .ok e)
    (hnon : (gateDesc s sel).attr.conforming = false → (gateDesc s sel).attr.dpl = p)
    (hconf : (gateDesc s sel).attr.conforming = true → (gateDesc s sel).attr.dpl ≤ p) :
    CodeFits s (gateSel s sel) p := by
  obtain ⟨-, -, hn, -, rfl, hx, -, hp, hdb, -⟩ := gateChecks_ok h
  exact ⟨hn, hx, hp, hdb, hnon, hconf⟩

/-- The checks of a gate answer its target, which the privilege rule allows (R192, R193). -/
theorem gateChecks_target {e : GateTarget} (h : gateChecks s k sel (descOf s sel) = .ok e) :
    e = gateTarget s sel ∧ gateTargetAllowed s k sel = true := by
  obtain ⟨-, -, -, -, rfl, -, htarget, -⟩ := gateChecks_ok h
  exact ⟨rfl, targetOk_gateDesc.symm.trans htarget⟩

/-- A target that the privilege rule allows has a DPL of at most the CPL, whatever the kind of transfer (R192). -/
theorem gateTargetAllowed_le (h : gateTargetAllowed s k sel = true) : (gateDesc s sel).attr.dpl ≤ s.cpl := by
  by_contra hlt
  exact Bool.false_ne_true ((gateTargetAllowed_eq_false.2 (.inr (BitVec.not_le.1 hlt))).symm.trans h)

/-- Through a gate (R191, R194 to R197). -/
theorem farGate_outcome (hx : (descOf s sel).attr.executable = false)
    (h : farGate s k sel ret (descOf s sel) = .ok t) : FarOutcome s ret sel k t := by
  cases k with
  | jmp =>
    obtain ⟨e, hgate, rfl⟩ := bind_return_ok.1 h
    obtain ⟨rfl, hallow⟩ := gateChecks_target hgate
    refine .jumpGate _ hx (gateChecks_codeFits hgate (fun hc => ?_) fun _ => gateTargetAllowed_le hallow)
    simpa [gateTargetAllowed, hc] using hallow
  | call =>
    obtain ⟨e, hgate, h⟩ := bind_ok.1 h
    obtain ⟨rfl, hallow⟩ := gateChecks_target hgate
    have hle := gateTargetAllowed_le hallow
    split at h
    · next hinner =>
      obtain ⟨ns, hstack, h⟩ := bind_ok.1 h
      obtain ⟨-, h⟩ := stopIf_bind_ok.1 h
      obtain ⟨params, hparams, rfl⟩ := bind_return_ok.1 h
      obtain ⟨-, -, hn, -, hdesc, hrpl, hdpl, hw, hp, hdb, hsel, hesp⟩ := newStack_ok hstack
      obtain ⟨nsel, nesp, ndesc⟩ := ns
      obtain rfl : nsel = tssSs s (gateDesc s sel).attr.dpl := hsel.trans linRead16_tssStackAddr
      obtain rfl : ndesc = descOf s (tssSs s (gateDesc s sel).attr.dpl) := hdesc
      obtain rfl : nesp = tssEsp s (gateDesc s sel).attr.dpl := hesp
      exact .callInner _ _ params rfl hx hinner
        (gateChecks_codeFits hgate (fun _ => rfl) fun _ => BitVec.le_refl _) ⟨hn, hw, hp, hdb, hdpl, hrpl⟩
        (length_readParams hparams)
    · next hstays =>
      obtain ⟨_, -, rfl⟩ := bind_return_ok.1 h
      have hsame : entersInner s sel = false := Bool.eq_false_iff.2 hstays
      refine .callGate _ hx hsame (gateChecks_codeFits hgate (fun hc => BitVec.le_antisymm hle ?_) fun _ => hle)
      simpa [entersInner, hc] using hsame

/-- Every far transfer that answers (R163). -/
theorem farTransfer_outcome (h : farTransfer s k { sel := sel, off := off } ret = .ok t) :
    FarOutcome s ret sel k t := by
  obtain ⟨hnull, h⟩ := stopIf_bind_ok.1 h
  obtain ⟨d, hread, h⟩ := bind_ok.1 h
  obtain ⟨-, rfl⟩ := readDescriptor_ok.1 hread
  split at h
  · next hx => exact farDirect_outcome (Bool.eq_false_iff.2 hnull) hx h
  · next hx =>
    split at h
    · cases h
    · unfold farSystem at h
      split at h
      · exact farGate_outcome (Bool.eq_false_iff.2 hx) h
      all_goals cases h

/-- The frame of a stack switch, counted in bytes (R199). -/
theorem innerFrame_eq {n : Nat} (hcount : n = (descOf s sel).gateCount.toNat) :
    innerFrame s sel = slotBelow (innerTop s (gateDesc s sel).attr.dpl) (n + 4) := by
  rw [innerFrame, slotBelow, innerTop, hcount, Nat.mul_add, Nat.add_comm]

/-- The bytes a far transfer stores to (R165 to R167, R194, R195, R197). -/
theorem FarOutcome.stores (h : FarOutcome s ret sel k t) : Stores s t (farStores s k sel) := by
  cases h with
  | jumpDirect off hcode =>
    exact (enterCode_stores rfl hcode.nonnull off).congr fun a => by simp [farStores, hcode.executable]
  | callDirect off hcode =>
    exact (calledState_stores hcode.nonnull off ret).congr fun a => by simp [farStores, hcode.executable]
  | jumpGate off hx hcode => exact (enterCode_stores rfl hcode.nonnull off).congr fun a => by simp [farStores, hx]
  | callGate off hx hsame hcode =>
    exact (calledState_stores hcode.nonnull off ret).congr fun a => by simp [farStores, hx, gateCallStores, hsame]
  | callInner off p params hp hx hinner hcode hstack hcount =>
    refine (commitSwitch_stores hp hstack.nonnull hcode.nonnull params ret off).congr fun a => ?_
    have hbytes : 16 + 4 * params.length = 4 * (params.length + 4) := by omega
    simp only [farStores, hx, gateCallStores, hinner, if_true, innerFrame_eq hcount, ← hcount, hbytes, ← hp]
    tauto

end FarOutcome

/-! ### Far returns (R222 to R227) -/

/-- What a far RET that releases `n` bytes leaves: at the CPL, or at the outer level of the popped RPL. -/
inductive ReturnOutcome (s : State) (n : Word) : State → Prop where
  | same (hlevel : selRpl (returnSel s) = s.cpl) (hcode : CodeFits s (returnSel s) s.cpl) :
      ReturnOutcome s n (sameLevelState s n)
  | outward (hlevel : s.cpl < selRpl (returnSel s)) (hcode : CodeFits s (returnSel s) (selRpl (returnSel s)))
      (hstack : StackFits s (savedSs s n) (selRpl (returnSel s))) : ReturnOutcome s n (outwardState s n)

section ReturnOutcome
variable {s t : State} {n : Word}

/-- Every far RET that answers (R223). -/
theorem farReturn_outcome (h : farReturn s n = .ok t) : ReturnOutcome s n t := by
  obtain ⟨r, hptr, h⟩ := bind_ok.1 h
  obtain ⟨hinward, h⟩ := stopIf_bind_ok.1 h
  obtain ⟨_, -, hptr⟩ := bind_ok.1 hptr
  obtain rfl : returnPtr s = r := Except.ok.inj hptr
  have hfits {d : Descriptor} (hcs : returnCsChecks s (returnSel s) = .ok d) (hdb : ¬ d.attr.db = false) :
      d = returnDesc s ∧ CodeFits s (returnSel s) (selRpl (returnSel s)) := by
    obtain ⟨hn, -, rfl, hx, hp, hnon, hconf⟩ := returnCsChecks_ok hcs
    exact ⟨rfl, hn, hx, hp, Bool.eq_true_of_not_eq_false hdb, hnon, hconf⟩
  split at h
  · next hlevel =>
    obtain ⟨d, hcs, h⟩ := bind_ok.1 h
    obtain ⟨hdb, h⟩ := stopIf_bind_ok.1 h
    obtain ⟨_, -, rfl⟩ := bind_return_ok.1 h
    obtain ⟨rfl, hcode⟩ := hfits hcs hdb
    exact .same hlevel (hlevel ▸ hcode)
  · next hother =>
    obtain ⟨d, hcs, h⟩ := bind_ok.1 h
    obtain ⟨st, hst, h⟩ := bind_ok.1 h
    obtain ⟨sd, hss, h⟩ := bind_ok.1 h
    obtain ⟨hdb, h⟩ := stopIf_bind_ok.1 h
    obtain ⟨hssdb, h⟩ := stopIf_bind_ok.1 h
    obtain ⟨_, -, rfl⟩ := bind_return_ok.1 h
    obtain ⟨_, -, hst⟩ := bind_ok.1 hst
    obtain rfl : savedStack s n = st := Except.ok.inj hst
    obtain ⟨rfl, hcode⟩ := hfits hcs hdb
    obtain ⟨hn, -, rfl, hw, hp, hdpl, hrpl⟩ := returnSsChecks_ok hss
    exact .outward (BitVec.lt_of_le_ne (BitVec.not_lt.1 hinward) (Ne.symm hother)) hcode
      ⟨hn, hw, hp, Bool.eq_true_of_not_eq_false hssdb, hdpl, hrpl⟩

/-- The bytes a far RET stores to (R222, R226). -/
theorem ReturnOutcome.stores (h : ReturnOutcome s n t) : Stores s t (returnStores s n) := by
  cases h with
  | same hlevel hcode =>
    exact (sameLevelState_stores hcode.nonnull n).congr fun a => by simp [returnStores, hlevel]
  | outward hlevel hcode hstack =>
    exact (outwardState_stores hcode.nonnull hstack.nonnull).congr fun a => by simp [returnStores, hlevel]

end ReturnOutcome

/-! ### Every instruction -/

/-- The part of the state that instructions which neither store nor load CS, SS or a data-segment register leave. -/
structure ProtectedPart where
  segs : Segs
  cpl : Level
  mem : Memory
  stored : List Nat

/-- A state's fields that make up its protected part. -/
def State.protectedPart (s : State) : ProtectedPart :=
  { segs := s.segs, cpl := s.cpl, mem := s.mem, stored := s.stored }

theorem protectedPart_eq_iff {s t : State} :
    t.protectedPart = s.protectedPart ↔ t.segs = s.segs ∧ t.cpl = s.cpl ∧ t.mem = s.mem ∧ t.stored = s.stored := by
  simp only [State.protectedPart, ProtectedPart.mk.injEq]

/-- How an instruction that answers comes to its segment registers, CPL and memory: it leaves the first two, or it makes
a load of a segment register, a far transfer or a far return. -/
inductive Effect (s t : State) (i : Instr) : Prop where
  | storesOnly (hsegs : t.segs = s.segs) (hcpl : t.cpl = s.cpl) (hstores : Stores s t (storesTo s i))
  | load (u : State) (r : SReg) (sel : Half) (hform : loadsSreg s i r sel) (hload : loadSreg s r sel = .ok u)
      (hafter : t.protectedPart = u.protectedPart)
  | far (k : FarKind) (sel : Half) (off : Word) (hform : reachesFar s k i sel off)
      (hfar : FarOutcome s (nextEip s i) sel k t)
  | back (n : Word) (hform : releases i n) (hreturn : ReturnOutcome s n t)

section Effect
variable {s t : State} {i : Instr}

/-- An instruction that keeps the protected part. -/
theorem Effect.quiet (hkeep : t.protectedPart = s.protectedPart) (hnone : ∀ a, ¬ storesTo s i a) : Effect s t i := by
  obtain ⟨hsegs, hcpl, hmem, hstored⟩ := protectedPart_eq_iff.1 hkeep
  exact .storesOnly hsegs hcpl (.none hmem hstored hnone)

/-- A near CALL pushes the return offset (R162). -/
theorem nearCall_effect {target ret : Word} (h : nearCall s target ret = .ok t)
    (hform : storesTo s i = inBytes (s.segs.ss.base + (s.regs.esp - 4)) 4) : Effect s t i := by
  obtain ⟨_, -, h⟩ := bind_ok.1 h
  obtain ⟨_, -, h⟩ := bind_ok.1 h
  obtain ⟨u, hpush, rfl⟩ := bind_return_ok.1 h
  obtain ⟨-, rfl⟩ := push32_ok.1 hpush
  exact .storesOnly (storePush_segs s ret) (storePush_cpl s ret)
    (hform ▸ (storePush_stores s ret).thenUpdate rfl rfl)

/-- A form that loads a segment register has made that load (R129 to R131). -/
theorem loadsSreg_effect {r : SReg} {sel : Half} (hform : loadsSreg s i r sel) (h : exec i s = .next t) :
    Effect s t i := by
  obtain ⟨g, hexec⟩ := exec_loadsSreg_frame hform
  obtain ⟨u, hload, rfl⟩ := bind_return_ok.1 (finish_next.1 (hexec.symm.trans h))
  exact .load u r sel hform hload rfl

/-- POP Sreg that answers has read its slot (R130). -/
theorem popSreg_effect {r : SReg}
    (hform : (i, r) ∈ [(Instr.popDs, SReg.ds), (.popEs, .es), (.popSs, .ss), (.popFs, .fs), (.popGs, .gs)])
    (h : exec i s = .next t) : Effect s t i := by
  have hpop := finish_next.1 ((exec_popSreg hform).symm.trans h)
  obtain ⟨v, hread, -⟩ := bind_ok.1 hpop
  exact loadsSreg_effect (.inr (.inl ⟨hform, (memRead32_ok.1 hread).1, rfl⟩)) h

/-- LDS and its like that answer have read their operand (R131). -/
theorem loadFarPtr_effect {r : SReg} {dst : Reg} {m : Mem}
    (hform : (i, r) ∈
      [(Instr.lds dst m, SReg.ds), (.les dst m, .es), (.lss dst m, .ss), (.lfs dst m, .fs), (.lgs dst m, .gs)])
    (h : exec i s = .next t) : Effect s t i := by
  have hload := finish_next.1 ((exec_loadFarPtr hform).symm.trans h)
  obtain ⟨p, hread, -⟩ := bind_ok.1 hload
  exact loadsSreg_effect (.inr (.inr ⟨dst, m, hform, (readFarPtr_ok.1 hread).1, rfl⟩)) h

/-- A form that reaches a selector and an offset has made that transfer (R163). -/
theorem reachesFar_effect {k : FarKind} {sel : Half} {off : Word} (hform : reachesFar s k i sel off)
    (h : exec i s = .next t) : Effect s t i :=
  .far k sel off hform (farTransfer_outcome (finish_next.1 ((exec_reachesFar hform).symm.trans h)))

/-- A far RET form has made its return (R223). -/
theorem releases_effect {n : Word} (hform : releases i n) (h : exec i s = .next t) : Effect s t i :=
  .back n hform (farReturn_outcome (finish_next.1 ((exec_releases hform).symm.trans h)))

/-- LTR stores the busy bit (R258). -/
theorem ltr_effect {rm : RM} (h : exec (.ltr rm) s = .next t) : Effect s t (.ltr rm) := by
  obtain ⟨-, -, h⟩ := privileged_ok.1 (finish_next.1 h)
  obtain ⟨sel, hread, h⟩ := bind_ok.1 h
  obtain ⟨-, rfl⟩ := readRM16_ok.1 hread
  obtain ⟨u, hload, rfl⟩ := bind_return_ok.1 h
  obtain ⟨-, hload⟩ := stopIf_bind_ok.1 hload
  obtain ⟨d, -, rfl⟩ := bind_return_ok.1 hload
  exact .storesOnly rfl rfl ((linWrite8_stores s _ _).thenUpdate rfl rfl)

@[simp] theorem adjustRpl_segs (s : State) (rm : RM) (v r : Half) : (adjustRpl s rm v r).segs = s.segs := by
  rw [adjustRpl_eq, setZf_segs]
  cases rm with
  | reg r => rw [arplWritten]; split <;> rfl
  | mem m => rw [arplWritten_mem_frame]

/-- ARPL stores to the destination it raises (R275). -/
theorem arpl_effect {rm : RM} {src : Reg} (h : exec (.arpl rm src) s = .next t) : Effect s t (.arpl rm src) := by
  obtain ⟨_, -, h⟩ := bind_ok.1 (finish_next.1 h)
  obtain ⟨v, hread, rfl⟩ := bind_return_ok.1 h
  obtain ⟨-, rfl⟩ := readRM16_ok.1 hread
  exact .storesOnly (adjustRpl_segs s rm _ _) (adjustRpl_cpl s rm _ _) ((adjustRpl_stores s rm src).thenUpdate rfl rfl)

theorem nearJump_keeps_protected (s : State) (t : Word) : Keeps State.protectedPart s (nearJump s t) :=
  .bind fun _ _ => .ok rfl

theorem nearReturn_keeps_protected (s : State) (n : Word) : Keeps State.protectedPart s (nearReturn s n) :=
  .bind fun _ _ => .bind fun _ _ => .ok rfl

theorem loadLdtr_keeps_protected (s : State) (sel : Half) : Keeps State.protectedPart s (loadLdtr s sel) := by
  unfold loadLdtr
  split
  · exact .ok rfl
  · exact .bind fun _ _ => .ok rfl

/-- A move from a system register writes a general register (R259 to R261). -/
theorem movFromSys_keeps_protected (s : State) (v : Option Word) (n : BitVec 3) (dst : Reg) (i : Instr) :
    Keeps State.protectedPart s (movFromSys s v n dst i) :=
  .privileged (.bind fun _ _ => .ok rfl)

theorem movToSys_keeps_protected (s : State) (g : Option SysRegs) (n : BitVec 3) (i : Instr) :
    Keeps State.protectedPart s (movToSys s g n i) :=
  .privileged (.bind fun _ _ => .bind fun _ _ => .bind fun _ _ => .ok rfl)

/-- LAR writes ZF and at most its destination, drawing a free value for it (R271). -/
theorem loadAccessRights_keeps_protected (s : State) (dst : Reg) (sel : Half) :
    Keeps State.protectedPart s (loadAccessRights s dst sel) := by
  unfold loadAccessRights
  split
  · exact .ok rfl
  · split
    · exact .ok rfl
    · refine .bind fun _ _ => ?_
      split <;> exact .ok rfl

/-- What every instruction that answers has done. -/
theorem exec_effect (h : exec i s = .next t) : Effect s t i := by
  cases i with
  | jmpRel8 _ | jmpRel32 _ => exact .quiet (Keeps.next h (nearJump_keeps_protected s _)) fun _ => not_false
  | jmpRm32 _ => exact .quiet (Keeps.next h (.bind fun _ _ => nearJump_keeps_protected s _)) fun _ => not_false
  | callRel32 _ => exact nearCall_effect (finish_next.1 h) rfl
  | callRm32 _ =>
    obtain ⟨_, -, hcall⟩ := bind_ok.1 (finish_next.1 h)
    exact nearCall_effect hcall rfl
  | jmpPtr off sel => exact reachesFar_effect (k := .jmp) (off := off) (.inl rfl) h
  | callPtr off sel => exact reachesFar_effect (k := .call) (off := off) (.inl rfl) h
  | jmpMem m =>
    obtain ⟨_, hread, -⟩ := bind_ok.1 (finish_next.1 h)
    exact reachesFar_effect (k := .jmp) (.inr ⟨m, rfl, (readFarPtr_ok.1 hread).1, rfl, rfl⟩) h
  | callMem m =>
    obtain ⟨_, hread, -⟩ := bind_ok.1 (finish_next.1 h)
    exact reachesFar_effect (k := .call) (.inr ⟨m, rfl, (readFarPtr_ok.1 hread).1, rfl, rfl⟩) h
  | ret | retImm _ => exact .quiet (Keeps.next h (nearReturn_keeps_protected s _)) fun _ => not_false
  | retf => exact releases_effect (.inl ⟨rfl, rfl⟩) h
  | retfImm k => exact releases_effect (.inr ⟨k, rfl, rfl⟩) h
  | movSreg dst rm =>
    obtain ⟨_, hread, -⟩ := bind_ok.1 (finish_next.1 h)
    exact loadsSreg_effect (.inl ⟨rm, rfl, (readRM16_ok.1 hread).1, rfl⟩) h
  | popDs => exact popSreg_effect (r := .ds) (by simp) h
  | popEs => exact popSreg_effect (r := .es) (by simp) h
  | popSs => exact popSreg_effect (r := .ss) (by simp) h
  | popFs => exact popSreg_effect (r := .fs) (by simp) h
  | popGs => exact popSreg_effect (r := .gs) (by simp) h
  | lds dst m => exact loadFarPtr_effect (r := .ds) (dst := dst) (m := m) (by simp) h
  | les dst m => exact loadFarPtr_effect (r := .es) (dst := dst) (m := m) (by simp) h
  | lss dst m => exact loadFarPtr_effect (r := .ss) (dst := dst) (m := m) (by simp) h
  | lfs dst m => exact loadFarPtr_effect (r := .fs) (dst := dst) (m := m) (by simp) h
  | lgs dst m => exact loadFarPtr_effect (r := .gs) (dst := dst) (m := m) (by simp) h
  | clts => exact .quiet (Keeps.next h (.privileged (.ok rfl))) fun _ => not_false
  | hlt => exact .quiet (Keeps.next h (.bind fun _ _ => .ok rfl)) fun _ => not_false
  | lgdt _ | lidt _ | lmsw _ =>
    exact .quiet (Keeps.next h (.privileged (.bind fun _ _ => .ok rfl))) fun _ => not_false
  | lldt _ =>
    exact .quiet (Keeps.next h (.privileged (.bind fun _ _ => (loadLdtr_keeps_protected s _).andThen fun _ => rfl)))
      fun _ => not_false
  | ltr rm => exact ltr_effect h
  | movFromCr _ _ | movFromDr _ _ | movFromTr _ _ =>
    exact .quiet (Keeps.next h (movFromSys_keeps_protected s _ _ _ _)) fun _ => not_false
  | movToCr _ _ | movToDr _ _ | movToTr _ _ =>
    exact .quiet (Keeps.next h (movToSys_keeps_protected s _ _ _)) fun _ => not_false
  | lar dst _ =>
    exact .quiet (Keeps.next h (.bind fun _ _ => (loadAccessRights_keeps_protected s dst _).andThen fun _ => rfl))
      fun _ => not_false
  | lsl dst _ =>
    refine .quiet (Keeps.next h (.bind fun _ _ => .ok ?_)) fun _ => not_false
    rw [loadSegLimit_eq]; rfl
  | verr _ | verw _ => exact .quiet (Keeps.next h (.bind fun _ _ => .ok rfl)) fun _ => not_false
  | arpl rm src => exact arpl_effect h
  | int3 | intImm _ | into | iret => cases h

/-! ### The stored bytes (R347) -/

/-- The forms that load a segment register store to what its load does. -/
theorem storesTo_of_loadsSreg {r : SReg} {sel : Half} (h : loadsSreg s i r sel) : storesTo s i = loadStores s sel := by
  rcases h with ⟨rm, rfl, -, rfl⟩ | ⟨hform, -, rfl⟩ | ⟨dst, m, hform, -, rfl⟩
  · rfl
  all_goals
    simp only [List.mem_cons, Prod.mk.injEq, List.not_mem_nil, or_false] at hform
    rcases hform with ⟨rfl, rfl⟩ | ⟨rfl, rfl⟩ | ⟨rfl, rfl⟩ | ⟨rfl, rfl⟩ | ⟨rfl, rfl⟩ <;> rfl

/-- The far JMP and CALL forms store to what their transfer does. -/
theorem storesTo_of_reachesFar {k : FarKind} {sel : Half} {off : Word} (h : reachesFar s k i sel off) :
    storesTo s i = farStores s k sel := by
  cases k with
  | jmp | call => rcases h with rfl | ⟨m, rfl, -, rfl, -⟩ <;> rfl

/-- The far RET forms store to what their return does. -/
theorem storesTo_of_releases {n : Word} (h : releases i n) : storesTo s i = returnStores s n := by
  rcases h with ⟨rfl, rfl⟩ | ⟨k, rfl, rfl⟩ <;> rfl

/-- An instruction that answers stores to the bytes of `storesTo`. -/
theorem Effect.stores (h : Effect s t i) : Stores s t (storesTo s i) := by
  cases h with
  | storesOnly _ _ hstores => exact hstores
  | load u r sel hform hload hafter =>
    obtain ⟨-, -, hmem, hstored⟩ := protectedPart_eq_iff.1 hafter
    exact storesTo_of_loadsSreg hform ▸ (loadSreg_stores hload).thenUpdate hmem hstored
  | far k sel off hform hfar => exact storesTo_of_reachesFar hform ▸ hfar.stores
  | back n hform hreturn => exact storesTo_of_releases hform ▸ hreturn.stores

end Effect

/-- Settles O9: each instruction stores to the bytes that its loads, pushes and writes do. -/
theorem storesAreRemembered : Obligations.StoresAreRemembered := fun _ _ _ h =>
  ⟨(exec_effect h).stores.changed, (exec_effect h).stores.stored⟩

/-- Settles O8: the fetch looks for stored bytes among those of the instruction it decodes. -/
theorem storedBytesNotFetched : Obligations.StoredBytesNotFetched := by
  intro s i rest k hh hmode hover hdb hdec hk hstored
  have hm : modeChecks s = .ok () := modeChecks_ok.2 ⟨hmode, hdb⟩
  have htouch : fetchTouchesStored s i.length = true := by
    by_contra hnone
    exact fetchTouchesStored_eq_false.1 (Bool.eq_false_iff.2 hnone) k hk hstored
  have hf : fetch s = .error (.refused .fetchOfStoredByte) := by
    rw [fetch, hover, fetchDecoded, hdec]
    exact stopIf_bind_stop.2 (.inl htouch)
  simp only [step, hh, hm, hf]
  rfl

end Sys2Proof.Machine
end

section
/-! The invariant of the machine (R36, R64, R121 to R123, R171, R227, R341): the reset state, what a descriptor leaves in
a segment register, the segment registers after each effect of an instruction, the mode and memory after every step. -/

namespace Sys2Proof.Machine

/-- Settles O11: CS, SS, the data-segment registers and TR are what the table in the reset memory says. -/
theorem resetMeetsInv : Obligations.ResetMeetsInv := by
  have hinv : State.reset.Inv :=
    ⟨by decide, by decide, ⟨by decide, by decide, by decide, by decide⟩, by decide, by decide⟩
  have hcached : State.reset.CodeCached := by decide
  have htables : State.reset.TablesOk := by decide
  have htask : State.reset.TaskOk := by decide
  exact ⟨⟨hinv, hcached, htables, .inl htask, rfl, rfl⟩, by decide, rfl⟩

/-! ### What a descriptor leaves in a segment register (R64, R122, R123, R166) -/

/-- What CS holds at level `p` in `State.CodeOk`. -/
def codeOk (p : Level) (g : SegReg) : Prop :=
  isNull g.sel = false ∧ g.attr.valid = true ∧ g.attr.executable = true ∧ g.attr.p = true ∧ g.attr.db = true ∧
    selRpl g.sel = p ∧ limitOk g ∧ (g.attr.conforming = false → g.attr.dpl = p) ∧
    (g.attr.conforming = true → g.attr.dpl ≤ p)

/-- What SS holds at level `p` in `State.StackOk`. -/
def stackOk (p : Level) (g : SegReg) : Prop :=
  isNull g.sel = false ∧ g.attr.valid = true ∧ g.attr.writable = true ∧ g.attr.p = true ∧ g.attr.db = true ∧
    g.attr.dpl = p ∧ selRpl g.sel = p ∧ limitOk g

/-- The limit a load caches is one that a descriptor gives (R64). -/
theorem limitOk_segReg (d : Descriptor) (sel : Half) : limitOk (d.segReg sel) := by
  show if d.g = true then d.effLimit.extractLsb' 0 12 = 0xFFF else d.effLimit.toNat < 2 ^ 20
  unfold Descriptor.effLimit
  split
  · exact BitVec.extractLsb'_append_eq_right
  · have := d.limit20.isLt
    rw [BitVec.toNat_setWidth]
    omega

section Loaded
variable {s : State} {sel : Half} {p : Level}

/-- CS after a transfer to code that fits the level. -/
theorem codeOk_enteredCode (h : CodeFits s sel p) : codeOk p (enteredCode s sel p) :=
  ⟨(isNull_withRpl sel p).trans h.nonnull, rfl, h.executable, h.present, h.wide, selRpl_withRpl sel p,
    limitOk_segReg (descOf s sel) _, h.nonconforming, h.conforming⟩

/-- SS after a load of a stack segment of the level. -/
theorem stackOk_segReg (h : StackFits s sel p) : stackOk p ((descOf s sel).segReg sel) :=
  ⟨h.nonnull, rfl, h.writable, h.present, h.wide, h.level, h.rpl, limitOk_segReg _ _⟩

/-- What a program can load into SS is a stack segment of the CPL (R123). -/
theorem stackFits_of_canLoadSs (h : canLoadSs s sel = true) : StackFits s sel s.cpl := by
  simp only [canLoadSs, Bool.and_eq_true, Bool.not_eq_true', beq_iff_eq, and_assoc] at h
  obtain ⟨hn, -, hrpl, hw, hdpl, hp, hdb⟩ := h
  exact ⟨hn, hw, hp, hdb, hdpl, hrpl⟩

/-- A load with a non-null selector leaves what the descriptor gives. -/
theorem loadedSeg_of_not_null (r : SReg) (hn : isNull sel = false) : loadedSeg s r sel = (descOf s sel).segReg sel :=
  if_neg (ne_true_of_eq_false hn)

/-- A data-segment register after a load is null or holds a segment no more privileged than the CPL and the selector's
RPL (R121, R122, R124). -/
theorem dataOk_loadedSeg (r : SReg) (h : canLoadData s sel = true) :
    dataOk (loadedSeg s r sel) ∧ dataVisible s.cpl (loadedSeg s r sel) := by
  cases hn : isNull sel with
  | true =>
    rw [loadedSeg, if_pos hn]
    exact ⟨⟨fun _ => hn, (nomatch ·)⟩, (nomatch ·)⟩
  | false =>
    rw [loadedSeg_of_not_null r hn]
    simp only [canLoadData, hn, Bool.false_or, Bool.and_eq_true, Bool.or_eq_true, decide_eq_true_eq, and_assoc] at h
    obtain ⟨-, htype, hlevel, hp⟩ := h
    have hdpl (hc : (descOf s sel).attr.conforming = false) :
        s.cpl ≤ (descOf s sel).attr.dpl ∧ selRpl sel ≤ (descOf s sel).attr.dpl := by
      simpa [hc] using hlevel
    exact ⟨⟨(nomatch ·), fun _ => ⟨htype, hp, hn, limitOk_segReg _ _, fun hc => (hdpl hc).2⟩⟩,
      fun _ hc => (hdpl hc).1⟩

/-- Step 3 of an outward return nulls a register or leaves it (R227). -/
theorem dataOk_clearedSeg {g : SegReg} (h : dataOk g) (p : Level) : dataOk (clearedSeg p g) := by
  have hnull : isNull 0 = true := by decide
  rw [clearedSeg]
  split
  · exact ⟨fun _ => hnull, (nomatch ·)⟩
  · exact h

end Loaded

/-! ### The segment registers (R36, R121 to R123, R171, R227) -/

/-- The data-segment registers. -/
def dataRegs : List SReg := [.ds, .es, .fs, .gs]

theorem forall_dataRegs {P : SReg → Prop} : (∀ r ∈ dataRegs, P r) ↔ P .ds ∧ P .es ∧ P .fs ∧ P .gs := by
  simp only [dataRegs, List.forall_mem_cons, List.not_mem_nil, false_imp_iff, implies_true, and_true]

/-- The part of the invariant about the segment registers. -/
structure State.SegsOk (s : State) : Prop where
  code : codeOk s.cpl s.segs.cs
  stack : stackOk s.cpl s.segs.ss
  data : ∀ r ∈ dataRegs, dataOk (s.segs.get r)

/-- The invariant is its parts about the segment registers, the mode and memory. -/
theorem inv_iff {s : State} : s.Inv ↔ s.SegsOk ∧ s.ModeOk ∧ s.MemOk := by
  have hdata : s.DataSegsOk ↔ ∀ r ∈ dataRegs, dataOk (s.segs.get r) :=
    (forall_dataRegs (P := fun r => dataOk (s.segs.get r))).symm
  exact ⟨fun ⟨hcode, hstack, hsegs, hrest⟩ => ⟨⟨hcode, hstack, hdata.1 hsegs⟩, hrest⟩,
    fun ⟨hsegs, hrest⟩ => ⟨hsegs.code, hsegs.stack, hdata.2 hsegs.data, hrest⟩⟩

theorem dataVisible_iff {s : State} : s.DataVisible ↔ ∀ r ∈ dataRegs, dataVisible s.cpl (s.segs.get r) :=
  (forall_dataRegs (P := fun r => dataVisible s.cpl (s.segs.get r))).symm

/-- A level that falls sees no less than before (R122). -/
theorem dataVisible_mono {p q : Level} {g : SegReg} (h : dataVisible p g) (hle : q ≤ p) : dataVisible q g :=
  fun hvalid hc => BitVec.le_trans hle (h hvalid hc)

/-- From `s` to `t` the part of the invariant about the segment registers is kept, and so is that no data-segment
register holds a segment more privileged than the CPL. -/
structure KeepsSegs (s t : State) : Prop where
  ok : s.SegsOk → t.SegsOk
  visible : s.DataVisible → t.DataVisible

section KeepsSegs
variable {s t u : State} {k : FarKind} {sel : Half} {ret n : Word}

theorem KeepsSegs.of_eq (hsegs : t.segs = s.segs) (hcpl : t.cpl = s.cpl) : KeepsSegs s t where
  ok h := ⟨hsegs ▸ hcpl ▸ h.code, hsegs ▸ hcpl ▸ h.stack, hsegs ▸ h.data⟩
  visible h := dataVisible_iff.2 (hsegs ▸ hcpl ▸ dataVisible_iff.1 h)

theorem KeepsSegs.trans (h : KeepsSegs s t) (h' : KeepsSegs t u) : KeepsSegs s u :=
  ⟨h'.ok ∘ h.ok, h'.visible ∘ h.visible⟩

/-- The data-segment registers stay, and the CPL does not rise: CS and SS decide. -/
theorem KeepsSegs.of_data (hdata : ∀ r ∈ dataRegs, t.segs.get r = s.segs.get r) (hle : t.cpl ≤ s.cpl)
    (hcode : s.SegsOk → codeOk t.cpl t.segs.cs) (hstack : s.SegsOk → stackOk t.cpl t.segs.ss) : KeepsSegs s t where
  ok h := ⟨hcode h, hstack h, fun r hr => hdata r hr ▸ h.data r hr⟩
  visible h := dataVisible_iff.2 fun r hr => hdata r hr ▸ dataVisible_mono (dataVisible_iff.1 h r hr) hle

/-- CS alone is loaded, with code that fits the CPL. -/
theorem KeepsSegs.of_cs {g : SegReg} (hsegs : t.segs = { s.segs with cs := g }) (hcpl : t.cpl = s.cpl)
    (hcode : codeOk s.cpl g) : KeepsSegs s t := by
  refine .of_data ?data (hcpl ▸ BitVec.le_refl _) (fun _ => ?code) fun h => ?stack
  case data => rw [hsegs]; exact forall_dataRegs.2 ⟨rfl, rfl, rfl, rfl⟩
  case code => rw [hsegs, hcpl]; exact hcode
  case stack => rw [hsegs, hcpl]; exact h.stack

/-- A data-segment register alone is loaded, with a segment the CPL may see. -/
theorem KeepsSegs.of_dataReg {r : SReg} {g : SegReg} (hr : r ∈ dataRegs) (hsegs : t.segs = s.segs.set r g)
    (hcpl : t.cpl = s.cpl) (hg : dataOk g) (hvisible : dataVisible s.cpl g) : KeepsSegs s t := by
  have hother {q : SReg} (hq : q ∉ dataRegs) : t.segs.get q = s.segs.get q :=
    hsegs ▸ Segs.get_set_other s.segs g fun e => hq (e ▸ hr)
  have hcode : t.segs.cs = s.segs.cs := hother (q := .cs) (by decide)
  have hstack : t.segs.ss = s.segs.ss := hother (q := .ss) (by decide)
  have hdata (P : SegReg → Prop) (hnew : P g) (hold : ∀ q ∈ dataRegs, P (s.segs.get q)) :
      ∀ q ∈ dataRegs, P (t.segs.get q) := by
    intro q hq
    rw [hsegs]
    by_cases heq : q = r
    · rw [heq, Segs.get_set_same]; exact hnew
    · rw [Segs.get_set_other s.segs g heq]; exact hold q hq
  exact ⟨fun h => ⟨hcode ▸ hcpl ▸ h.code, hstack ▸ hcpl ▸ h.stack, hdata dataOk hg h.data⟩,
    fun h => dataVisible_iff.2 (hcpl ▸ hdata (dataVisible s.cpl) hvisible (dataVisible_iff.1 h))⟩

/-- SS alone is loaded, with a stack segment of the CPL. -/
theorem KeepsSegs.of_ss {g : SegReg} (hsegs : t.segs = { s.segs with ss := g }) (hcpl : t.cpl = s.cpl)
    (hstack : stackOk s.cpl g) : KeepsSegs s t := by
  refine .of_data ?data (hcpl ▸ BitVec.le_refl _) (fun h => ?code) fun _ => ?stack
  case data => rw [hsegs]; exact forall_dataRegs.2 ⟨rfl, rfl, rfl, rfl⟩
  case code => rw [hsegs, hcpl]; exact h.code
  case stack => rw [hsegs, hcpl]; exact hstack

/-- A load of a segment register by a program (R121 to R124). -/
theorem loadSreg_keepsSegs {r : SReg} (h : loadSreg s r sel = .ok t) : KeepsSegs s t := by
  obtain ⟨hcan, hload⟩ := loadSreg_ok h
  have hsegs : t.segs = s.segs.set r (loadedSeg s r sel) := by
    rcases hload with ⟨-, rfl⟩ | ⟨-, rfl⟩
    · rfl
    · rw [setAccessed_frame]; rfl
  have hcpl : t.cpl = s.cpl := loadSreg_keeps_cpl s r sel t h
  cases r with
  | cs => cases hcan
  | ss =>
    have hfits := stackFits_of_canLoadSs hcan
    rw [loadedSeg_of_not_null .ss hfits.nonnull] at hsegs
    exact .of_ss hsegs hcpl (stackOk_segReg hfits)
  | ds | es | fs | gs =>
    obtain ⟨hok, hvisible⟩ := dataOk_loadedSeg _ hcan
    exact .of_dataReg (by simp [dataRegs]) hsegs hcpl hok hvisible

theorem enterCode_keepsSegs (hcode : CodeFits s sel s.cpl) (off : Word) :
    KeepsSegs s (enterCode s sel (descOf s sel) off) :=
  .of_cs (by rw [enterCode_frame]; rfl) rfl (codeOk_enteredCode hcode)

theorem calledState_keepsSegs (hcode : CodeFits s sel s.cpl) (off : Word) : KeepsSegs s (calledState s sel off ret) :=
  .of_cs (by rw [calledState_frame]) (by rw [calledState_frame]) (codeOk_enteredCode hcode)

/-- A far transfer enters code that fits the CPL, and goes inward with a new stack of the inner level (R166, R197). -/
theorem FarOutcome.keepsSegs (h : FarOutcome s ret sel k t) : KeepsSegs s t := by
  cases h with
  | jumpDirect off hcode => exact enterCode_keepsSegs hcode off
  | callDirect off hcode => exact calledState_keepsSegs hcode off
  | jumpGate off _ hcode => exact enterCode_keepsSegs hcode off
  | callGate off _ _ hcode => exact calledState_keepsSegs hcode off
  | callInner off p params hp _ hinner hcode hstack =>
    have hlower : p < s.cpl := hp ▸ of_decide_eq_true (Bool.and_eq_true_iff.1 hinner).2
    rw [commitSwitch_frame hp]
    exact .of_data (forall_dataRegs.2 ⟨rfl, rfl, rfl, rfl⟩) (BitVec.le_of_lt hlower)
      (fun _ => codeOk_enteredCode hcode) fun _ => stackOk_segReg hstack

/-- A far return enters code that fits the level it returns to, with a stack of that level (R222, R226, R227). -/
theorem ReturnOutcome.keepsSegs (h : ReturnOutcome s n t) : KeepsSegs s t := by
  cases h with
  | same _ hcode =>
    exact .of_cs (by rw [sameLevelState_frame]) (by rw [sameLevelState_frame]) (codeOk_enteredCode hcode)
  | outward _ hcode hstack =>
    have hcleared : ∀ r ∈ dataRegs,
        (outwardState s n).segs.get r = clearedSeg (selRpl (returnSel s)) (s.segs.get r) := by
      rw [outwardState_frame]
      exact forall_dataRegs.2 ⟨rfl, rfl, rfl, rfl⟩
    refine ⟨fun h => ⟨?code, ?stack, fun r hr => ?data⟩, fun _ => dataVisible_iff.2 fun r hr => ?visible⟩
    case code => rw [outwardState_frame]; exact codeOk_enteredCode hcode
    case stack => rw [outwardState_frame]; exact stackOk_segReg hstack
    case data => exact hcleared r hr ▸ dataOk_clearedSeg (h.data r hr) _
    case visible =>
      have hcpl : (outwardState s n).cpl = selRpl (returnSel s) := by rw [outwardState_frame]
      exact hcleared r hr ▸ hcpl ▸ clearedSeg_dataVisible _ _

theorem Effect.keepsSegs {i : Instr} (h : Effect s t i) : KeepsSegs s t := by
  cases h with
  | storesOnly hsegs hcpl _ => exact .of_eq hsegs hcpl
  | load u r sel _ hload hafter =>
    obtain ⟨hsegs, hcpl, -, -⟩ := protectedPart_eq_iff.1 hafter
    exact (loadSreg_keepsSegs hload).trans (.of_eq hsegs hcpl)
  | far k sel off _ hfar => exact hfar.keepsSegs
  | back n _ hreturn => exact hreturn.keepsSegs

end KeepsSegs

/-! ### The mode (R34, R341) -/

/-- MOV to CRn, DRn or TRn answers only where it leaves protected mode on and paging off (D4, D5). -/
theorem movToSys_modeOk {s t : State} {g : Option SysRegs} {n : BitVec 3} {i : Instr}
    (h : movToSys s g n i = .ok t) : t.ModeOk := by
  obtain ⟨-, -, h⟩ := privileged_ok.1 h
  obtain ⟨x, -, h⟩ := bind_ok.1 h
  obtain ⟨hpe, h⟩ := stopIf_bind_ok.1 h
  obtain ⟨_, hpg, rfl⟩ := bind_return_ok.1 h
  exact ⟨Bool.eq_true_of_not_eq_false hpe, Bool.eq_false_iff.2 (stopIf_ok.1 hpg)⟩

/-- CLTS keeps PE and PG (R252). -/
theorem clts_modeOk {s t : State} (hmode : s.ModeOk) (h : exec .clts s = .next t) : t.ModeOk := by
  obtain ⟨hpe, hpg⟩ := hmode
  obtain ⟨-, -, h⟩ := privileged_ok.1 (finish_next.1 h)
  cases h
  exact ⟨(getLsbD_clearTs s.sys.cr0 0).trans (by simpa [peBit] using hpe),
    (getLsbD_clearTs s.sys.cr0 31).trans (by simpa [pgBit] using hpg)⟩

/-- LMSW cannot clear PE and does not reach PG (R257). -/
theorem lmsw_modeOk {s t : State} {rm : RM} (hmode : s.ModeOk) (h : exec (.lmsw rm) s = .next t) : t.ModeOk := by
  obtain ⟨hpe, hpg⟩ := hmode
  obtain ⟨-, -, h⟩ := privileged_ok.1 (finish_next.1 h)
  obtain ⟨v, -, rfl⟩ := bind_return_ok.1 h
  have hpe' : s.sys.cr0.getLsbD 0 = true := hpe
  exact ⟨(getLsbD_loadMsw s.sys.cr0 v 0).trans (by simp [hpe']), (getLsbD_loadMsw s.sys.cr0 v 31).trans hpg⟩

theorem loadLdtr_keeps_sys (s : State) (sel : Half) : Keeps State.sys s (loadLdtr s sel) := by
  unfold loadLdtr
  split
  · exact .ok rfl
  · exact .bind fun _ _ => .ok rfl

theorem loadTr_keeps_sys (s : State) (sel : Half) : Keeps State.sys s (loadTr s sel) :=
  .bind fun _ _ => .bind fun _ _ => .ok rfl

theorem movFromSys_keeps_sys (s : State) (v : Option Word) (n : BitVec 3) (dst : Reg) (i : Instr) :
    Keeps State.sys s (movFromSys s v n dst i) :=
  .privileged (.bind fun _ _ => .ok rfl)

/-- Every instruction leaves protected mode on and paging off. -/
theorem exec_modeOk {i : Instr} {s t : State} (hmode : s.ModeOk) (h : exec i s = .next t) : t.ModeOk := by
  have of_sys (hsys : t.sys = s.sys) : t.ModeOk := by rwa [State.ModeOk, hsys]
  cases hi : isPrivileged i with
  | false => exact of_sys (congrArg SystemPart.sys (exec_unprivileged_systemPart hi h))
  | true =>
    cases i with
    | clts => exact clts_modeOk hmode h
    | lmsw _ => exact lmsw_modeOk hmode h
    | movToCr _ _ | movToDr _ _ | movToTr _ _ => exact movToSys_modeOk (finish_next.1 h)
    | hlt => exact of_sys (Keeps.next h (.bind fun _ _ => .ok rfl))
    | lgdt _ | lidt _ => exact of_sys (Keeps.next h (.privileged (.bind fun _ _ => .ok rfl)))
    | lldt _ =>
      exact of_sys (Keeps.next h
        (.privileged (.bind fun _ _ => (loadLdtr_keeps_sys s _).andThen (advance_sys _))))
    | ltr _ =>
      exact of_sys (Keeps.next h
        (.privileged (.bind fun _ _ => (loadTr_keeps_sys s _).andThen (advance_sys _))))
    | movFromCr _ _ | movFromDr _ _ | movFromTr _ _ => exact of_sys (Keeps.next h (movFromSys_keeps_sys s _ _ _ _))
    | _ => cases hi

/-! ### The invariant -/

/-- Every instruction that answers keeps the invariant: its effect decides the segment registers and memory. -/
theorem exec_keepsInv {i : Instr} {s t : State} (hinv : s.Inv) (h : exec i s = .next t) :
    t.Inv ∧ (s.DataVisible → t.DataVisible) := by
  obtain ⟨hsegs, hmode, hmem, hset⟩ := inv_iff.1 hinv
  have heffect := exec_effect h
  have hkeep := heffect.keepsSegs
  exact ⟨inv_iff.2 ⟨hkeep.ok hsegs, exec_modeOk hmode h, heffect.stores.wf hmem, heffect.stores.rising hset⟩,
    hkeep.visible⟩

/-- Settles O10: a halted step changes nothing, and any other executes an instruction. -/
theorem stepKeepsInv : Obligations.StepKeepsInv := by
  intro s t hinv h
  cases hhalted : s.halted with
  | true =>
    cases (haltedStays s hhalted).symm.trans h
    exact ⟨hinv, id⟩
  | false =>
    obtain ⟨i, -, -, hexec⟩ := step_next hhalted h
    exact exec_keepsInv hinv hexec

end Sys2Proof.Machine
end
